-- ==== Sys2Proof/Word.lean ====
section
/-! DEFINITION. The word types of the CORE and the host's memory (R8, R22, R50). -/

namespace Sys2Proof

/-- A 64-bit register, operand or command value (R22, R23). -/
abbrev Word := BitVec 64

/-- One 8-bit byte of host memory (R50). -/
abbrev Byte := BitVec 8

/-- The interchange-format bits of one value of `T` (R55, R100).
A binary32 value stands in bits 31..0 with bits 63..32 zero. -/
abbrev FBits := BitVec 64

end Sys2Proof
end

