-- ==== Sys2Proof/Config.lean ====
section
/-! DEFINITION. What one CORE instance and its platform fix (R6), and the free values the spec leaves open.

The parameters of R6 are PLAIN DATA, one record `Params`, and State holds it (HWCFG shows two of its fields, R31).
So every statement about all states is a statement about every instance: both precisions, every capacity, every
platform map, every seed and chirp table, both division modes.
What the spec leaves open without any value is an `opaque` constant below: nothing can compute or prove its value. -/

namespace Sys2Proof

/-- The two precisions of `T` (R6, R7, R100). -/
inductive Prec where
  | binary32
  | binary64
  deriving DecidableEq, Repr, Inhabited

/-- How the Bluestein convolver divides by the chirp (R6, R192). -/
inductive BsDivMode where
  | mulConj
  | divide
  deriving DecidableEq, Repr, Inhabited

/-- The element type of a buffer (R52, R78). -/
inductive ElemType where
  | complex
  | real
  deriving DecidableEq, Repr, Inhabited

/-- A complex value: the pair of two values of `T` (R11, R108). -/
structure Cplx where
  re : FBits
  im : FBits
  deriving DecidableEq, Repr, Inhabited

/-- A range of ordinary host memory: `size` bytes from `base` (R51). -/
structure Region where
  base : Nat
  size : Nat
  deriving DecidableEq, Repr, Inhabited

/-- The parameters of R6, fixed for one instance. -/
structure Params where
  /-- `PREC` (R7). -/
  prec : Prec
  /-- `LOG2_CMAX`, 2 to 62 (D3). -/
  log2Cmax : Nat
  /-- `UBASE`, a multiple of 0x100 (R71, D10). -/
  ubase : Word
  /-- The platform's maximal ranges of side-effect-free memory, which `hostAdmits` reads (R51, D7). -/
  admitted : List Region
  /-- `twSeed` where the instance departs from the default: `H` and the pair `(c, s)` (R137, D27). -/
  seeds : List (Nat × Cplx)
  /-- `chirpVal` where the instance departs from the default: `(i, N)` and the value (R142, D29). -/
  chirps : List ((Nat × Nat) × Cplx)
  /-- `bsDivMode` (R192, D30). -/
  bsDivMode : BsDivMode
  /-- `realIfftCallsForward` (R198, D32). -/
  realIfftCallsForward : Bool
  deriving DecidableEq, Repr, Inhabited

/-- FREE VALUE (R106, D25): the bits the `n`-th draw takes its NaN's sign and payload from. -/
opaque Config.nanDraw : Nat → BitVec 64

/-- FREE VALUE (R114, D30): complex division of the chirp step when `bsDivMode = DIVIDE`.
It depends on the two operands (and the instance's precision) alone. -/
opaque Config.cdivT : Prec → Cplx → Cplx → Cplx

/-- FREE VALUE (R63, R66, R270): the byte the `n`-th unspecified access has at address `a`. -/
opaque Config.unspecifiedByte : Nat → Nat → Byte

/-- FREE VALUE (log entry 9): what stands for `RN_T` of a cosine or sine whose enclosures never agree within the
model's largest working precision. -/
opaque Config.unresolvedTrig : Prec → Nat → Nat → Nat

end Sys2Proof
end

