-- ==== Sys2Proof/Syntax.lean ====
section
/-! DEFINITION. The thirteen commands of the opcode table (R79, R84), one constructor a row.
A command word carries no operand: the operands are the latched `A0..A3` (R22, R41). -/

namespace Sys2Proof

/-- The commands, named after the assembler mnemonics of R84. -/
inductive Instr where
  /-- `cfg.r2`, CFG_R2 (R170). -/
  | cfgR2
  /-- `cfg.bs`, CFG_BS (R171). -/
  | cfgBs
  /-- `release`, RELEASE (R172). -/
  | release
  /-- `fft`, FFT (R194). -/
  | fft
  /-- `ifft`, IFFT (R195). -/
  | ifft
  /-- `fft.copy.c`, FFT_COPY with a complex source (R197). -/
  | fftCopyC
  /-- `fft.copy.r`, FFT_COPY with a real source (R197). -/
  | fftCopyR
  /-- `ifft.copy.c`, IFFT_COPY with a complex source (R198). -/
  | ifftCopyC
  /-- `ifft.copy.r`, IFFT_COPY with a real source (R198). -/
  | ifftCopyR
  /-- `fftshift.c`, FFTSHIFT of complex elements (R220). -/
  | fftshiftC
  /-- `fftshift.r`, FFTSHIFT of real elements (R220). -/
  | fftshiftR
  /-- `fftfreq`, FFTFREQ (R221). -/
  | fftfreq
  /-- `fftampl`, FFTAMPL (R222). -/
  | fftampl
  deriving DecidableEq, Repr, Inhabited

end Sys2Proof
end

