-- ==== Sys2Proof/WellFormed.lean ====
section
/-! DEFINITION. Well-formedness: the fields of a command word (R76, R81), an instruction, an assembler line (R84)
and an instance's parameters (R6, R51). -/

namespace Sys2Proof

/-- The fields of a 64-bit value written to `CMD` (R76): `OP`, `ET`, `RSV`, and the bits above the command word. -/
structure CmdFields where
  op : BitVec 8
  et : Bool
  rsv : BitVec 23
  hi : BitVec 32
  deriving DecidableEq, Repr

/-- The ten opcodes of R79. -/
def listedOps : List (BitVec 8) :=
  [0x01, 0x02, 0x03, 0x10, 0x11, 0x12, 0x13, 0x20, 0x21, 0x22]

/-- The three opcodes `ET = 1` is defined for (R78, R81). -/
def typedOps : List (BitVec 8) := [0x12, 0x13, 0x20]

/-- A command's fields are legal when none of the four conditions of R81 holds. -/
def CmdFields.wf (f : CmdFields) : Bool :=
  f.hi == 0 && f.rsv == 0 && listedOps.contains f.op && (!f.et || typedOps.contains f.op)

/-- `OP` of each command (R79). -/
def Instr.op : Instr → BitVec 8
  | .cfgR2 => 0x01
  | .cfgBs => 0x02
  | .release => 0x03
  | .fft => 0x10
  | .ifft => 0x11
  | .fftCopyC => 0x12
  | .fftCopyR => 0x12
  | .ifftCopyC => 0x13
  | .ifftCopyR => 0x13
  | .fftshiftC => 0x20
  | .fftshiftR => 0x20
  | .fftfreq => 0x21
  | .fftampl => 0x22

/-- `ET` of each command: 1 where its first buffer is real by its mnemonic (R78, R84). -/
def Instr.et : Instr → Bool
  | .cfgR2 => false
  | .cfgBs => false
  | .release => false
  | .fft => false
  | .ifft => false
  | .fftCopyC => false
  | .fftCopyR => true
  | .ifftCopyC => false
  | .ifftCopyR => true
  | .fftshiftC => false
  | .fftshiftR => true
  | .fftfreq => false
  | .fftampl => false

/-- The fields a command's word has (R76). -/
def Instr.fields (i : Instr) : CmdFields := { op := i.op, et := i.et, rsv := 0, hi := 0 }

/-- An instruction is well formed when its fields are legal; a command has no other field. -/
def Instr.wf (i : Instr) : Bool := i.fields.wf

/-- How many operands a command's assembler line has (R84). -/
def Instr.arity : Instr → Nat
  | .cfgR2 => 1
  | .cfgBs => 1
  | .release => 0
  | .fft => 2
  | .ifft => 2
  | .fftCopyC => 4
  | .fftCopyR => 4
  | .ifftCopyC => 4
  | .ifftCopyR => 4
  | .fftshiftC => 2
  | .fftshiftR => 2
  | .fftfreq => 3
  | .fftampl => 4

/-- One assembler line: a mnemonic and its operands in order (R84). -/
structure Line where
  instr : Instr
  operands : List Word
  deriving DecidableEq, Repr

/-- A line is well formed when it gives the operands R84 lists for its mnemonic. -/
def Line.wf (l : Line) : Bool := l.instr.wf && l.operands.length == l.instr.arity

/-- The register block is 0x100 bytes (R75). -/
def blockSize : Nat := 0x100

/-- A region lies in the 64-bit address space and outside the instance's register block (R50, R51). -/
def Region.wf (ubase : Word) (r : Region) : Bool :=
  decide (r.base + r.size ≤ 2 ^ 64) &&
    (decide (r.base + r.size ≤ ubase.toNat) || decide (ubase.toNat + blockSize ≤ r.base))

/-- The parameters are in the ranges R6 and R51 give them. -/
def Params.wf (p : Params) : Bool :=
  decide (2 ≤ p.log2Cmax) && decide (p.log2Cmax ≤ 62) && decide (p.ubase.toNat % 0x100 = 0) &&
    p.admitted.all (Region.wf p.ubase)

end Sys2Proof
end

