-- ==== Sys2Proof/Decode.lean ====
section
/-! DEFINITION. Decoding, total on all 2^64 values written to `CMD` (R76, R81, R83), and the encoder (R84). -/

namespace Sys2Proof

/-- The fields of a value written to `CMD` (R76). -/
def fieldsOf (v : Word) : CmdFields :=
  { op := v.extractLsb' 0 8
    et := v.getLsbD 8
    rsv := v.extractLsb' 9 23
    hi := v.extractLsb' 32 32 }

/-- The command of an opcode and its element type bit (R79, R84). -/
def instrOf (op : BitVec 8) (et : Bool) : Option Instr :=
  if op = 0x01 then (if et then none else some .cfgR2)
  else if op = 0x02 then (if et then none else some .cfgBs)
  else if op = 0x03 then (if et then none else some .release)
  else if op = 0x10 then (if et then none else some .fft)
  else if op = 0x11 then (if et then none else some .ifft)
  else if op = 0x12 then (if et then some .fftCopyR else some .fftCopyC)
  else if op = 0x13 then (if et then some .ifftCopyR else some .ifftCopyC)
  else if op = 0x20 then (if et then some .fftshiftR else some .fftshiftC)
  else if op = 0x21 then (if et then none else some .fftfreq)
  else if op = 0x22 then (if et then none else some .fftampl)
  else none

/-- `decode(v)` of R83; `none` is ILLEGAL, the one rejection the spec names (R81). -/
def decode (v : Word) : Option Instr :=
  if (fieldsOf v).hi = 0 ∧ (fieldsOf v).rsv = 0 then
    instrOf (fieldsOf v).op (fieldsOf v).et
  else none

/-- The 64-bit value to write to `CMD` for a command: `OP` in bits 7..0, `ET` in bit 8, all else 0 (R76, R84). -/
def encode (i : Instr) : Word :=
  BitVec.zeroExtend 64 i.op ||| (if i.et then 0x100 else 0)

/-- The decoder over an opcode-table row: its `nbits` low bits, every bit above them 0.
A command is one 64-bit register value and has no byte order of its own (R76). -/
def decodeTableWord (nbits w : Nat) : Option Instr :=
  decode (BitVec.ofNat 64 (w % 2 ^ nbits))

end Sys2Proof
end

