-- ==== Sys2Proof/Machine/State.lean ====
section
/-! DEFINITION. The machine's state as plain data: every piece of state of spec/10_state.md, host memory (R50), the
host agent (R20) and the model's own bookkeeping for what the spec leaves unspecified. -/

namespace Sys2Proof.Machine

/-- The codes of `STATUS.ERR` that are ever produced (R240); codes 10 to 15 are reserved and have no name here. -/
inductive ErrCode where
  | ok
  | domainError
  | lengthMismatch
  | unsupported
  | noKernel
  | illegalCommand
  | alignError
  | addressError
  | overlapError
  | capacityError
  deriving DecidableEq, Repr, Inhabited

/-- The fields of `STATUS` (R24). -/
structure Status where
  err : ErrCode
  busy : Bool
  pf : Bool
  deriving DecidableEq, Repr, Inhabited

/-- `KIND` (R34). -/
inductive KernelKind where
  | none
  | radix2
  | bluestein
  deriving DecidableEq, Repr, Inhabited

/-- The kernel context (R21, R34 to R37). A table's list holds exactly its active elements; an element the spec calls
unspecified is absent from the list (R36, R37). -/
structure Kernel where
  kind : KernelKind
  n : Nat
  e : Nat
  ifswap : Bool
  log2e : Nat
  tw : List Cplx
  circ : List Cplx
  deriving DecidableEq, Repr, Inhabited

/-- The scratch caches (R38); elements that nothing has written since reset or RELEASE are absent. -/
structure Caches where
  c0 : List Cplx
  c1 : List Cplx
  c2 : List Cplx
  deriving DecidableEq, Repr, Inhabited

/-- The ping-pong scheduler's loop state (R40). -/
structure Sched where
  ns : Nat
  pd : Nat
  ss : Nat
  sf : Bool
  si : Nat
  k : Nat
  deriving DecidableEq, Repr, Inhabited

/-- Host memory: (address, byte) pairs, addresses strictly rising, no entry equal to 0, which is what an unlisted
address reads as (log entry 2). -/
abbrev Memory := List Host.Cell

/-- The command latch's contents: the value written to `CMD` and the operands captured with it (R23, R41). With them
stands `mem`, host memory as of acceptance, which the command's working arrays are taken from (R63; log entry 33). -/
structure Latch where
  v : Word
  a0 : Word
  a1 : Word
  a2 : Word
  a3 : Word
  mem : Memory
  deriving DecidableEq, Repr, Inhabited

/-- One action of the host (R20): a store or a load of bytes at an address of host memory or of the register block,
or a pseudo-instruction of R86. -/
inductive HostAct where
  | store (addr : Word) (bytes : List Byte)
  | load (addr : Word) (count : Nat)
  | wait
  | check
  deriving DecidableEq, Repr, Inhabited

/-- The host agent: what it will still do, what its loads returned (newest first), and whether `check` stopped it. -/
structure HostAgent where
  program : List HostAct
  reads : List (List Byte)
  stopped : Bool
  deriving DecidableEq, Repr, Inhabited

/-- Who can take a step: the host, the CORE (R20), and the platform, which applies reset (R270). -/
inductive Agent where
  | host
  | core
  | platform
  deriving DecidableEq, Repr, Inhabited

/-- The whole machine. -/
structure State where
  /-- The instance's parameters (R6), of which `HWCFG` shows `PREC` and `LOG2_CMAX` (R31). No step changes them. -/
  params : Params
  /-- Operand register `A0` (R22). -/
  a0 : Word
  /-- Operand register `A1` (R22). -/
  a1 : Word
  /-- Operand register `A2` (R22). -/
  a2 : Word
  /-- Operand register `A3` (R22). -/
  a3 : Word
  /-- `STATUS` (R24). -/
  status : Status
  /-- The kernel context (R34 to R37), shown by `KINFO`, `FFTSIZE`, `EXTSIZE` (R28 to R30). -/
  kernel : Kernel
  /-- `C0`, `C1`, `C2` (R38). -/
  caches : Caches
  /-- The scheduler's loop state (R40). -/
  sched : Sched
  /-- The command latch, `none` when empty (R41). -/
  latch : Option Latch
  /-- Host memory (R50). -/
  mem : Memory
  /-- The model's own: the host has stored to the written extent of the command in flight (R66 (4); log entry 5). -/
  dstRaced : Bool
  /-- The model's own: how many free values have been drawn. -/
  draws : Nat
  /-- The host agent (R20). -/
  host : HostAgent
  /-- The model's own: which agent takes each of the next steps (log entry 4). -/
  agenda : List Agent
  deriving DecidableEq, Repr, Inhabited

/-- Why the machine stops with a fault. -/
inductive Fault where
  /-- Raised by a host load or store whose bytes run past address 2^64 - 1, which the spec says do not exist (R50, R53).
  Safe: the CORE never raises it, and the spec gives such an access no effect. -/
  | hostAccessBeyondAddressSpace
  deriving DecidableEq, Repr

/-- Why the model refuses. -/
inductive Refusal where
  /-- An instruction with no meaning yet, by its mnemonic; raised by no arm of `exec`. Safe. -/
  | notModelled (mnemonic : String)
  /-- Raised by a host access to the register block that is not an aligned 64-bit access (R77): "a model refuses it, and
  what a physical bus does with it is left to the platform". Safe. -/
  | malformedRegisterAccess
  deriving DecidableEq, Repr

/-- No kernel (R34, R35, R172). -/
def Kernel.absent : Kernel :=
  { kind := .none, n := 0, e := 0, ifswap := false, log2e := 0, tw := [], circ := [] }

/-- Caches of which no element has been written (R38, R39). -/
def Caches.unwritten : Caches := { c0 := [], c1 := [], c2 := [] }

/-- The scheduler state the model holds when no engine operation has run (R40: unspecified; log entry 6). -/
def Sched.idle : Sched := { ns := 0, pd := 0, ss := 0, sf := false, si := 0, k := 0 }

/-- The instance that `State.reset` is the reset state of: the parameters of the spec's test vectors
(95_test_vectors.md) with `UBASE = 0x20000` (log entry 1). -/
def Params.default : Params :=
  { prec := .binary64
    log2Cmax := 10
    ubase := 0x20000
    admitted := [{ base := 0x1000, size := 0xF000 }]
    seeds := []
    chirps := []
    bsDivMode := .mulConj
    realIfftCallsForward := false }

/-- The state after reset of the instance with parameters `p`, before the host has done anything (R271). -/
def State.resetOf (p : Params) : State :=
  { params := p
    a0 := 0
    a1 := 0
    a2 := 0
    a3 := 0
    status := { err := .ok, busy := false, pf := false }
    kernel := Kernel.absent
    caches := Caches.unwritten
    sched := Sched.idle
    latch := none
    mem := []
    dstRaced := false
    draws := 0
    host := { program := [], reads := [], stopped := false }
    agenda := [] }

/-- The machine right after reset (R271). -/
def State.reset : State := State.resetOf Params.default

end Sys2Proof.Machine
end

