-- ==== Sys2Proof/Machine/Integer.lean ====
section
/-! DEFINITION. The integer units `pwr2`, `clp2`, `ispow2` and `swap` (R115 to R121), on exact integers. -/

namespace Sys2Proof.Machine

/-- The 32/16/8/4/2/1 cascade of R116 on a positive integer. -/
def pwr2Cascade (x : Nat) : Nat :=
  ([32, 16, 8, 4, 2, 1].foldl
    (fun (rv : Nat × Nat) s => if 2 ^ s ≤ rv.2 then (rv.1 + s, rv.2 >>> s) else rv) (0, x)).1

/-- `pwr2(x)` (R116): DOMAIN_ERROR for a non-positive operand (R117), which no command reaches (R255). -/
def pwr2 (x : Int) : Except ErrCode Nat := if x ≤ 0 then .error .domainError else .ok (pwr2Cascade x.toNat)

/-- `clp2(x)` for `x ≥ 0`, exact (R118): the stated values at 0 and 1, else the bit-smear of `x - 1` plus one. -/
def clp2 (x : Nat) : Nat :=
  if x = 0 then 1
  else if x = 1 then 2
  else [1, 2, 4, 8, 16, 32].foldl (fun y s => y ||| (y >>> s)) (x - 1) + 1

/-- `clp2` on all of 64-bit two's complement (R119): 0 below zero, and the 64-bit wrap above `2^62`.
No command calls it. -/
def clp2Word (x : BitVec 64) : BitVec 64 :=
  if x.toInt < 0 then 0 else BitVec.ofNat 64 (clp2 x.toNat)

/-- `ispow2(n)` (R120): `n ≥ 1` and `n = 2^p` for some `p`. -/
def ispow2 (n : Int) : Bool := decide (1 ≤ n) && decide (n.toNat = 2 ^ Nat.log2 n.toNat)

/-- `swap(x, i, j)` (R121): exchanges two elements of an array, as bits. -/
def swap {α : Type} (x : List α) (i j : Nat) : List α :=
  match x[i]?, x[j]? with
  | some a, some b => (x.set i b).set j a
  | _, _ => x

end Sys2Proof.Machine
end

