-- ==== Sys2Proof/Machine/Numeric.lean ====
section
/-! DEFINITION. IEEE-754 arithmetic on `T` (R100 to R107): exact integers, one rounding, NaNs as draws.

Every finite value of `T` is an integer multiple of the smallest subnormal `u = 2^(-q)`, with `q = 149` (binary32) or
`q = 1074` (binary64). A value is unpacked to that integer, the operation is done exactly, and the exact quotient or
root is rounded once, to nearest, ties to even (R101). -/

namespace Sys2Proof.Machine

/-- `W`, the bytes of one value of `T` (R52). -/
def width : Prec → Nat
  | .binary32 => 4
  | .binary64 => 8

/-- Bits of the fraction field. -/
def fracBits : Prec → Nat
  | .binary32 => 23
  | .binary64 => 52

/-- The exponent field of infinities and NaNs. -/
def expMax : Prec → Nat
  | .binary32 => 255
  | .binary64 => 2047

/-- `q`, where the smallest subnormal is `u = 2^(-q)`. -/
def unitLog : Prec → Nat
  | .binary32 => 149
  | .binary64 => 1074

/-- The place of the sign bit. -/
def signPos : Prec → Nat
  | .binary32 => 31
  | .binary64 => 63

/-- `f_T` on raw bits: a binary32 value is the low 32 bits (R55, R80). -/
def maskT (p : Prec) (v : BitVec 64) : FBits :=
  match p with
  | .binary32 => (v.truncate 32).zeroExtend 64
  | .binary64 => v

/-- The sign bit of a value. -/
def signOf (p : Prec) (v : FBits) : Bool := v.getLsbD (signPos p)

/-- The bits below the sign bit, as a number. -/
def magOf (p : Prec) (v : FBits) : Nat := v.toNat % 2 ^ signPos p

/-- The magnitude bits of an infinity. -/
def infMag (p : Prec) : Nat := expMax p <<< fracBits p

/-- The value with a sign and magnitude bits. -/
def packMag (p : Prec) (neg : Bool) (mag : Nat) : FBits :=
  BitVec.ofNat 64 ((if neg then 2 ^ signPos p else 0) + mag)

/-- `isNaN` (R105): exponent field all ones and fraction not zero, quiet or signalling. -/
def isNaN (p : Prec) (v : FBits) : Bool := decide (infMag p < magOf p v)

/-- A value of `T`, read as a number: `fin s x` is `(-1)^s · x · u`. -/
inductive FVal where
  | nan
  | inf (neg : Bool)
  | fin (neg : Bool) (x : Nat)
  deriving DecidableEq, Repr

/-- The finite magnitude in units `u` of magnitude bits (subnormal when the exponent field is 0). -/
def unitsOf (p : Prec) (mag : Nat) : Nat :=
  let ex := mag >>> fracBits p
  if ex = 0 then mag else (mag % 2 ^ fracBits p + 2 ^ fracBits p) <<< (ex - 1)

/-- The number a bit pattern stands for (R55). -/
def unpack (p : Prec) (v : FBits) : FVal :=
  if isNaN p v then .nan
  else if magOf p v = infMag p then .inf (signOf p v)
  else .fin (signOf p v) (unitsOf p (magOf p v))

/-- Round-to-nearest, ties-to-even (R101), on a quotient `t` with remainder `r` of the divisor `d`: whether to go up. -/
def roundsUp (t r d : Nat) : Bool := decide (d < 2 * r) || (decide (2 * r = d) && decide (t % 2 = 1))

/-- `RN_T` (R101, R104) of the non-negative real `num / den` units: the magnitude bits of the nearest value of `T`,
infinity beyond the largest finite value. -/
def roundQuot (p : Prec) (num den : Nat) : Nat :=
  let sh := Nat.log2 (num / den) - fracBits p
  let d := den <<< sh
  let t := num / d
  let r := num % d
  Nat.min ((sh <<< fracBits p) + t + (if roundsUp t r d then 1 else 0)) (infMag p)

/-- Integer square root by binary digits: `root` plus the digits below `2^bits` that keep the square at most `n`. -/
def isqrtAux (n : Nat) : Nat → Nat → Nat
  | 0, root => root
  | bits + 1, root =>
    let cand := root + 2 ^ bits
    isqrtAux n bits (if cand * cand ≤ n then cand else root)

/-- The floor of the square root of `n`. -/
def isqrt (n : Nat) : Nat := isqrtAux n (Nat.log2 n / 2 + 1) 0

/-- `RN_T` of the square root of `n`, in units `u`: the magnitude bits of the nearest value of `T`. -/
def roundRoot (p : Prec) (n : Nat) : Nat :=
  let g := isqrt n
  let sh := Nat.log2 g - fracBits p
  let t := g >>> sh
  let mid := (2 * t + 1) <<< sh
  let up := decide (mid * mid < 4 * n) || (decide (mid * mid = 4 * n) && decide (t % 2 = 1))
  Nat.min ((sh <<< fracBits p) + t + (if up then 1 else 0)) (infMag p)

/-- A computation that may draw free values: it is given how many have been drawn and answers how many then are. -/
abbrev Draw := StateM Nat

/-- The result of a computation started after `n` draws, and the draws then made. -/
def runDraw {α : Type} (x : Draw α) (n : Nat) : α × Nat := x n

/-- A quiet NaN whose sign and payload are those of `raw` (R106). -/
def quietNaN (p : Prec) (raw : BitVec 64) : FBits :=
  match p with
  | .binary32 => maskT .binary32 raw ||| 0x7FC00000
  | .binary64 => raw ||| 0x7FF8000000000000

/-- A NaN result: the next draw of `nanDraw` (R106, D25). -/
def drawNaN (p : Prec) : Draw FBits :=
  fun n => (quietNaN p (Config.nanDraw n), n + 1)

/-- `+0.0` (R107). -/
def fZero : FBits := 0

/-- `+1.0` (R107). -/
def fOne (p : Prec) : FBits := packMag p false ((expMax p / 2) <<< fracBits p)

/-- `fneg` (R103): flips the sign bit, of every bit pattern. -/
def fneg (p : Prec) (a : FBits) : FBits := a ^^^ BitVec.ofNat 64 (2 ^ signPos p)

/-- `fabs` (R103): clears the sign bit, of every bit pattern. -/
def fabs (p : Prec) (a : FBits) : FBits := BitVec.ofNat 64 (magOf p a)

/-- The signed integer of a sign and a magnitude. -/
def signed (neg : Bool) (x : Nat) : Int := if neg then -(x : Int) else (x : Int)

/-- The rounded value of an exact signed sum in units `u`; an exact zero has the sign `zeroNeg`. -/
def roundSum (p : Prec) (zeroNeg : Bool) (z : Int) : FBits :=
  if z = 0 then packMag p zeroNeg 0
  else packMag p (decide (z < 0)) (roundQuot p z.natAbs 1)

/-- `fadd` (R102). -/
def fadd (p : Prec) (a b : FBits) : Draw FBits :=
  match unpack p a, unpack p b with
  | .nan, _ => drawNaN p
  | _, .nan => drawNaN p
  | .inf s, .inf t => if s = t then pure (packMag p s (infMag p)) else drawNaN p
  | .inf s, .fin _ _ => pure (packMag p s (infMag p))
  | .fin _ _, .inf t => pure (packMag p t (infMag p))
  | .fin s x, .fin t y => pure (roundSum p (s && t) (signed s x + signed t y))

/-- `fsub` (R102): the sum of `a` and `b` with its sign reversed. -/
def fsub (p : Prec) (a b : FBits) : Draw FBits := fadd p a (fneg p b)

/-- `fmul` (R102). The product of two multiples of `u` is an integer over `2^q` units. -/
def fmul (p : Prec) (a b : FBits) : Draw FBits :=
  match unpack p a, unpack p b with
  | .nan, _ => drawNaN p
  | _, .nan => drawNaN p
  | .inf s, .inf t => pure (packMag p (s ^^ t) (infMag p))
  | .inf s, .fin t y => if y = 0 then drawNaN p else pure (packMag p (s ^^ t) (infMag p))
  | .fin s x, .inf t => if x = 0 then drawNaN p else pure (packMag p (s ^^ t) (infMag p))
  | .fin s x, .fin t y => pure (packMag p (s ^^ t) (roundQuot p (x * y) (2 ^ unitLog p)))

/-- `fdiv` (R102). The quotient of two multiples of `u` is `x·2^q / y` units. -/
def fdiv (p : Prec) (a b : FBits) : Draw FBits :=
  match unpack p a, unpack p b with
  | .nan, _ => drawNaN p
  | _, .nan => drawNaN p
  | .inf _, .inf _ => drawNaN p
  | .inf s, .fin t _ => pure (packMag p (s ^^ t) (infMag p))
  | .fin s _, .inf t => pure (packMag p (s ^^ t) 0)
  | .fin s x, .fin t y =>
    if y = 0 then
      if x = 0 then drawNaN p else pure (packMag p (s ^^ t) (infMag p))
    else pure (packMag p (s ^^ t) (roundQuot p (x <<< unitLog p) y))

/-- `fsqrt` (R102). The root of `x` units is the root of `x·2^q`, in units. -/
def fsqrt (p : Prec) (a : FBits) : Draw FBits :=
  match unpack p a with
  | .nan => drawNaN p
  | .inf s => if s then drawNaN p else pure (packMag p false (infMag p))
  | .fin s x =>
    if x = 0 then pure (packMag p s 0)
    else if s then drawNaN p
    else pure (packMag p false (roundRoot p (x <<< unitLog p)))

/-- `toT(n)` for an integer `n` (R104); `toT(0)` is `+0.0`. -/
def toT (p : Prec) (n : Int) : FBits :=
  packMag p (decide (n < 0)) (roundQuot p (n.natAbs <<< unitLog p) 1)

/-- `RN_T` of the non-negative rational `num / den` (R104). -/
def rnRat (p : Prec) (num den : Nat) : FBits :=
  packMag p false (roundQuot p (num <<< unitLog p) den)

/-- The numeric order on values that are neither NaN nor negative (R105). -/
def magLe (p : Prec) (a b : FBits) : Bool :=
  match unpack p a, unpack p b with
  | _, .inf _ => true
  | .fin _ x, .fin _ y => decide (x ≤ y)
  | _, _ => false

/-- `max` of two non-NaN, non-negative values (R105). -/
def fmax (p : Prec) (a b : FBits) : FBits := if magLe p a b then b else a

/-- `min` of two non-NaN, non-negative values (R105). -/
def fmin (p : Prec) (a b : FBits) : FBits := if magLe p a b then a else b

/-- The value is `+0` or `-0`. -/
def isZero (p : Prec) (a : FBits) : Bool := decide (magOf p a = 0)

/-- `apy2(x, y)`, the overflow-robust hypot (R122): a NaN operand is returned as it is, `x` first. -/
def apy2 (p : Prec) (x y : FBits) : Draw FBits :=
  if isNaN p x then pure x
  else if isNaN p y then pure y
  else
    let w := fmax p (fabs p x) (fabs p y)
    let z := fmin p (fabs p x) (fabs p y)
    if isZero p z then pure w
    else do
      let q ← fdiv p z w
      let qq ← fmul p q q
      let one ← fadd p (fOne p) qq
      let r ← fsqrt p one
      fmul p w r

end Sys2Proof.Machine
end

