-- ==== Sys2Proof/Machine/Complex.lean ====
section
/-! DEFINITION. Complex arithmetic (R108 to R114, R123) and the division by the chirp (R192). -/

namespace Sys2Proof.Machine

/-- `(+0.0, +0.0)` (R11). -/
def cZero : Cplx := { re := fZero, im := fZero }

/-- `(+1.0, +0.0)` (R107). -/
def cOne (p : Prec) : Cplx := { re := fOne p, im := fZero }

/-- `(+0.0, -1.0)` (R107). -/
def cMinusI (p : Prec) : Cplx := { re := fZero, im := fneg p (fOne p) }

/-- `cadd` (R109). -/
def cadd (p : Prec) (a b : Cplx) : Draw Cplx := do
  let re ← fadd p a.re b.re
  let im ← fadd p a.im b.im
  pure { re, im }

/-- `csub` (R110). -/
def csub (p : Prec) (a b : Cplx) : Draw Cplx := do
  let re ← fsub p a.re b.re
  let im ← fsub p a.im b.im
  pure { re, im }

/-- `cmul` (R111): four products, one difference and one sum, none fused. -/
def cmul (p : Prec) (a b : Cplx) : Draw Cplx := do
  let rr ← fmul p a.re b.re
  let ii ← fmul p a.im b.im
  let re ← fsub p rr ii
  let ri ← fmul p a.re b.im
  let ir ← fmul p a.im b.re
  let im ← fadd p ri ir
  pure { re, im }

/-- `conj` (R112). -/
def conj (p : Prec) (a : Cplx) : Cplx := { re := a.re, im := fneg p a.im }

/-- `cdivr` (R113): each part divided by the real `d`. -/
def cdivr (p : Prec) (a : Cplx) (d : FBits) : Draw Cplx := do
  let re ← fdiv p a.re d
  let im ← fdiv p a.im d
  pure { re, im }

/-- `cdivT` (R114): the instance's complex division, a free value of its operands. -/
def cdivT (p : Prec) (x c : Cplx) : Cplx :=
  let z := Config.cdivT p x c
  { re := maskT p z.re, im := maskT p z.im }

/-- `bsdiv` (R192): multiplication by the conjugate, or `cdivT`, as `bsDivMode` chooses. -/
def bsdiv (P : Params) (x c : Cplx) : Draw Cplx :=
  match P.bsDivMode with
  | .mulConj => cmul P.prec x (conj P.prec c)
  | .divide => pure (cdivT P.prec x c)

/-- `apy2(c)` of a complex value (R123). -/
def apy2c (p : Prec) (c : Cplx) : Draw FBits := apy2 p c.re c.im

/-- Promotion of a real element (R190, R197): `(r, +0.0)`. -/
def promote (r : FBits) : Cplx := { re := r, im := fZero }

end Sys2Proof.Machine
end

