-- ==== Sys2Proof/Machine/Trig.lean ====
section
/-! DEFINITION. Correctly rounded cosines and sines of rational multiples of π, which the default `twSeed` and
`chirpVal` ask for (R137, R142).

An enclosure of a non-negative real `v` at precision `w` is a pair of integers with `lo ≤ v·2^w ≤ hi`. Every operation
rounds outwards. When both ends of an enclosure round to the same value of `T`, that value is `RN_T(v)`; when they do
not, the precision is doubled. -/

namespace Sys2Proof.Machine

/-- An enclosure of a non-negative real at the precision in use. -/
structure Encl where
  lo : Nat
  hi : Nat
  deriving DecidableEq, Repr

namespace Encl

/-- Sum. -/
def add (a b : Encl) : Encl := { lo := a.lo + b.lo, hi := a.hi + b.hi }

/-- Difference, of reals whose difference is not negative. -/
def sub (a b : Encl) : Encl := { lo := a.lo - b.hi, hi := a.hi - b.lo }

/-- Product at precision `w`. -/
def mul (w : Nat) (a b : Encl) : Encl := { lo := (a.lo * b.lo) >>> w, hi := (a.hi * b.hi) >>> w + 1 }

/-- Product with the rational `num / den`. -/
def scale (a : Encl) (num den : Nat) : Encl := { lo := a.lo * num / den, hi := a.hi * num / den + 1 }

/-- Widening by a remainder of at most `r` either way. -/
def widen (a : Encl) (r : Nat) : Encl := { lo := a.lo - r, hi := a.hi + r }

end Encl

/-- The enclosure of the unit fraction `1 / d`. -/
def enclInv (w d : Nat) : Encl := { lo := 2 ^ w / d, hi := 2 ^ w / d + 1 }

/-- The alternating sum `t 0 - t 1 + t 2 - …` of `n` terms from index `k`, as the sums of the terms added and
subtracted. -/
def alternating (t : Nat → Encl) : Nat → Nat → Encl × Encl → Encl × Encl
  | 0, _, acc => acc
  | n + 1, k, (plus, minus) =>
    alternating t n (k + 1)
      (if k % 2 = 0 then (plus.add (t k), minus) else (plus, minus.add (t k)))

/-- `atan(1/x)` by `n` terms of its series; the remainder is at most the next term. -/
def enclAtanInv (w n x : Nat) : Encl :=
  let t := fun k => enclInv w (x ^ (2 * k + 1) * (2 * k + 1))
  let s := alternating t n 0 ({ lo := 0, hi := 0 }, { lo := 0, hi := 0 })
  (s.1.sub s.2).widen (t n).hi

/-- `π = 16·atan(1/5) - 4·atan(1/239)`. -/
def enclPi (w n : Nat) : Encl :=
  ((enclAtanInv w n 5).scale 16 1).sub ((enclAtanInv w n 239).scale 4 1)

/-- The sum of `n` Taylor terms from `term`, each the one before times `x2` over `div k`, with the signs alternating;
the remainder is at most the next term. -/
def taylor (w : Nat) (x2 : Encl) (div : Nat → Nat) : Nat → Nat → Encl → Encl × Encl → Encl
  | 0, _, term, (plus, minus) => (plus.sub minus).widen term.hi
  | n + 1, k, term, (plus, minus) =>
    taylor w x2 div n (k + 1) ((term.mul w x2).scale 1 (div k))
      (if k % 2 = 0 then (plus.add term, minus) else (plus, minus.add term))

/-- Which of the two functions. -/
inductive TrigFn where
  | cos
  | sin
  deriving DecidableEq, Repr

/-- The enclosure at precision `w` of the function at the angle `π·a/b`, for `0 ≤ a/b ≤ 1/2`. -/
def enclTrig (f : TrigFn) (w a b : Nat) : Encl :=
  let n := w / 4 + 2
  let x := (enclPi w n).scale a b
  let x2 := x.mul w x
  let zero : Encl := { lo := 0, hi := 0 }
  match f with
  | .cos => taylor w x2 (fun k => (2 * k + 1) * (2 * k + 2)) n 0 { lo := 2 ^ w, hi := 2 ^ w } (zero, zero)
  | .sin => taylor w x2 (fun k => (2 * k + 2) * (2 * k + 3)) n 0 x (zero, zero)

/-- The magnitude bits both ends of an enclosure round to, if they agree. -/
def enclRound (p : Prec) (w : Nat) (e : Encl) : Option Nat :=
  let lo := roundQuot p (e.lo <<< unitLog p) (2 ^ w)
  let hi := roundQuot p (e.hi <<< unitLog p) (2 ^ w)
  if lo = hi then some lo else none

/-- The first agreement among `fuel` precisions, each double the one before; a free value if there is none. -/
def refine (p : Prec) (f : TrigFn) (a b : Nat) : Nat → Nat → Nat
  | 0, _ => Config.unresolvedTrig p a b % infMag p
  | fuel + 1, w =>
    match enclRound p w (enclTrig f w a b) with
    | some m => m
    | none => refine p f a b fuel (2 * w)

/-- The magnitude bits of `RN_T` of the function at `π·a/b`, `0 ≤ a/b ≤ 1/2`; its exact zeros are exact (R104). -/
def trigMag (p : Prec) (f : TrigFn) (a b : Nat) : Nat :=
  match f with
  | .cos => if 2 * a = b then 0 else refine p .cos a b 8 128
  | .sin => if a = 0 then 0 else refine p .sin a b 8 128

/-- `(RN_T(cos(π·q/n)), RN_T(sin(π·q/n)))` for `n ≥ 1`: the angle is reduced exactly to `[0, π/2]`, and an exact zero is
`+0.0` (log entry 10). -/
def cosSin (p : Prec) (q n : Nat) : Cplx :=
  let t := q % (2 * n)
  let sNeg := decide (n < t)
  let t := if n < t then 2 * n - t else t
  let cNeg := decide (n < 2 * t)
  let t := if n < 2 * t then n - t else t
  { re := packMag p cNeg (trigMag p .cos t n)
    im := packMag p sNeg (trigMag p .sin t n) }

end Sys2Proof.Machine
end

