-- ==== Sys2Proof/Machine/Tables.lean ====
section
/-! DEFINITION. The twiddle ROM generator TWGEN (R130 to R141) and the chirp table generator CHGEN (R142 to R145). -/

namespace Sys2Proof.Machine

/-- `f_T` on both parts of a parameter table's entry. -/
def maskC (p : Prec) (z : Cplx) : Cplx := { re := maskT p z.re, im := maskT p z.im }

/-- `twSeed(H)`: the pair `(c, s)` (R137), the instance's own or the correctly rounded cosine and sine of `π/H`. -/
def twSeed (P : Params) (H : Nat) : Cplx :=
  match P.seeds.lookup H with
  | some cs => maskC P.prec cs
  | none => cosSin P.prec 1 H

/-- `r = RN_T(0.7071067811865476)` (R139, D28). -/
def halfRoot2 (p : Prec) : FBits := rnRat p 7071067811865476 (10 ^ 16)

/-- One turn of the recurrence (R135, R138): the new cosine from the old pair, then the new sine with the old cosine. -/
def twStep (p : Prec) (cs : Cplx) (C S : FBits) : Draw (FBits × FBits) := do
  let m1 ← fmul p C cs.re
  let m2 ← fmul p S cs.im
  let cn ← fadd p m1 m2
  let m3 ← fmul p S cs.re
  let m4 ← fmul p C cs.im
  let sn ← fsub p m3 m4
  pure (cn, sn)

/-- The four symmetric writes of step 3 (R136). -/
def twPlace (p : Prec) (H k : Nat) (C S : FBits) (tw : List Cplx) : List Cplx :=
  (((tw.set k { re := C, im := S }).set
    (H / 2 - k) { re := fneg p S, im := fneg p C }).set
    (H / 2 + k) { re := S, im := fneg p C }).set
    (H - k) { re := fneg p C, im := S }

/-- Step 3 (R131): `n` turns from index `k`. -/
def twLoop (p : Prec) (cs : Cplx) (H : Nat) : Nat → Nat → FBits → FBits → List Cplx → Draw (List Cplx)
  | 0, _, _, _, tw => pure tw
  | n + 1, k, C, S, tw => do
    let (C, S) ← twStep p cs C S
    twLoop p cs H n (k + 1) C S (twPlace p H k C S tw)

/-- Step 4 (R139). -/
def twExact (p : Prec) (H : Nat) (tw : List Cplx) : List Cplx :=
  let r := halfRoot2 p
  (tw.set (H / 4) { re := r, im := fneg p r }).set (3 * H / 4) { re := fneg p r, im := fneg p r }

/-- `TWGEN(H)` (R131): the table `TW[0 .. H-1]`. Every element of the initial list is overwritten (R140). -/
def twgen (P : Params) (H : Nat) : Draw (List Cplx) :=
  let p := P.prec
  if H = 0 then pure []
  else
    let tw := (List.replicate H cZero).set 0 (cOne p)
    if H = 1 then pure tw
    else
      let tw := tw.set (H / 2) (cMinusI p)
      if H = 2 then pure tw
      else do
        let tw ← twLoop p (twSeed P H) H (H / 4 - 1) 1 (fOne p) fZero tw
        pure (twExact p H tw)

/-- `chirpVal(i, N)`: `χ(i)` (R142), the instance's own or the correctly rounded value with `q = i² mod 2N`. -/
def chirpVal (P : Params) (i N : Nat) : Cplx :=
  match P.chirps.lookup (i, N) with
  | some z => maskC P.prec z
  | none => cosSin P.prec (i * i % (2 * N)) N

/-- One turn of CHGEN's first loop (R143): `CIRC[i]` and `CIRC[M - i]`. -/
def chPlace (P : Params) (N M : Nat) (ca : List Cplx) (i : Nat) : List Cplx :=
  let v := chirpVal P i N
  (ca.set i v).set (M - i) v

/-- `CHGEN(N, M)` (R143): the table `CIRC[0 .. M-1]`. Every element of the initial list is overwritten (R144). -/
def chgen (P : Params) (N M : Nat) : List Cplx :=
  let ca := (List.replicate M cZero).set 0 (cOne P.prec)
  let ca := (List.range' 1 (N - 1)).foldl (chPlace P N M) ca
  (List.range' N (M - N + 1 - N)).foldl (fun ca i => ca.set i cZero) ca

end Sys2Proof.Machine
end

