-- ==== Sys2Proof/Machine/Engine.lean ====
section
/-! DEFINITION. The butterfly unit, the ping-pong scheduler, the engine operations and the Bluestein convolver
(R150 to R163, R191). -/

namespace Sys2Proof.Machine

/-- Element `i` of a working array; every index the engine uses is in range (R154). -/
def elem (x : List Cplx) (i : Nat) : Cplx := x.getD i cZero

/-- One iteration of `ctb` (R150). -/
def ctbIter (p : Prec) (tw x : List Cplx) (si hs ss pd : Nat) (y : List Cplx) (k : Nat) : Draw (List Cplx) := do
  let a := elem x (si + k * pd)
  let b := elem x (si + k * pd + hs)
  let sum ← cadd p a b
  let diff ← csub p a b
  let prod ← cmul p diff (elem tw (k * pd))
  pure ((y.set (si + k * ss) sum).set (si + k * ss + pd) prod)

/-- `ctb(Y, X, si, hs, ns, ss, pd)` (R150): the destination after one butterfly call. -/
def ctb (p : Prec) (tw y x : List Cplx) (si hs ns ss pd : Nat) : Draw (List Cplx) :=
  (List.range ns).foldlM (ctbIter p tw x si hs ss pd) y

/-- One pass: the `pd` calls for `si = 0 .. pd-1` (R155), from source `x` into destination `y`. -/
def pass (p : Prec) (tw y x : List Cplx) (hs ns ss pd : Nat) : Draw (List Cplx) :=
  (List.range pd).foldlM (fun y si => ctb p tw y x si hs ns ss pd) y

/-- The two buffers and the loop state of a scheduler run. -/
structure PingPong where
  sa : List Cplx
  ba : List Cplx
  sched : Sched
  deriving DecidableEq, Repr

/-- The scheduler's loop state before the first pass (R155, R40). -/
def Sched.start (hs : Nat) : Sched := { ns := hs, pd := 1, ss := 2, sf := false, si := 0, k := 0 }

/-- The loop state after a pass (R155). -/
def Sched.advance (c : Sched) : Sched :=
  { ns := c.ns / 2, pd := 2 * c.pd, ss := 2 * c.ss, sf := !c.sf, si := c.pd, k := c.ns }

/-- One pass of the loop of R155: into `BA` when `sf` is false, into `SA` when it is true. -/
def ditnnPass (p : Prec) (tw : List Cplx) (hs : Nat) (b : PingPong) : Draw PingPong :=
  let c := b.sched
  if c.sf then do
    let sa ← pass p tw b.sa b.ba hs c.ns c.ss c.pd
    pure { b with sa := sa, sched := c.advance }
  else do
    let ba ← pass p tw b.ba b.sa hs c.ns c.ss c.pd
    pure { b with ba := ba, sched := c.advance }

/-- The loop of R155, `while ns > 0`, for at most `fuel` passes. -/
def ditnnLoop (p : Prec) (tw : List Cplx) (hs : Nat) : Nat → PingPong → Draw PingPong
  | 0, b => pure b
  | fuel + 1, b =>
    if b.sched.ns = 0 then pure b
    else do
      let b ← ditnnPass p tw hs b
      ditnnLoop p tw hs fuel b

/-- `ditnn(SA, BA, hs)` (R155). `ns` starts at `hs` and halves, so `log₂ hs + 1` passes end the loop (R156). -/
def ditnn (p : Prec) (tw sa ba : List Cplx) (hs : Nat) : Draw PingPong :=
  ditnnLoop p tw hs (Nat.log2 hs + 1) { sa := sa, ba := ba, sched := Sched.start hs }

/-- The result of an engine operation: the array, the scratch and the scheduler's loop state. -/
structure EngineOut where
  x : List Cplx
  s : List Cplx
  sched : Sched
  deriving DecidableEq, Repr

/-- Apply an element operation to every element, in index order. -/
def mapDraw {α β : Type} (f : α → Draw β) (x : List α) : Draw (List β) := x.mapM f

/-- `FWD_R2(X, S, E, ifswap)` (R158). -/
def fwdR2 (p : Prec) (tw x s : List Cplx) (E : Nat) (ifswap : Bool) : Draw EngineOut :=
  if ifswap then do
    let r ← ditnn p tw x x (E / 2)
    pure { x := r.ba, s := r.sa, sched := r.sched }
  else do
    let r ← ditnn p tw x s (E / 2)
    pure { x := r.sa, s := r.ba, sched := r.sched }

/-- `INV_R2(X, S, E, ifswap)` (R159). -/
def invR2 (p : Prec) (tw x s : List Cplx) (E : Nat) (ifswap : Bool) : Draw EngineOut := do
  let cx := x.map (conj p)
  let r ← if ifswap then do
      let r ← ditnn p tw cx x (E / 2)
      pure { x := r.ba, s := r.sa, sched := r.sched : EngineOut }
    else do
      let r ← ditnn p tw cx s (E / 2)
      pure { x := r.sa, s := r.ba, sched := r.sched : EngineOut }
  let d := toT p (E : Int)
  let y ← mapDraw (fun z => cdivr p (conj p z) d) r.x
  pure { r with x := y }

/-- The first `n` elements of a cache as a working array (R38). An element nothing has written stands as zero; no
operation reads one before writing it (R39). -/
def cacheView (n : Nat) (c : List Cplx) : List Cplx := (c ++ List.replicate (n - c.length) cZero).take n

/-- A cache after a command has used its first elements. -/
def cacheStore (x c : List Cplx) : List Cplx := x ++ c.drop x.length

/-- The result of the Bluestein convolver: `XB`, the three caches and the scheduler's loop state. -/
structure ConvolverOut where
  x : List Cplx
  c0 : List Cplx
  c1 : List Cplx
  c2 : List Cplx
  sched : Sched
  deriving DecidableEq, Repr

/-- `BS_FWD(XB)` (R191) with `C0` as given and the tables of kernel `K`. -/
def bsFwd (P : Params) (K : Kernel) (xb c0 : List Cplx) : Draw ConvolverOut := do
  let p := P.prec
  let M := K.e
  let N := K.n
  let h ← fwdR2 p K.tw K.circ c0 M K.ifswap
  let y ← mapDraw (fun i => bsdiv P (elem xb i) (elem K.circ i)) (List.range N)
  let f ← fwdR2 p K.tw (y ++ List.replicate (M - N) cZero) h.s M K.ifswap
  let z ← mapDraw (fun i => cmul p (elem f.x i) (elem h.x i)) (List.range M)
  let g ← invR2 p K.tw z f.s M K.ifswap
  let x ← mapDraw (fun i => bsdiv P (elem g.x i) (elem K.circ i)) (List.range N)
  pure { x := x, c0 := g.s, c1 := h.x, c2 := g.x, sched := g.sched }

end Sys2Proof.Machine
end

