-- ==== Sys2Proof/Machine/Ops.lean ====
section
/-! DEFINITION. The named operations over host memory (R50 to R56), the command latch (R41) and the kernel context, and
the one completion operation, which is also the CORE's only error entry (R241, R245). -/

namespace Sys2Proof.Machine

/-! Host memory. -/

/-- What an unlisted address of host memory reads as (log entry 2). -/
def unlistedByte : Byte := 0

/-- One byte of host memory. The list is searched as far as an address beyond `a`. -/
def readByte : Memory → Nat → Byte
  | [], _ => unlistedByte
  | (k, w) :: rest, a => if k = a then w else if a < k then unlistedByte else readByte rest a

/-- Put a byte before the rest of the list, or leave it out when it is what an unlisted address reads as. -/
def consByte (a : Nat) (v : Byte) (rest : Memory) : Memory :=
  if v = unlistedByte then rest else (a, v) :: rest

/-- Write one byte of host memory, keeping the canonical form. -/
def writeByte : Memory → Nat → Byte → Memory
  | [], a, v => consByte a v []
  | (k, w) :: rest, a, v =>
    if a < k then consByte a v ((k, w) :: rest)
    else if k = a then consByte a v rest
    else (k, w) :: writeByte rest a v

/-- Every address of the list is above `lo`. -/
def Memory.above (lo : Nat) (m : Memory) : Bool := m.all (fun c => decide (lo < c.1))

/-- The canonical form of host memory: addresses strictly rising and below 2^64, no entry equal to what an unlisted
address reads as. -/
def Memory.wf : Memory → Bool
  | [] => true
  | (k, w) :: rest =>
    decide (k < 2 ^ 64) && decide (w ≠ unlistedByte) && Memory.above k rest && Memory.wf rest

/-- `MemRead(a, n)` (R53): little-endian. -/
def memRead (m : Memory) (a : Nat) : Nat → Nat
  | 0 => 0
  | n + 1 => (readByte m a).toNat + 256 * memRead m (a + 1) n

/-- `MemWrite(a, n, v)` (R53): the `n` low bytes of `v`, little-endian. -/
def memWrite (m : Memory) (a : Nat) : Nat → Nat → Memory
  | 0, _ => m
  | n + 1, v => memWrite (writeByte m a (BitVec.ofNat 8 v)) (a + 1) n (v / 256)

/-- Store a list of bytes, the first at `a`. -/
def writeBytes (m : Memory) (a : Nat) : List Byte → Memory
  | [] => m
  | v :: rest => writeBytes (writeByte m a v) (a + 1) rest

/-- The `n` bytes from `a`, the first first. -/
def readBytes (m : Memory) (a n : Nat) : List Byte := (List.range n).map (fun j => readByte m (a + j))

/-- A value of `T` read from host memory, `f_T(MemRead(a, W))` (R55). -/
def readT (p : Prec) (m : Memory) (a : Nat) : FBits := BitVec.ofNat 64 (memRead m a (width p))

/-- A value of `T` written to host memory, `MemWrite(a, W, bits_T(v))` (R55). -/
def writeT (p : Prec) (m : Memory) (a : Nat) (v : FBits) : Memory := memWrite m a (width p) v.toNat

/-- `ReadC(b, i)` (R54, R56). -/
def readC (p : Prec) (m : Memory) (b i : Nat) : Cplx :=
  { re := readT p m (b + 2 * width p * i)
    im := readT p m (b + 2 * width p * i + width p) }

/-- `WriteC(b, i, z)` (R54, R56). -/
def writeC (p : Prec) (m : Memory) (b i : Nat) (z : Cplx) : Memory :=
  writeT p (writeT p m (b + 2 * width p * i) z.re) (b + 2 * width p * i + width p) z.im

/-- `ReadR(b, i)` (R56). -/
def readR (p : Prec) (m : Memory) (b i : Nat) : FBits := readT p m (b + width p * i)

/-- `WriteR(b, i, v)` (R56). -/
def writeR (p : Prec) (m : Memory) (b i : Nat) (v : FBits) : Memory := writeT p m (b + width p * i) v

/-- The bytes `[a, a + n)` take unspecified values, all of draw `d`, but for those the test `keep` spares
(R63, R66, R270). -/
def scramble (keep : Nat → Bool) (m : Memory) (d a n : Nat) : Memory :=
  (List.range n).foldl
    (fun m j => if keep (a + j) then m else writeByte m (a + j) (Config.unspecifiedByte d (a + j))) m

/-- No byte is spared. -/
def keepNone (_ : Nat) : Bool := false

/-! Registers and the latch. -/

/-- What acceptance captures for the value `v` (R23, R41), and host memory as of acceptance (R63). -/
def State.capture (s : State) (v : Word) : Latch :=
  { v := v, a0 := s.a0, a1 := s.a1, a2 := s.a2, a3 := s.a3, mem := s.mem }

/-- The latch of the command in flight (R41). In a state with none, which no completion step runs in, the operands are
those acceptance would capture there (R23). -/
def State.inFlight (s : State) : Latch := s.latch.getD (s.capture 0)

/-- Host memory as of acceptance, which every working array is taken from (R63). -/
def State.accepted (s : State) : Memory := s.inFlight.mem

/-- Acceptance of the value `v` written to `CMD` (R23): latch it with `A0..A3` and set `BUSY`, in one step. -/
def State.accept (s : State) (v : Word) : State :=
  { s with latch := some (s.capture v), status := { s.status with busy := true } }

/-- A protocol fault (R27): the write is dropped and `PF` is set. -/
def State.protocolFault (s : State) : State := { s with status := { s.status with pf := true } }

/-- Completion (R25, R26, R241): `ERR` takes the status code, `BUSY` drops and the latch empties.
With a code other than `OK` this is the CORE's analogue of trap entry, and it saves nothing else (R245). -/
def State.complete (s : State) (code : ErrCode) : State :=
  { s with status := { s.status with err := code, busy := false }, latch := none, dstRaced := false }

/-- One command's completion step (R241, R247): with `OK` its effect, with any other code no effect. -/
def conclude (s : State) (code : ErrCode) (effect : State → State) : Host.Outcome State Fault Refusal :=
  .next (((if code = .ok then effect s else s)).complete code)

/-- Host memory replaced. -/
def State.withMem (s : State) (m : Memory) : State := { s with mem := m }

/-- The scratch an engine operation leaves, and the draws it made (R38, R40). -/
def State.withScratch (s : State) (c : Caches) (sched : Sched) (draws : Nat) : State :=
  { s with caches := c, sched := sched, draws := draws }

/-- The draws made so far. -/
def State.withDraws (s : State) (draws : Nat) : State := { s with draws := draws }

/-- The kernel context replaced at once (R173). -/
def State.withKernel (s : State) (k : Kernel) : State := { s with kernel := k }

/-- `setKernel(kind, N, E, tw, circ)` of 43_kernel_commands.md, with `LOG2E = pwr2(E)` given as `l`:
`IFSWAP = (pwr2(E) mod 2 = 1)` (R175). -/
def mkKernel (kind : KernelKind) (N E l : Nat) (tw circ : List Cplx) : Kernel :=
  { kind := kind, n := N, e := E, ifswap := decide (l % 2 = 1), log2e := l, tw := tw, circ := circ }

/-- `CMAX` (R6). -/
def cmax (P : Params) : Nat := 2 ^ P.log2Cmax

end Sys2Proof.Machine
end

