-- ==== Sys2Proof/Machine/Operands.lean ====
section
/-! DEFINITION. Every operand form: sizes and bases from the latch (R80), buffer descriptors and their checks
(R57 to R61, R190), and the loads and stores of whole buffers (R56, R63). -/

namespace Sys2Proof.Machine

/-- `N` of CFG_R2 and CFG_BS: `sint64(A0)` (R80). -/
def kernelSize (l : Latch) : Int := l.a0.toInt

/-- `Δt` of FFTFREQ: `f_T` of `A2`, of which binary32 uses the low 32 bits (R80, D33). -/
def timeStep (P : Params) (l : Latch) : FBits := maskT P.prec l.a2

/-- A buffer descriptor (R57). -/
structure Desc where
  b : Nat
  n : Nat
  t : ElemType
  deriving DecidableEq, Repr

/-- `desc(base, count, t)` (R190). -/
def desc (base count : Word) (t : ElemType) : Desc := { b := base.toNat, n := count.toNat, t := t }

/-- `sz(t)` (R52, R57). -/
def elemSize (p : Prec) : ElemType → Nat
  | .complex => 2 * width p
  | .real => width p

/-- The bytes of a descriptor's extent. -/
def Desc.size (p : Prec) (d : Desc) : Nat := d.n * elemSize p d.t

/-- The bytes of a descriptor's extent that exist: none lies past address 2^64 - 1 (R50, R57; log entry 17). -/
def Desc.sizeInSpace (p : Prec) (d : Desc) : Nat := Nat.min (d.size p) (2 ^ 64 - d.b)

/-- An address lies in a descriptor's extent `[b, b + n·sz(t))` (R57). -/
def Desc.covers (p : Prec) (d : Desc) (a : Nat) : Bool := decide (d.b ≤ a) && decide (a < d.b + d.size p)

/-- Two byte ranges meet. -/
def rangesMeet (a n b m : Nat) : Bool :=
  decide (0 < n) && decide (0 < m) && decide (a < b + m) && decide (b < a + n)

/-- `hostAdmits(a, n)` (R51): the bytes lie in one of the platform's ranges, and none is in the register block. -/
def hostAdmits (P : Params) (a n : Nat) : Bool :=
  P.admitted.any (fun r => decide (r.base ≤ a) && decide (a + n ≤ r.base + r.size)) &&
    !rangesMeet a n P.ubase.toNat blockSize

/-- The alignment check fails (R58, R59). -/
def misaligned (P : Params) (d : Desc) : Bool := decide (0 < d.n) && decide (d.b % width P.prec ≠ 0)

/-- The range check fails (R58, R60). -/
def unaddressable (P : Params) (d : Desc) : Bool :=
  decide (0 < d.n) && (decide (2 ^ 64 < d.b + d.size P.prec) || !hostAdmits P d.b (d.size P.prec))

/-- `overlaps(d1, d2)` (R61, R190). -/
def overlaps (P : Params) (d1 d2 : Desc) : Bool :=
  decide (0 < d1.n) && decide (0 < d2.n) &&
    decide (d1.b < d2.b + d2.size P.prec) && decide (d2.b < d1.b + d1.size P.prec)

/-- The in-place buffer of FFT and IFFT: `desc(a0, a1, complex)` (R194, R195). -/
def inPlaceDesc (l : Latch) : Desc := desc l.a0 l.a1 .complex

/-- The first buffer of a command: `desc(a0, a1, t)` (R79). -/
def firstDesc (l : Latch) (t : ElemType) : Desc := desc l.a0 l.a1 t

/-- The second buffer of FFT_COPY, IFFT_COPY and FFTAMPL: `desc(a2, a3, complex)` (R79). -/
def secondDesc (l : Latch) : Desc := desc l.a2 l.a3 .complex

/-- `loadC(d)` (R190), of host memory as of acceptance (R63). -/
def loadC (s : State) (d : Desc) : List Cplx := (List.range d.n).map (readC s.params.prec s.accepted d.b)

/-- `loadR(d)` (R190), of host memory as of acceptance (R63). -/
def loadR (s : State) (d : Desc) : List FBits := (List.range d.n).map (readR s.params.prec s.accepted d.b)

/-- The transform's working array from a source of either type: real elements are promoted (R197). -/
def loadPromoted (s : State) (d : Desc) : List Cplx :=
  match d.t with
  | .complex => loadC s d
  | .real => (loadR s d).map promote

/-- `storeC(d, XB)` (R190): element by element through `WriteC` (R63). -/
def storeC (p : Prec) (m : Memory) (d : Desc) (xb : List Cplx) : Memory :=
  (List.range d.n).foldl (fun m i => writeC p m d.b i (xb.getD i cZero)) m

/-- A real buffer stored element by element through `WriteR` (R63). -/
def storeR (p : Prec) (m : Memory) (d : Desc) (xb : List FBits) : Memory :=
  (List.range d.n).foldl (fun m i => writeR p m d.b i (xb.getD i fZero)) m

/-- Write back the written extent of a command: its result `m`, or, after a host store to that extent while the command
was in flight, unspecified bytes (R63, R66 (4); log entry 5). -/
def State.writeBack (s : State) (d : Desc) (m : Memory) : State :=
  if s.dstRaced then
    (s.withMem (scramble keepNone s.mem s.draws d.b (d.size s.params.prec))).withDraws (s.draws + 1)
  else s.withMem m

/-- Write back a complex buffer. -/
def State.writeBackC (s : State) (d : Desc) (xb : List Cplx) : State :=
  s.writeBack d (storeC s.params.prec s.mem d xb)

/-- Write back a real buffer. -/
def State.writeBackR (s : State) (d : Desc) (xb : List FBits) : State :=
  s.writeBack d (storeR s.params.prec s.mem d xb)

/-- A descriptor with the part its command gives it: written, or read only (R62). -/
structure Buffer where
  d : Desc
  written : Bool
  deriving DecidableEq, Repr

/-- The buffers of a command (R62, R79). -/
def buffersOf (l : Latch) : Instr → List Buffer
  | .cfgR2 => []
  | .cfgBs => []
  | .release => []
  | .fft => [{ d := inPlaceDesc l, written := true }]
  | .ifft => [{ d := inPlaceDesc l, written := true }]
  | .fftCopyC => [{ d := firstDesc l .complex, written := false }, { d := secondDesc l, written := true }]
  | .fftCopyR => [{ d := firstDesc l .real, written := false }, { d := secondDesc l, written := true }]
  | .ifftCopyC => [{ d := firstDesc l .complex, written := false }, { d := secondDesc l, written := true }]
  | .ifftCopyR => [{ d := firstDesc l .real, written := false }, { d := secondDesc l, written := true }]
  | .fftshiftC => [{ d := firstDesc l .complex, written := true }]
  | .fftshiftR => [{ d := firstDesc l .real, written := true }]
  | .fftfreq => [{ d := firstDesc l .real, written := true }]
  | .fftampl => [{ d := firstDesc l .real, written := true }, { d := secondDesc l, written := false }]

/-- A descriptor the CORE may access: it passes R59 and R60 and is not empty (R51, R58). -/
def accessible (P : Params) (d : Desc) : Bool :=
  decide (0 < d.n) && !misaligned P d && !unaddressable P d

/-- The buffers of the command in flight, those that fail a check included: each has its extent (R57, R62). None when
none is in flight. -/
def State.buffersInFlight (s : State) : List Buffer :=
  match s.latch with
  | none => []
  | some l =>
    match decode l.v with
    | none => []
    | some i => buffersOf l i

/-- The buffers of the command in flight whose bytes the CORE may access (R51). -/
def State.accessibleInFlight (s : State) : List Buffer :=
  s.buffersInFlight.filter (fun b => accessible s.params b.d)

/-- An address lies in a written extent of the command in flight (R63, R66 (3), R270). -/
def State.inWrittenExtent (s : State) (a : Nat) : Bool :=
  s.buffersInFlight.any (fun b => b.written && b.d.covers s.params.prec a)

/-- An address lies in a read-only extent of the command in flight (R62, R270). -/
def State.inReadOnlyExtent (s : State) (a : Nat) : Bool :=
  s.buffersInFlight.any (fun b => !b.written && b.d.covers s.params.prec a)

end Sys2Proof.Machine
end

