-- ==== Sys2Proof/Machine/Flags.lean ====
section
/-! DEFINITION. The flag state: the words of STATUS, KINFO, FFTSIZE, EXTSIZE, HWCFG and ID (R24 to R33), and the status
code of every command, the first failing check in the order of R242. -/

namespace Sys2Proof.Machine

/-- The code of `STATUS.ERR` (R240). -/
def ErrCode.code : ErrCode → Nat
  | .ok => 0
  | .domainError => 1
  | .lengthMismatch => 2
  | .unsupported => 3
  | .noKernel => 4
  | .illegalCommand => 5
  | .alignError => 6
  | .addressError => 7
  | .overlapError => 8
  | .capacityError => 9

/-- The value of `KINFO.KIND` (R28). -/
def KernelKind.code : KernelKind → Nat
  | .none => 0
  | .radix2 => 1
  | .bluestein => 2

/-- The `STATUS` register (R24): `ERR` in bits 3..0, `BUSY` in bit 8, `PF` in bit 9. -/
def statusWord (s : State) : Word :=
  BitVec.ofNat 64 (s.status.err.code + s.status.busy.toNat * 2 ^ 8 + s.status.pf.toNat * 2 ^ 9)

/-- The `KINFO` register (R28): `KIND` in bits 1..0, `IFSWAP` in bit 2, `LOG2E` in bits 13..8. -/
def kinfoWord (s : State) : Word :=
  BitVec.ofNat 64 (s.kernel.kind.code + s.kernel.ifswap.toNat * 2 ^ 2 + s.kernel.log2e % 64 * 2 ^ 8)

/-- The `FFTSIZE` register (R29). -/
def fftsizeWord (s : State) : Word := BitVec.ofNat 64 s.kernel.n

/-- The `EXTSIZE` register (R30). -/
def extsizeWord (s : State) : Word := BitVec.ofNat 64 s.kernel.e

/-- The bit `HWCFG[0]` (R31). -/
def precBit : Prec → Nat
  | .binary32 => 0
  | .binary64 => 1

/-- The `HWCFG` register (R31): `PREC` in bit 0, `LOG2_CMAX` in bits 13..8. -/
def hwcfgWord (s : State) : Word :=
  BitVec.ofNat 64 (precBit s.params.prec + s.params.log2Cmax % 64 * 2 ^ 8)

/-- The `ID` register (R32). -/
def idWord : Word := 0x5344535000000007

/-! Status codes. -/

/-- The first failing check of a list in order (R242); `OK` when none fails. -/
def firstFailing : List (Bool × ErrCode) → ErrCode
  | [] => .ok
  | (failed, code) :: rest => if failed then code else firstFailing rest

/-- `checkDesc(d)` (R190): alignment, then range. -/
def descChecks (P : Params) (d : Desc) : List (Bool × ErrCode) :=
  [(misaligned P d, .alignError), (unaddressable P d, .addressError)]

/-- CFG_R2 (R170, R242): `N` is a positive power of two, and the engine fits. -/
def cfgR2Code (s : State) (l : Latch) : ErrCode :=
  let N := kernelSize l
  firstFailing
    [(!ispow2 N, .domainError),
      (decide ((cmax s.params : Int) < N), .capacityError)]

/-- The engine size `M` of a Bluestein kernel (R35, R171), exact. -/
def bluesteinSize (N : Nat) : Nat := clp2 (2 * (N - 1))

/-- CFG_BS (R171, R242): `N ≥ 3` is not a power of two, and the engine fits. -/
def cfgBsCode (s : State) (l : Latch) : ErrCode :=
  let N := kernelSize l
  firstFailing
    [(decide (N < 3) || ispow2 N, .domainError),
      (decide (cmax s.params < bluesteinSize N.toNat), .capacityError)]

/-- An in-place transform (R194, R195, R242); `inverse` adds the UNSUPPORTED check (R196). -/
def inPlaceCode (s : State) (l : Latch) (inverse : Bool) : ErrCode :=
  let x := inPlaceDesc l
  firstFailing
    ([(decide (s.kernel.kind = .none), .noKernel),
      (inverse && decide (s.kernel.kind = .bluestein), .unsupported)] ++
    descChecks s.params x ++
    [(decide (x.n ≠ s.kernel.n), .lengthMismatch)])

/-- A copy transform from a source of type `t` (R197, R198, R242); `inverse` adds the UNSUPPORTED check (R196). -/
def copyCode (s : State) (l : Latch) (t : ElemType) (inverse : Bool) : ErrCode :=
  let src := firstDesc l t
  let dst := secondDesc l
  firstFailing
    ([(decide (s.kernel.kind = .none), .noKernel),
      (inverse && decide (s.kernel.kind = .bluestein), .unsupported)] ++
    descChecks s.params src ++ descChecks s.params dst ++
    [(overlaps s.params src dst, .overlapError),
      (decide (src.n ≠ s.kernel.n) || decide (dst.n ≠ s.kernel.n), .lengthMismatch)])

/-- `ifft.copy.r` runs the inverse unless the instance calls the forward transform there (R198, R242 step 2). -/
def realIfftInverse (P : Params) : Bool := !P.realIfftCallsForward

/-- FFTSHIFT and FFTFREQ (R220, R221, R242): the one descriptor's checks. -/
def oneBufferCode (s : State) (l : Latch) (t : ElemType) : ErrCode :=
  firstFailing (descChecks s.params (firstDesc l t))

/-- FFTAMPL (R222, R242). -/
def amplCode (s : State) (l : Latch) : ErrCode :=
  let a := firstDesc l .real
  let sp := secondDesc l
  firstFailing
    (descChecks s.params a ++ descChecks s.params sp ++
    [(overlaps s.params a sp, .overlapError),
      (decide (sp.n < a.n), .lengthMismatch)])

/-- The status code a command completes with, from the state and its latched operands. -/
def statusCode (s : State) (l : Latch) : Instr → ErrCode
  | .cfgR2 => cfgR2Code s l
  | .cfgBs => cfgBsCode s l
  | .release => .ok
  | .fft => inPlaceCode s l false
  | .ifft => inPlaceCode s l true
  | .fftCopyC => copyCode s l .complex false
  | .fftCopyR => copyCode s l .real false
  | .ifftCopyC => copyCode s l .complex true
  | .ifftCopyR => copyCode s l .real (realIfftInverse s.params)
  | .fftshiftC => oneBufferCode s l .complex
  | .fftshiftR => oneBufferCode s l .real
  | .fftfreq => oneBufferCode s l .real
  | .fftampl => amplCode s l

end Sys2Proof.Machine
end

