-- ==== Sys2Proof/Machine/KernelCmds.lean ====
section
/-! DEFINITION. The kernel commands CFG_R2, CFG_BS and RELEASE (R170 to R176). -/

namespace Sys2Proof.Machine

/-- A new kernel context, whose `LOG2E` is `pwr2(E)` (R170, R171); `pwr2` does not fail on `E ≥ 1` (R175). -/
def configure (kind : KernelKind) (N E : Nat) (circ : List Cplx) (s : State) : State :=
  let r := runDraw (twgen s.params (E / 2)) s.draws
  (s.withKernel (mkKernel kind N E ((pwr2 (E : Int)).toOption.getD 0) r.1 circ)).withDraws r.2

/-- The effect of CFG_R2 with status `OK` (R170): the chirp table is unspecified, so absent. -/
def cfgR2Effect (l : Latch) (s : State) : State :=
  let N := (kernelSize l).toNat
  configure .radix2 N N [] s

/-- `cfg.r2` (R170). -/
def execCfgR2 (s : State) : Host.Outcome State Fault Refusal :=
  conclude s (cfgR2Code s s.inFlight) (cfgR2Effect s.inFlight)

/-- The effect of CFG_BS with status `OK` (R171). -/
def cfgBsEffect (l : Latch) (s : State) : State :=
  let N := (kernelSize l).toNat
  let M := bluesteinSize N
  configure .bluestein N M (chgen s.params N M) s

/-- `cfg.bs` (R171). -/
def execCfgBs (s : State) : Host.Outcome State Fault Refusal :=
  conclude s (cfgBsCode s s.inFlight) (cfgBsEffect s.inFlight)

/-- The effect of RELEASE (R172): no kernel, and tables and caches with no specified element. -/
def releaseEffect (s : State) : State := { s with kernel := Kernel.absent, caches := Caches.unwritten }

/-- `release` (R172). -/
def execRelease (s : State) : Host.Outcome State Fault Refusal :=
  conclude s .ok releaseEffect

end Sys2Proof.Machine
end

