-- ==== Sys2Proof/Machine/Spectrum.lean ====
section
/-! DEFINITION. The spectrum commands FFTSHIFT, FFTFREQ and FFTAMPL (R220 to R225); none reads or writes the kernel. -/

namespace Sys2Proof.Machine

/-- The rotator's array (R220): the element at index `i` moves to `(i + ⌊L/2⌋) mod L`, as bits. -/
def shiftArray {α : Type} (sb : List α) : List α :=
  (List.range sb.length).foldl
    (fun xb i =>
      match sb[i]? with
      | some v => xb.set ((i + sb.length / 2) % sb.length) v
      | none => xb) sb

/-- The effect of FFTSHIFT with status `OK` on a buffer of either type (R220). -/
def shiftEffect (d : Desc) (s : State) : State :=
  if d.n = 0 then s
  else
    match d.t with
    | .complex => s.writeBackC d (shiftArray (loadC s d))
    | .real => s.writeBackR d (shiftArray (loadR s d))

/-- FFTSHIFT of a buffer of type `t` (R220). -/
def runShift (t : ElemType) (s : State) : Host.Outcome State Fault Refusal :=
  let l := s.inFlight
  conclude s (oneBufferCode s l t) (shiftEffect (firstDesc l t))

/-- `fftshift.c` (R220). -/
def execFftshiftC (s : State) : Host.Outcome State Fault Refusal := runShift .complex s

/-- `fftshift.r` (R220). -/
def execFftshiftR (s : State) : Host.Outcome State Fault Refusal := runShift .real s

/-- The integer whose `toT` grid element `i` of `L` multiplies `df` by (R221). -/
def gridIndex (L i : Nat) : Int := if i ≤ (L - 1) / 2 then (i : Int) else (i : Int) - (L : Int)

/-- The frequency grid of `L ≥ 1` elements (R221): `df = fdiv(1, fmul(dt, toT(L)))`, element `i` one product. -/
def freqGrid (p : Prec) (L : Nat) (dt : FBits) : Draw (List FBits) := do
  let span ← fmul p dt (toT p (L : Int))
  let df ← fdiv p (fOne p) span
  mapDraw (fun i => fmul p df (toT p (gridIndex L i))) (List.range L)

/-- The effect of FFTFREQ with status `OK` (R221). -/
def freqEffect (d : Desc) (dt : FBits) (s : State) : State :=
  if d.n = 0 then s
  else
    let r := runDraw (freqGrid s.params.prec d.n dt) s.draws
    (s.withDraws r.2).writeBackR d r.1

/-- `fftfreq` (R221). -/
def execFftfreq (s : State) : Host.Outcome State Fault Refusal :=
  let l := s.inFlight
  conclude s (oneBufferCode s l .real) (freqEffect (firstDesc l .real) (timeStep s.params l))

/-- The amplitudes (R222): `apy2` of each spectrum element over `toT(⌊L/2⌋)`. -/
def amplitudes (p : Prec) (L : Nat) (spec : List Cplx) : Draw (List FBits) :=
  mapDraw (fun z => do
    let m ← apy2c p z
    fdiv p m (toT p ((L / 2 : Nat) : Int))) spec

/-- The effect of FFTAMPL with status `OK` (R222): only `spec[0 .. L-1]` is read. -/
def amplEffect (a sp : Desc) (s : State) : State :=
  if a.n = 0 then s
  else
    let r := runDraw (amplitudes s.params.prec a.n (loadC s { sp with n := a.n })) s.draws
    (s.withDraws r.2).writeBackR a r.1

/-- `fftampl` (R222). -/
def execFftampl (s : State) : Host.Outcome State Fault Refusal :=
  let l := s.inFlight
  conclude s (amplCode s l) (amplEffect (firstDesc l .real) (secondDesc l))

end Sys2Proof.Machine
end

