-- ==== Sys2Proof/Machine/Transform.lean ====
section
/-! DEFINITION. The transform commands FFT, IFFT, FFT_COPY and IFFT_COPY (R190 to R200). -/

namespace Sys2Proof.Machine

/-- The state after an engine operation that used `C0` alone. -/
def State.afterEngine (s : State) (r : EngineOut × Nat) : State :=
  s.withScratch { s.caches with c0 := cacheStore r.1.s s.caches.c0 } r.1.sched r.2

/-- The forward transform of a radix-2 kernel: `FWD_R2(XB, C0, N, IFSWAP)` (R190). -/
def radix2Fwd (s : State) (xb : List Cplx) : List Cplx × State :=
  let K := s.kernel
  let r := runDraw (fwdR2 s.params.prec K.tw xb (cacheView K.n s.caches.c0) K.n K.ifswap) s.draws
  (r.1.x, s.afterEngine r)

/-- The state after the Bluestein convolver, which used `C0`, `C1` and `C2`. -/
def State.afterConvolver (s : State) (r : ConvolverOut × Nat) : State :=
  let c := s.caches
  s.withScratch
    { c0 := cacheStore r.1.c0 c.c0, c1 := cacheStore r.1.c1 c.c1, c2 := cacheStore r.1.c2 c.c2 }
    r.1.sched r.2

/-- The forward transform of a Bluestein kernel: `BS_FWD(XB)` (R190, R191). -/
def bluesteinFwd (s : State) (xb : List Cplx) : List Cplx × State :=
  let K := s.kernel
  let r := runDraw (bsFwd s.params K xb (cacheView K.e s.caches.c0)) s.draws
  (r.1.x, s.afterConvolver r)

/-- `engineFwd(XB)` (R190): the transformed array, and the state with the scratch and draws of the run. -/
def engineFwd (s : State) (xb : List Cplx) : List Cplx × State :=
  match s.kernel.kind with
  | .radix2 | .none => radix2Fwd s xb
  | .bluestein => bluesteinFwd s xb

/-- `engineInv(XB)` (R190), only for a radix-2 kernel: `INV_R2(XB, C0, N, IFSWAP)`. -/
def engineInv (s : State) (xb : List Cplx) : List Cplx × State :=
  let K := s.kernel
  let r := runDraw (invR2 s.params.prec K.tw xb (cacheView K.n s.caches.c0) K.n K.ifswap) s.draws
  (r.1.x, s.afterEngine r)

/-- The engine run a transform makes: `engineInv` for an inverse, `engineFwd` otherwise. -/
def engine (inverse : Bool) (s : State) (xb : List Cplx) : List Cplx × State :=
  if inverse then engineInv s xb else engineFwd s xb

/-- The effect of a transform with status `OK`: load the source, run the engine, write the destination back
(R194, R195, R197, R198). -/
def transformEffect (inverse : Bool) (src dst : Desc) (s : State) : State :=
  let r := engine inverse s (loadPromoted s src)
  r.2.writeBackC dst r.1

/-- An in-place transform. -/
def runInPlace (inverse : Bool) (s : State) : Host.Outcome State Fault Refusal :=
  let l := s.inFlight
  conclude s (inPlaceCode s l inverse) (transformEffect inverse (inPlaceDesc l) (inPlaceDesc l))

/-- A copy transform from a source of type `t`. -/
def runCopy (t : ElemType) (inverse : Bool) (s : State) : Host.Outcome State Fault Refusal :=
  let l := s.inFlight
  conclude s (copyCode s l t inverse) (transformEffect inverse (firstDesc l t) (secondDesc l))

/-- `fft` (R194). -/
def execFft (s : State) : Host.Outcome State Fault Refusal := runInPlace false s

/-- `ifft` (R195). -/
def execIfft (s : State) : Host.Outcome State Fault Refusal := runInPlace true s

/-- `fft.copy.c` (R197). -/
def execFftCopyC (s : State) : Host.Outcome State Fault Refusal := runCopy .complex false s

/-- `fft.copy.r` (R197). -/
def execFftCopyR (s : State) : Host.Outcome State Fault Refusal := runCopy .real false s

/-- `ifft.copy.c` (R198), never redirected. -/
def execIfftCopyC (s : State) : Host.Outcome State Fault Refusal := runCopy .complex true s

/-- `ifft.copy.r` (R198): with `realIfftCallsForward` exactly `fft.copy.r`, else the inverse of the promoted source. -/
def execIfftCopyR (s : State) : Host.Outcome State Fault Refusal := runCopy .real (realIfftInverse s.params) s

end Sys2Proof.Machine
end

