-- ==== Sys2Proof/Machine/Dispatch.lean ====
section
/-! DEFINITION. The completion step of each command: one arm a constructor (R65, R79). -/

namespace Sys2Proof.Machine

def exec (i : Instr) (s : State) : Host.Outcome State Fault Refusal :=
  match i with
  | .cfgR2 => Sys2Proof.Machine.execCfgR2 s
  | .cfgBs => Sys2Proof.Machine.execCfgBs s
  | .release => Sys2Proof.Machine.execRelease s
  | .fft => Sys2Proof.Machine.execFft s
  | .ifft => Sys2Proof.Machine.execIfft s
  | .fftCopyC => Sys2Proof.Machine.execFftCopyC s
  | .fftCopyR => Sys2Proof.Machine.execFftCopyR s
  | .ifftCopyC => Sys2Proof.Machine.execIfftCopyC s
  | .ifftCopyR => Sys2Proof.Machine.execIfftCopyR s
  | .fftshiftC => Sys2Proof.Machine.execFftshiftC s
  | .fftshiftR => Sys2Proof.Machine.execFftshiftR s
  | .fftfreq => Sys2Proof.Machine.execFftfreq s
  | .fftampl => Sys2Proof.Machine.execFftampl s

end Sys2Proof.Machine
end

