-- ==== Sys2Proof/Machine/HostBus.lean ====
section
/-! DEFINITION. The host agent (R20): its accesses to the register block (R22 to R33, R75, R77) and to host memory
(R50, R66), the pseudo-instructions (R86), the expansion of assembler lines and library calls (R84, R85, R87), and the
platform's reset (R270, R271). -/

namespace Sys2Proof.Machine

/-- The registers of the block (R75). -/
inductive Reg where
  | cmd
  | a0
  | a1
  | a2
  | a3
  | status
  | kinfo
  | fftsize
  | extsize
  | hwcfg
  | id
  | reserved
  deriving DecidableEq, Repr

/-- The register at an 8-byte aligned offset of the block (R75). -/
def regAt (off : Nat) : Reg :=
  if off = 0x00 then .cmd
  else if off = 0x08 then .a0
  else if off = 0x10 then .a1
  else if off = 0x18 then .a2
  else if off = 0x20 then .a3
  else if off = 0x28 then .status
  else if off = 0x30 then .kinfo
  else if off = 0x38 then .fftsize
  else if off = 0x40 then .extsize
  else if off = 0x48 then .hwcfg
  else if off = 0x50 then .id
  else .reserved

/-- What a host read of a register returns; it has no effect (R22 to R33). -/
def readReg (s : State) : Reg → Word
  | .cmd => 0
  | .a0 => s.a0
  | .a1 => s.a1
  | .a2 => s.a2
  | .a3 => s.a3
  | .status => statusWord s
  | .kinfo => kinfoWord s
  | .fftsize => fftsizeWord s
  | .extsize => extsizeWord s
  | .hwcfg => hwcfgWord s
  | .id => idWord
  | .reserved => 0

/-- A host write to `CMD` or `A0..A3` takes effect only while `BUSY = 0`; else it is dropped and sets `PF`
(R22, R23, R27). -/
def whenIdle (s : State) (effect : State) : State := if s.status.busy then s.protocolFault else effect

/-- A host write of a register: writes to read-only and reserved registers are ignored (R24, R28 to R33). -/
def writeReg (s : State) (v : Word) : Reg → State
  | .cmd => whenIdle s (s.accept v)
  | .a0 => whenIdle s { s with a0 := v }
  | .a1 => whenIdle s { s with a1 := v }
  | .a2 => whenIdle s { s with a2 := v }
  | .a3 => whenIdle s { s with a3 := v }
  | .status => s
  | .kinfo => s
  | .fftsize => s
  | .extsize => s
  | .hwcfg => s
  | .id => s
  | .reserved => s

/-- Where an access of `n` bytes at `a` goes. -/
inductive Target where
  /-- An aligned 64-bit access to the register at this offset (R77). -/
  | register (off : Nat)
  /-- Any other access that meets the register block (R77). -/
  | malformed
  /-- Host memory (R50). -/
  | memory
  /-- Bytes past address 2^64 - 1, which do not exist (R50). -/
  | beyond
  deriving DecidableEq, Repr

/-- Route a host access (R50, R71, R77). -/
def route (P : Params) (a n : Nat) : Target :=
  let u := P.ubase.toNat
  if 2 ^ 64 < a + n then .beyond
  else if rangesMeet a n u blockSize then
    if n = 8 ∧ u ≤ a ∧ (a - u) % 8 = 0 ∧ a + 8 ≤ u + blockSize then .register (a - u) else .malformed
  else .memory

/-- The value of bytes in little-endian order (R53). -/
def leValue : List Byte → Nat
  | [] => 0
  | b :: rest => b.toNat + 256 * leValue rest

/-- The `n` low bytes of a value in little-endian order (R53). -/
def leBytes : Nat → Nat → List Byte
  | 0, _ => []
  | n + 1, v => BitVec.ofNat 8 v :: leBytes n (v / 256)

/-- The buffers of the command in flight whose extents a host store of `n` bytes at `a` meets (R66 (4)). -/
def State.racedBuffers (s : State) (a n : Nat) : List Buffer :=
  s.buffersInFlight.filter (fun b => rangesMeet a n b.d.b (b.d.size s.params.prec))

/-- The bytes of every listed extent, as far as they exist, take unspecified values, all of draw `d`, but for those `keep` spares
(R66 (4), R270). -/
def scrambleAll (keep : Nat → Bool) (p : Prec) (d : Nat) (m : Memory) (bs : List Buffer) : Memory :=
  bs.foldl (fun m b => scramble keep m d b.d.b (b.d.sizeInSpace p)) m

/-- A host store to host memory. A store to an extent of the command in flight is a race: every byte of that extent, and
of no other, is then unspecified; the written extent stays so at completion (R66 (4); log entry 5). -/
def hostMemStore (s : State) (a : Nat) (bytes : List Byte) : State :=
  let m := writeBytes s.mem a bytes
  match s.racedBuffers a bytes.length with
  | [] => s.withMem m
  | bs =>
    { s with
      mem := scrambleAll keepNone s.params.prec s.draws m bs
      dstRaced := s.dstRaced || bs.any (fun b => b.written)
      draws := s.draws + 1 }

/-- What the host's load of one byte returns: an unspecified byte in a written extent of the command in flight
(R63, R66 (3)). -/
def hostByte (s : State) (a : Nat) : Byte :=
  if s.inWrittenExtent a then Config.unspecifiedByte s.draws a else readByte s.mem a

/-- Record what a load returned. -/
def State.recordLoad (s : State) (bytes : List Byte) : State :=
  { s with host := { s.host with reads := bytes :: s.host.reads } }

/-- A host load of `n` bytes of host memory. While a command is in flight it makes one draw. -/
def hostMemLoad (s : State) (a n : Nat) : State :=
  let s' := s.recordLoad ((List.range n).map (fun j => hostByte s (a + j)))
  if s.latch.isSome then s'.withDraws (s.draws + 1) else s'

/-- A host store (R20, R77). -/
def hostStore (s : State) (addr : Word) (bytes : List Byte) : Host.Outcome State Fault Refusal :=
  match route s.params addr.toNat bytes.length with
  | .register off => .next (writeReg s (BitVec.ofNat 64 (leValue bytes)) (regAt off))
  | .malformed => .refused .malformedRegisterAccess
  | .memory => .next (hostMemStore s addr.toNat bytes)
  | .beyond => .fault .hostAccessBeyondAddressSpace

/-- A host load (R20, R77). -/
def hostLoad (s : State) (addr : Word) (n : Nat) : Host.Outcome State Fault Refusal :=
  match route s.params addr.toNat n with
  | .register off => .next (s.recordLoad (leBytes 8 (readReg s (regAt off)).toNat))
  | .malformed => .refused .malformedRegisterAccess
  | .memory => .next (hostMemLoad s addr.toNat n)
  | .beyond => .fault .hostAccessBeyondAddressSpace

/-- The host's remaining program. -/
def State.withProgram (s : State) (program : List HostAct) : State :=
  { s with host := { s.host with program := program } }

/-- `check` stops the host program (R86). -/
def State.stopHost (s : State) : State := { s with host := { s.host with stopped := true } }

/-- The host's next action. `wait` reads `STATUS` and stays while `BUSY = 1`; `check` waits, then stops the host when
`STATUS.ERR ≠ 0` or `STATUS.PF = 1` (R86). -/
def hostAct (s : State) : Host.Outcome State Fault Refusal :=
  if s.host.stopped then .next s
  else
    match s.host.program with
    | [] => .next s
    | .store addr bytes :: rest => hostStore (s.withProgram rest) addr bytes
    | .load addr n :: rest => hostLoad (s.withProgram rest) addr n
    | .wait :: rest => if s.status.busy then .next s else .next (s.withProgram rest)
    | .check :: rest =>
      if s.status.busy then .next s
      else if s.status.err ≠ .ok ∨ s.status.pf = true then .next (s.withProgram rest).stopHost
      else .next (s.withProgram rest)

/-! Reset. -/

/-- The buffers the command in flight writes (R62, R270). -/
def State.writtenBuffers (s : State) : List Buffer := s.buffersInFlight.filter (fun b => b.written)

/-- The platform's reset (R270, R271): the CORE's state is that of reset; host memory is unchanged, except that the
written extents of an abandoned command are unspecified where they hold no byte of a read-only extent. The host and the
schedule are not the CORE's (log entry 21). -/
def platformReset (s : State) : State :=
  { State.resetOf s.params with
    mem := scrambleAll s.inReadOnlyExtent s.params.prec s.draws s.mem s.writtenBuffers
    draws := s.draws + 1
    host := s.host
    agenda := s.agenda }

/-! Assembler lines (R84, R85) and the source's library calls (R87). -/

/-- A host write of a register (R75): an aligned 64-bit little-endian store. -/
def regStore (P : Params) (off : Nat) (v : Word) : HostAct :=
  .store (P.ubase + BitVec.ofNat 64 off) (leBytes 8 v.toNat)

/-- The operand writes of a line, `A0` first (R85). -/
def operandStores (P : Params) : Nat → List Word → List HostAct
  | _, [] => []
  | off, v :: rest => regStore P off v :: operandStores P (off + 8) rest

/-- The expansion of a command line (R85): the operands given, then `CMD`, then `wait`. -/
def expandLine (P : Params) (l : Line) : List HostAct :=
  operandStores P 0x08 l.operands ++ [regStore P 0x00 (encode l.instr), .wait]

/-- The source's library calls (R87), with the buffers and lengths the host has allocated. -/
inductive LibCall where
  | newRadix2 (n : Word)
  | newNonRadix2 (n : Word)
  | destroy
  | fftInPlace (x len : Word)
  | ifftInPlace (x len : Word)
  | fftCopy (t : ElemType) (x len out n : Word)
  | ifftCopy (t : ElemType) (x len out n : Word)
  | fftshift (t : ElemType) (x len : Word)
  | fftfreq (dest n dt : Word)
  | fftampl (ampl n spec m : Word)
  deriving DecidableEq, Repr

/-- The command line of a library call (R87). -/
def LibCall.line : LibCall → Line
  | .newRadix2 n => { instr := .cfgR2, operands := [n] }
  | .newNonRadix2 n => { instr := .cfgBs, operands := [n] }
  | .destroy => { instr := .release, operands := [] }
  | .fftInPlace x len => { instr := .fft, operands := [x, len] }
  | .ifftInPlace x len => { instr := .ifft, operands := [x, len] }
  | .fftCopy .complex x len out n => { instr := .fftCopyC, operands := [x, len, out, n] }
  | .fftCopy .real x len out n => { instr := .fftCopyR, operands := [x, len, out, n] }
  | .ifftCopy .complex x len out n => { instr := .ifftCopyC, operands := [x, len, out, n] }
  | .ifftCopy .real x len out n => { instr := .ifftCopyR, operands := [x, len, out, n] }
  | .fftshift .complex x len => { instr := .fftshiftC, operands := [x, len] }
  | .fftshift .real x len => { instr := .fftshiftR, operands := [x, len] }
  | .fftfreq dest n dt => { instr := .fftfreq, operands := [dest, n, dt] }
  | .fftampl ampl n spec m => { instr := .fftampl, operands := [ampl, n, spec, m] }

end Sys2Proof.Machine
end

