-- ==== Sys2Proof/Machine/Step.lean ====
section
/-! DEFINITION. One step of the machine: the agent the schedule names acts (R20, R65, R270; log entry 4). -/

namespace Sys2Proof.Machine

/-- The CORE's step: the completion of the command in flight (R65), an illegal one included (R81); with none in flight the
CORE is idle (R253). -/
def coreStep (s : State) : Host.Outcome State Fault Refusal :=
  match s.latch with
  | none => .next s
  | some l =>
    match decode l.v with
    | some i => exec i s
    | none => conclude s .illegalCommand (fun s => s)

/-- The agent that takes the next step: the schedule's, and when the schedule is empty the CORE while a command is in
flight (R278: its completion step is always eventually taken) and the host otherwise. -/
def State.nextAgent (s : State) : Agent :=
  match s.agenda with
  | a :: _ => a
  | [] => if s.status.busy then .core else .host

/-- The state as the next agent finds it: the schedule without its first entry. -/
def State.tick (s : State) : State := { s with agenda := s.agenda.tail }

/-- One step. -/
def step (s : State) : Host.Outcome State Fault Refusal :=
  match s.nextAgent with
  | .host => hostAct s.tick
  | .core => coreStep s.tick
  | .platform => .next (platformReset s.tick)

/-- `s` with the command value `w` latched, as its acceptance leaves it, and the CORE to move: the CORE fetches no
instructions (R69), and the command latch is where its step finds the command (log entry 3). -/
def State.withFetchWord (s : State) (nbits w : Nat) : State :=
  { s.accept (BitVec.ofNat 64 (w % 2 ^ nbits)) with
    agenda := if s.agenda.isEmpty then [] else .core :: s.agenda }

end Sys2Proof.Machine
end

