-- ==== Sys2Proof/Relations.lean ====
section
/-! DEFINITION. The spec's formulas as relations, for statements: what a result of an operation that may draw NaNs is, what
correct rounding is, and the complex operations, passes, engine operations and convolver written out over the
floating-point operations of R102. Nothing of the machine is defined by these. -/

namespace Sys2Proof.Machine

/-- `v` is what `x` gives, at some count of draws. -/
def Gives {α : Type} (x : Draw α) (v : α) : Prop := ∃ d : Nat, (runDraw x d).1 = v

/-! Rounding (R101, R104). -/

/-- Twice the midpoint between the largest finite value and the next power of two, in units of the smallest subnormal:
from half of it on a magnitude rounds to infinity. -/
def overflowUnits (p : Prec) : Nat := (2 ^ (fracBits p + 2) - 1) * 2 ^ (expMax p - 2)

/-- `v` is the real number `e` (in units of the smallest subnormal) rounded to nearest, ties to even: an infinity of its
sign from the overflow midpoint on, and below it a finite value to which no other is nearer, with an even fraction if
another is as near. -/
def IsRounded (p : Prec) (v : FBits) (e : ℝ) : Prop :=
  ((overflowUnits p : ℝ) ≤ 2 * |e| → ∃ s, unpack p v = .inf s ∧ (s = true ↔ e < 0)) ∧
  (2 * |e| < (overflowUnits p : ℝ) → ∃ s, unpack p v = .fin s (unitsOf p (magOf p v)) ∧
    ∀ (t : Bool) (m : Nat), m < infMag p →
      let V : ℝ := signed s (unitsOf p (magOf p v))
      let W : ℝ := signed t (unitsOf p m)
      |V - e| ≤ |W - e| ∧ (W ≠ V → |V - e| = |W - e| → magOf p v % 2 = 0))

/-- No working precision of the model decides the rounding of the function at `π·a/b` (log entry 9). -/
def Undecided (p : Prec) (f : TrigFn) (a b : Nat) : Prop :=
  ∀ k, k < 8 → enclRound p (128 * 2 ^ k) (enclTrig f (128 * 2 ^ k) a b) = none

/-! Complex arithmetic (R109 to R113, R192). -/

/-- R109. -/
def IsCadd (p : Prec) (a b z : Cplx) : Prop := Gives (fadd p a.re b.re) z.re ∧ Gives (fadd p a.im b.im) z.im

/-- R110. -/
def IsCsub (p : Prec) (a b z : Cplx) : Prop := Gives (fsub p a.re b.re) z.re ∧ Gives (fsub p a.im b.im) z.im

/-- R111: four products, one difference and one sum, each rounded. -/
def IsCmul (p : Prec) (a b z : Cplx) : Prop :=
  (∃ rr ii, Gives (fmul p a.re b.re) rr ∧ Gives (fmul p a.im b.im) ii ∧ Gives (fsub p rr ii) z.re) ∧
  (∃ ri ir, Gives (fmul p a.re b.im) ri ∧ Gives (fmul p a.im b.re) ir ∧ Gives (fadd p ri ir) z.im)

/-- R112. -/
def IsConj (p : Prec) (a z : Cplx) : Prop := z.re = a.re ∧ z.im = fneg p a.im

/-- R113. -/
def IsCdivr (p : Prec) (a : Cplx) (d : FBits) (z : Cplx) : Prop := Gives (fdiv p a.re d) z.re ∧ Gives (fdiv p a.im d) z.im

/-- R192: the product with the conjugate, or the instance's own division (log entry 23). -/
def IsBsdiv (P : Params) (x c z : Cplx) : Prop :=
  match P.bsDivMode with
  | .mulConj => ∃ k, IsConj P.prec c k ∧ IsCmul P.prec x k z
  | .divide => z = maskC P.prec (Config.cdivT P.prec x c)

/-- The last line of R122: `w · √(1 + (z/w)²)`, each operation rounded. -/
def IsHypot (p : Prec) (w z v : FBits) : Prop :=
  ∃ q qq one r, Gives (fdiv p z w) q ∧ Gives (fmul p q q) qq ∧ Gives (fadd p (fOne p) qq) one ∧
    Gives (fsqrt p one) r ∧ Gives (fmul p w r) v

/-! The engine (R150 to R159, R190, R191). -/

/-- The butterfly of `a` and `b` with the twiddle `w` gives `u` and `v` (R150). -/
def IsButterfly (p : Prec) (w a b u v : Cplx) : Prop :=
  IsCadd p a b u ∧ ∃ diff, IsCsub p a b diff ∧ IsCmul p diff w v

/-- One pass of R155 from `x` into `y`: the butterflies of its `pd` calls of `ns` pairs. -/
def IsPass (p : Prec) (tw x y : List Cplx) (hs ns pd : Nat) : Prop :=
  y.length = 2 * hs ∧ ∀ si k, si < pd → k < ns →
    IsButterfly p (elem tw (k * pd)) (elem x (si + k * pd)) (elem x (si + k * pd + hs))
      (elem y (si + k * (2 * pd))) (elem y (si + k * (2 * pd) + pd))

/-- `A 0`, `A 1`, … are the arrays of the passes of size `2^q`, with `(ns, pd) = (hs/2^j, 2^j)` in pass `j` (R156). -/
def ArePasses (p : Prec) (tw : List Cplx) (q : Nat) (A : Nat → List Cplx) : Prop :=
  ∀ j, j < q → IsPass p tw (A j) (A (j + 1)) (2 ^ (q - 1)) (2 ^ (q - 1 - j)) (2 ^ j)

/-- R158: `y` is the forward transform of size `2^q` of `x`. -/
def IsFwd (p : Prec) (tw : List Cplx) (q : Nat) (x y : List Cplx) : Prop :=
  ∃ A, A 0 = x ∧ A q = y ∧ ArePasses p tw q A

/-- R159: `y` is the inverse transform of size `2^q` of `x`: conjugates, passes, conjugates divided by `toT(2^q)`. -/
def IsInv (p : Prec) (tw : List Cplx) (q : Nat) (x y : List Cplx) : Prop :=
  ∃ c r : List Cplx, c.length = 2 ^ q ∧ (∀ i, i < 2 ^ q → IsConj p (elem x i) (elem c i)) ∧ IsFwd p tw q c r ∧
    y.length = 2 ^ q ∧
    ∀ i, i < 2 ^ q → ∃ k, IsConj p (elem r i) k ∧ IsCdivr p k (toT p ((2 ^ q : Nat) : Int)) (elem y i)

/-- R191: `out` is the Bluestein transform of `xb` by kernel `K`. -/
def IsBsFwd (P : Params) (K : Kernel) (xb out : List Cplx) : Prop :=
  let p := P.prec
  ∃ h y f z g : List Cplx,
    IsFwd p K.tw K.log2e K.circ h ∧
    y.length = K.e ∧ (∀ i, i < K.n → IsBsdiv P (elem xb i) (elem K.circ i) (elem y i)) ∧
    (∀ i, K.n ≤ i → i < K.e → elem y i = { re := 0, im := 0 }) ∧
    IsFwd p K.tw K.log2e y f ∧
    z.length = K.e ∧ (∀ i, i < K.e → IsCmul p (elem f i) (elem h i) (elem z i)) ∧
    IsInv p K.tw K.log2e z g ∧
    out.length = K.n ∧ ∀ i, i < K.n → IsBsdiv P (elem g i) (elem K.circ i) (elem out i)

/-- `engineFwd` and `engineInv` of R190, chosen by `KIND`; there is no inverse of a Bluestein kernel. -/
def IsEngine (P : Params) (K : Kernel) (inverse : Bool) (x y : List Cplx) : Prop :=
  match K.kind, inverse with
  | .radix2, false => IsFwd P.prec K.tw K.log2e x y
  | .radix2, true => IsInv P.prec K.tw K.log2e x y
  | .bluestein, false => IsBsFwd P K x y
  | .bluestein, true => False
  | .none, _ => False

/-- Element `i` of a source buffer in memory `m`, a real one promoted (R56, R197). -/
def sourceElem (p : Prec) (m : Memory) (d : Desc) (i : Nat) : Cplx :=
  match d.t with
  | .complex =>
    { re := BitVec.ofNat 64 (memRead m (d.b + 2 * width p * i) (width p))
      im := BitVec.ofNat 64 (memRead m (d.b + 2 * width p * i + width p) (width p)) }
  | .real => { re := BitVec.ofNat 64 (memRead m (d.b + width p * i) (width p)), im := 0 }

end Sys2Proof.Machine
end

