-- ==== Sys2Proof/Safety.lean ====
section
/-! DEFINITION. What a well-kept machine state is (the invariant claims use), and what a host that keeps its duties does
(R273, R274). -/

namespace Sys2Proof.Machine

/-- `BUSY = 1` exactly when a command is latched (R26, R41), and only then can a race with its written extent be on
record. -/
def State.latchWf (s : State) : Prop :=
  s.status.busy = s.latch.isSome ∧ (s.dstRaced = true → s.status.busy = true)

/-- A kernel context is one a configuration writes (R34 to R37, R145): none; a radix-2 kernel of size `2^q` with its
twiddle table; or a Bluestein kernel whose engine size is the smallest power of two `≥ 2(N-1)`, with both tables. A table
the spec leaves unspecified is the empty list (log entry 7). -/
def Kernel.wf (P : Params) (K : Kernel) : Prop :=
  match K.kind with
  | .none => K = Kernel.absent
  | .radix2 =>
    ∃ q d, q ≤ P.log2Cmax ∧
      K = mkKernel .radix2 (2 ^ q) (2 ^ q) q (runDraw (twgen P (2 ^ q / 2)) d).1 []
  | .bluestein =>
    ∃ N q d, 3 ≤ N ∧ (∀ j, N ≠ 2 ^ j) ∧ q ≤ P.log2Cmax ∧ 2 * (N - 1) ≤ 2 ^ q ∧ 2 ^ q < 4 * (N - 1) ∧
      K = mkKernel .bluestein N (2 ^ q) q (runDraw (twgen P (2 ^ q / 2)) d).1 (chgen P N (2 ^ q))

/-- The caches hold at most `CMAX` elements each (R38). -/
def Caches.fit (P : Params) (c : Caches) : Prop :=
  c.c0.length ≤ cmax P ∧ c.c1.length ≤ cmax P ∧ c.c2.length ≤ cmax P

/-- The invariant of every reachable state. -/
structure State.Inv (s : State) : Prop where
  params : s.params.wf = true
  mem : s.mem.wf = true
  accepted : s.accepted.wf = true
  latch : s.latchWf
  kernel : s.kernel.wf s.params
  caches : s.caches.fit s.params

/-- What every completion of `s` with code `c` leaves and sets outside the kernel, the caches and host memory: `ERR` takes
the code, `BUSY` drops, the latch empties; `PF`, the operand registers, the parameters and the host stay
(R22, R25, R26, R241). -/
structure Completes (s t : State) (c : ErrCode) : Prop where
  err : t.status.err = c
  busy : t.status.busy = false
  pf : t.status.pf = s.status.pf
  latch : t.latch = none
  dstRaced : t.dstRaced = false
  a0 : t.a0 = s.a0
  a1 : t.a1 = s.a1
  a2 : t.a2 = s.a2
  a3 : t.a3 = s.a3
  params : t.params = s.params
  host : t.host = s.host
  agenda : t.agenda = s.agenda

/-- Host memory as of acceptance still agrees with host memory on every extent of the command in flight: the host has
written none of them since (R63, R65). -/
def State.current (s : State) : Prop :=
  ∀ b ∈ s.buffersInFlight, ∀ a, b.d.covers s.params.prec a = true → readByte s.mem a = readByte s.accepted a

/-- Every byte of host memory outside a descriptor's extent reads in `t` as in `s`. -/
def memFrame (s t : State) (d : Desc) : Prop :=
  ∀ a, d.covers s.params.prec a = false → readByte t.mem a = readByte s.mem a

/-- A descriptor passes R59 and R60: aligned, within the address space, admitted; an empty one always does (R58). -/
def Desc.passes (P : Params) (d : Desc) : Prop :=
  0 < d.n → d.b % width P.prec = 0 ∧ d.b + d.size P.prec ≤ 2 ^ 64 ∧ hostAdmits P d.b (d.size P.prec) = true

/-- Two descriptors have no byte in common (R61). -/
def Desc.disjoint (P : Params) (d1 d2 : Desc) : Prop :=
  ∀ a, ¬(d1.covers P.prec a = true ∧ d2.covers P.prec a = true)

/-- The magnitude bits `m` are the value of `T` nearest to the real `v` (in units of the smallest subnormal): no finite
value of `T` is nearer (R101). -/
def nearestUnits (p : Prec) (m : Nat) (v : ℝ) : Prop :=
  m < infMag p ∧ ∀ m', m' < infMag p → |(unitsOf p m : ℝ) - v| ≤ |(unitsOf p m' : ℝ) - v|

/-- The registers whose host writes R27 guards. -/
def Reg.guarded : Reg → Bool
  | .cmd => true
  | .a0 => true
  | .a1 => true
  | .a2 => true
  | .a3 => true
  | .status => false
  | .kinfo => false
  | .fftsize => false
  | .extsize => false
  | .hwcfg => false
  | .id => false
  | .reserved => false

/-- A host action keeps the duties of R273 and R274 in state `s`: with a command in flight it writes neither `CMD` nor
`A0..A3`, stores to no extent of that command, and loads no byte of a written extent. -/
def HostAct.dutiful (s : State) : HostAct → Bool
  | .store addr bytes =>
    !s.status.busy ||
      match route s.params addr.toNat bytes.length with
      | .register off => !(regAt off).guarded
      | .memory => (s.racedBuffers addr.toNat bytes.length).isEmpty
      | .malformed => false
      | .beyond => false
  | .load addr n =>
    !s.status.busy ||
      match route s.params addr.toNat n with
      | .register _ => true
      | .memory => (List.range n).all (fun j => !s.inWrittenExtent (addr.toNat + j))
      | .malformed => false
      | .beyond => false
  | .wait => true
  | .check => true

/-- The next step keeps the host's duties: it is not the host's, or its action does. -/
def State.dutiful (s : State) : Bool :=
  match s.nextAgent, s.host.program with
  | .host, a :: _ => s.host.stopped || a.dutiful s
  | _, _ => true

end Sys2Proof.Machine
end

