-- ==== Sys2Proof/Certificates/Slice0/Obligations.lean ====
section
/-! DEFINITION. The statements for the provers: the spec's numbered rules as propositions about the model. -/

open Sys2Proof Sys2Proof.Machine

/-! ## Decoding and the CORE's step -/

/-- R81, R83, R84: decoding and encoding agree in both directions on all 2^64 values: a value decodes to a command exactly
when it is that command's word. -/
def Obligations.DecodeAndEncodeAgree : Prop :=
  ∀ (v : Word) (i : Instr), i.wf = true → (decode v = some i ↔ v = encode i)

/-- R81: a value is illegal exactly when its upper half or `RSV` is not 0, its `OP` is not listed, or `ET = 1` with an
untyped `OP`; an illegal command in flight completes with `ILLEGAL_COMMAND` and changes nothing else, and every other
value is a command, whose completion is `exec`. -/
def Obligations.IllegalCommandsExactly : Prop :=
  ∀ (s : State) (l : Latch), s.nextAgent = .core → s.latch = some l →
    if l.v.extractLsb' 32 32 ≠ 0 ∨ l.v.extractLsb' 9 23 ≠ 0 ∨
        l.v.extractLsb' 0 8 ∉ [0x01#8, 0x02#8, 0x03#8, 0x10#8, 0x11#8, 0x12#8, 0x13#8, 0x20#8, 0x21#8, 0x22#8] ∨
        (l.v.getLsbD 8 = true ∧ l.v.extractLsb' 0 8 ∉ [0x12#8, 0x13#8, 0x20#8]) then
      ∃ t, step s = .next t ∧ Completes s.tick t .illegalCommand ∧ t.kernel = s.kernel ∧ t.mem = s.mem
    else ∃ i, decode l.v = some i ∧ step s = exec i s.tick

/-- R84, R88: the thirteen command words written out from the spec's table decode to their commands, and the two illegal
examples of R88 do not decode. -/
def Obligations.TableWordsDecode : Prop :=
  decode 0x00000001 = some .cfgR2 ∧ decode 0x00000002 = some .cfgBs ∧ decode 0x00000003 = some .release ∧
    decode 0x00000010 = some .fft ∧ decode 0x00000011 = some .ifft ∧
    decode 0x00000012 = some .fftCopyC ∧ decode 0x00000112 = some .fftCopyR ∧
    decode 0x00000013 = some .ifftCopyC ∧ decode 0x00000113 = some .ifftCopyR ∧
    decode 0x00000020 = some .fftshiftC ∧ decode 0x00000120 = some .fftshiftR ∧
    decode 0x00000021 = some .fftfreq ∧ decode 0x00000022 = some .fftampl ∧
    decode 0x0000000100000010 = none ∧ decode 0x00000111 = none

/-- R65: when the CORE moves and the latched value decodes to a well-formed command, the step is that command's `exec` at
that state, with only the schedule's entry consumed (the schedule is the model's: log entry 4). -/
def Obligations.StepRunsDecodedCommand : Prop :=
  ∀ (s : State) (l : Latch) (i : Instr), s.nextAgent = .core → s.latch = some l → decode l.v = some i → i.wf = true →
    step s = exec i s.tick

/-- R25, R26, R278: every command completes from every state, with its status code, `BUSY` dropped and the operand
registers, `PF`, the parameters and the host as they were. (Completion with an error is included: where each command
has its effect is stated command by command below.) -/
def Obligations.EveryCommandCompletes : Prop :=
  ∀ (i : Instr) (s : State), ∃ t, exec i s = .next t ∧ Completes s t (statusCode s s.inFlight i)

/-- R241: a command that completes with a code other than `OK` has changed nothing but `ERR`, `BUSY` and the latch: no host
byte, no kernel field, no operand register, not `PF`. (R241 lets the caches change.) -/
def Obligations.ErrorChangesNothingElse : Prop :=
  ∀ (i : Instr) (s t : State), exec i s = .next t → t.status.err ≠ .ok →
    Completes s t t.status.err ∧ t.mem = s.mem ∧ t.kernel = s.kernel

/-! ## The host's register accesses -/

/-- R22, R23: with `BUSY = 0` a host write of `A0..A3` sets that register, and a write of `CMD` latches the value with
`A0..A3` and sets `BUSY`, in the same step; nothing else changes. (That host memory as of acceptance is kept in the latch is
the model's: log entry 33.) -/
def Obligations.IdleRegisterWrites : Prop :=
  ∀ (s : State) (v : Word) (rest : List HostAct), s.params.wf = true → s.nextAgent = .host → s.host.stopped = false →
    s.status.busy = false →
    (s.host.program = regStore s.params 0x00 v :: rest →
      step s = .next
        { s.tick.withProgram rest with
          latch := some { v := v, a0 := s.a0, a1 := s.a1, a2 := s.a2, a3 := s.a3, mem := s.mem }
          status := { s.status with busy := true } }) ∧
    (s.host.program = regStore s.params 0x08 v :: rest → step s = .next { s.tick.withProgram rest with a0 := v }) ∧
    (s.host.program = regStore s.params 0x10 v :: rest → step s = .next { s.tick.withProgram rest with a1 := v }) ∧
    (s.host.program = regStore s.params 0x18 v :: rest → step s = .next { s.tick.withProgram rest with a2 := v }) ∧
    (s.host.program = regStore s.params 0x20 v :: rest → step s = .next { s.tick.withProgram rest with a3 := v })

/-- R27: with `BUSY = 1` a host write of `CMD` or `A0..A3` is dropped and sets `PF`, and has no other effect. -/
def Obligations.BusyWritesSetProtocolFault : Prop :=
  ∀ (s : State) (off : Nat) (v : Word) (rest : List HostAct), s.params.wf = true → s.nextAgent = .host →
    s.host.stopped = false → s.status.busy = true → off ∈ [0x00, 0x08, 0x10, 0x18, 0x20] →
    s.host.program = regStore s.params off v :: rest →
    step s = .next { s.tick.withProgram rest with status := { s.status with pf := true } }

/-- R24, R28, R29, R30, R31, R32, R33: host writes of the read-only and the reserved registers are ignored, with no effect
on `PF`, whether `BUSY` is set or not. -/
def Obligations.ReadOnlyWritesIgnored : Prop :=
  ∀ (s : State) (off : Nat) (v : Word) (rest : List HostAct), s.params.wf = true → s.nextAgent = .host →
    s.host.stopped = false → off % 8 = 0 → 0x28 ≤ off → off < 0x100 →
    s.host.program = regStore s.params off v :: rest → step s = .next (s.tick.withProgram rest)

/-- R75, R22, R23, R33: an aligned 64-bit host read returns the register of its offset, little-endian, and changes nothing
else; `CMD` and the reserved offsets read 0. -/
def Obligations.RegisterReads : Prop :=
  ∀ (s : State) (off : Nat) (rest : List HostAct), s.params.wf = true → s.nextAgent = .host →
    s.host.stopped = false → off % 8 = 0 → off < 0x100 →
    s.host.program = .load (s.params.ubase + BitVec.ofNat 64 off) 8 :: rest →
    ∃ w : Word,
      step s = .next ((s.tick.withProgram rest).recordLoad (leBytes 8 w.toNat)) ∧
      (off = 0x00 → w = 0) ∧ (off = 0x08 → w = s.a0) ∧ (off = 0x10 → w = s.a1) ∧ (off = 0x18 → w = s.a2) ∧
      (off = 0x20 → w = s.a3) ∧ (off = 0x28 → w = statusWord s) ∧ (off = 0x30 → w = kinfoWord s) ∧
      (off = 0x38 → w = BitVec.ofNat 64 s.kernel.n) ∧ (off = 0x40 → w = BitVec.ofNat 64 s.kernel.e) ∧
      (off = 0x48 → w = hwcfgWord s) ∧ (off = 0x50 → w = 0x5344535000000007) ∧ (0x58 ≤ off → w = 0)

/-- R24, R28, R31, R240: the fields of `STATUS`, `KINFO` and `HWCFG` stand at their bits, every other bit reads 0, and `ERR` and
`KIND` hold the numbers of R240 and R28. -/
def Obligations.StatusAndInfoFields : Prop :=
  ∀ s : State, s.kernel.log2e < 64 → s.params.log2Cmax < 64 →
    ((∀ c ∈ [(ErrCode.ok, 0#4), (.domainError, 1#4), (.lengthMismatch, 2#4), (.unsupported, 3#4), (.noKernel, 4#4),
          (.illegalCommand, 5#4), (.alignError, 6#4), (.addressError, 7#4), (.overlapError, 8#4), (.capacityError, 9#4)],
        s.status.err = c.1 → (statusWord s).extractLsb' 0 4 = c.2) ∧
      (statusWord s).extractLsb' 4 4 = 0 ∧ (statusWord s).getLsbD 8 = s.status.busy ∧
      (statusWord s).getLsbD 9 = s.status.pf ∧ (statusWord s).extractLsb' 10 54 = 0) ∧
    ((∀ c ∈ [(KernelKind.none, 0#2), (.radix2, 1#2), (.bluestein, 2#2)],
        s.kernel.kind = c.1 → (kinfoWord s).extractLsb' 0 2 = c.2) ∧
      (kinfoWord s).getLsbD 2 = s.kernel.ifswap ∧ (kinfoWord s).extractLsb' 3 5 = 0 ∧
      (kinfoWord s).extractLsb' 8 6 = BitVec.ofNat 6 s.kernel.log2e ∧ (kinfoWord s).extractLsb' 14 50 = 0) ∧
    ((hwcfgWord s).getLsbD 0 = decide (s.params.prec = .binary64) ∧ (hwcfgWord s).extractLsb' 1 7 = 0 ∧
      (hwcfgWord s).extractLsb' 8 6 = BitVec.ofNat 6 s.params.log2Cmax ∧ (hwcfgWord s).extractLsb' 14 50 = 0)

/-- R77: a host access that meets the register block, ends by 2^64 and is not an aligned 64-bit access is refused. (That one
lying only partly in the block is refused as a whole is the model's: log entry 16. One running past 2^64 is a fault: log
entry 31.) -/
def Obligations.MalformedRegisterAccessRefused : Prop :=
  ∀ (s : State) (addr : Word) (bytes : List Byte) (rest : List HostAct), s.params.wf = true → s.nextAgent = .host →
    s.host.stopped = false → addr.toNat + bytes.length ≤ 2 ^ 64 →
    rangesMeet addr.toNat bytes.length s.params.ubase.toNat 0x100 = true →
    (bytes.length ≠ 8 ∨ addr.toNat % 8 ≠ 0) →
    (s.host.program = .store addr bytes :: rest → step s = .refused .malformedRegisterAccess) ∧
    (s.host.program = .load addr bytes.length :: rest → step s = .refused .malformedRegisterAccess)

/-- R86: `wait` keeps reading `STATUS` while `BUSY = 1` and is over when `BUSY = 0`; `check` then also stops the host
program if `STATUS.ERR ≠ 0` or `STATUS.PF = 1`. (One host step a poll, and polls that leave no record, are the model's: log
entries 32 and 20.) -/
def Obligations.WaitAndCheck : Prop :=
  ∀ (s : State) (rest : List HostAct), s.nextAgent = .host → s.host.stopped = false →
    (s.host.program = .wait :: rest →
      step s = .next (if s.status.busy then s.tick else s.tick.withProgram rest)) ∧
    (s.host.program = .check :: rest → s.status.busy = true → step s = .next s.tick) ∧
    (s.host.program = .check :: rest → s.status.busy = false →
      ∃ t, step s = .next t ∧ t.host.program = rest ∧ t.host.reads = s.host.reads ∧
        (t.host.stopped = true ↔ s.status.err ≠ .ok ∨ s.status.pf = true))

/-- R85: a well-formed command line at the head of the host program of an idle machine writes its operands to `A0`, `A1`, …
in order and then `CMD`: after one step for each operand and one more, the command is in flight with those operands, the
registers beyond them keep their values, and the next step is the command's. (The schedule is the model's: log entry 4.) -/
def Obligations.CommandLineRuns : Prop :=
  ∀ (s : State) (l : Line) (rest : List HostAct), s.params.wf = true → l.wf = true → s.agenda = [] →
    s.host.stopped = false → s.status.busy = false → s.host.program = expandLine s.params l ++ rest →
    ∃ u : State, Host.Core.run Sys2Proof.core (l.operands.length + 1) s = .next u ∧
      u = { s with
        a0 := l.operands.getD 0 s.a0
        a1 := l.operands.getD 1 s.a1
        a2 := l.operands.getD 2 s.a2
        a3 := l.operands.getD 3 s.a3
        latch := some
          { v := encode l.instr
            a0 := l.operands.getD 0 s.a0
            a1 := l.operands.getD 1 s.a1
            a2 := l.operands.getD 2 s.a2
            a3 := l.operands.getD 3 s.a3
            mem := s.mem }
        status := { s.status with busy := true }
        host := { s.host with program := .wait :: rest } } ∧
      step u = exec l.instr u

/-! ## Reset -/

/-- R271, R23, R31, R32, R33: every register the host can read has its reset value, for every instance; there is no kernel and no
command in flight. -/
def Obligations.ResetRegisterValues : Prop :=
  ∀ p : Params, p.log2Cmax < 64 →
    ∃ s : State, s = State.resetOf p ∧
      readReg s .cmd = 0 ∧ readReg s .a0 = 0 ∧ readReg s .a1 = 0 ∧ readReg s .a2 = 0 ∧ readReg s .a3 = 0 ∧
      readReg s .status = 0 ∧ readReg s .kinfo = 0 ∧ readReg s .fftsize = 0 ∧ readReg s .extsize = 0 ∧
      (readReg s .hwcfg).getLsbD 0 = decide (p.prec = .binary64) ∧ (readReg s .hwcfg).extractLsb' 1 7 = 0 ∧
      (readReg s .hwcfg).extractLsb' 8 6 = BitVec.ofNat 6 p.log2Cmax ∧ (readReg s .hwcfg).extractLsb' 14 50 = 0 ∧
      readReg s .id = 0x5344535000000007 ∧ readReg s .reserved = 0 ∧
      s.status = { err := .ok, busy := false, pf := false } ∧ s.kernel.kind = .none ∧ s.kernel.n = 0 ∧ s.kernel.e = 0 ∧
      s.kernel.ifswap = false ∧ s.kernel.log2e = 0 ∧ s.latch = none

/-- R270, R271: reset puts the CORE in its reset state from any state; host memory is unchanged, except for the bytes of a
written extent of an abandoned command that lie in none of its read-only extents, whether its descriptors pass their checks
or not. (That `TW` and `CIRC`, which R271 leaves unspecified, are empty lists in `Kernel.absent` is the model's: log entry 7;
so is that the host and the schedule go on as they were: log entry 21; the extents counted are log entry 17, and `dstRaced` is
the model's own field: log entry 5.) -/
def Obligations.PlatformResetState : Prop :=
  ∀ s : State, s.mem.wf = true → s.nextAgent = .platform →
    ∃ t, step s = .next t ∧ t.params = s.params ∧ t.a0 = 0 ∧ t.a1 = 0 ∧ t.a2 = 0 ∧ t.a3 = 0 ∧
      t.status = { err := .ok, busy := false, pf := false } ∧ t.kernel = Kernel.absent ∧ t.latch = none ∧
      t.dstRaced = false ∧ t.host = s.host ∧
      (∀ a, s.inWrittenExtent a = false ∨ s.inReadOnlyExtent a = true → readByte t.mem a = readByte s.mem a)

/-! ## Descriptors -/

/-- R58, R59, R60: which check a buffer fails first; an empty buffer passes whatever its base. FFTFREQ, whose only checks
these are, completes with exactly that code. -/
def Obligations.DescriptorChecksOfFftfreq : Prop :=
  ∀ s : State, let d := desc s.inFlight.a0 s.inFlight.a1 .real
    let W := width s.params.prec
    ∃ t, exec .fftfreq s = .next t ∧
      t.status.err =
        if d.n = 0 then .ok
        else if d.b % W ≠ 0 then .alignError
        else if 2 ^ 64 < d.b + d.n * W ∨ hostAdmits s.params d.b (d.n * W) = false then .addressError
        else .ok

/-- R61: the overlap check fails exactly when the two extents have a byte in common. -/
def Obligations.OverlapMeansSharedByte : Prop :=
  ∀ (P : Params) (d1 d2 : Desc),
    overlaps P d1 d2 = true ↔ ∃ a, d1.covers P.prec a = true ∧ d2.covers P.prec a = true

/-- R242, R196: the code of every transform and spectrum command is that of its first failing check: kernel, inverse on a
Bluestein kernel, alignment then range of each buffer in operand order, overlap, lengths. -/
def Obligations.CommandCheckOrder : Prop :=
  ∀ (s t : State) (l : Latch), l = s.inFlight →
    let N := s.kernel.n
    let bad : Desc → ErrCode := fun d =>
      if misaligned s.params d then .alignError else if unaddressable s.params d then .addressError else .ok
    let inPlace : Bool → ErrCode := fun inv =>
      let x := desc l.a0 l.a1 .complex
      if s.kernel.kind = .none then .noKernel
      else if inv = true ∧ s.kernel.kind = .bluestein then .unsupported
      else if bad x ≠ .ok then bad x
      else if x.n ≠ N then .lengthMismatch else .ok
    let copy : ElemType → Bool → ErrCode := fun ty inv =>
      let src := desc l.a0 l.a1 ty
      let dst := desc l.a2 l.a3 .complex
      if s.kernel.kind = .none then .noKernel
      else if inv = true ∧ s.kernel.kind = .bluestein then .unsupported
      else if bad src ≠ .ok then bad src
      else if bad dst ≠ .ok then bad dst
      else if overlaps s.params src dst then .overlapError
      else if src.n ≠ N ∨ dst.n ≠ N then .lengthMismatch else .ok
    let ampl : ErrCode :=
      let a := desc l.a0 l.a1 .real
      let sp := desc l.a2 l.a3 .complex
      if bad a ≠ .ok then bad a
      else if bad sp ≠ .ok then bad sp
      else if overlaps s.params a sp then .overlapError
      else if sp.n < a.n then .lengthMismatch else .ok
    (exec .fft s = .next t → t.status.err = inPlace false) ∧
    (exec .ifft s = .next t → t.status.err = inPlace true) ∧
    (exec .fftCopyC s = .next t → t.status.err = copy .complex false) ∧
    (exec .fftCopyR s = .next t → t.status.err = copy .real false) ∧
    (exec .ifftCopyC s = .next t → t.status.err = copy .complex true) ∧
    (exec .ifftCopyR s = .next t → t.status.err = copy .real (!s.params.realIfftCallsForward)) ∧
    (exec .fftshiftC s = .next t → t.status.err = bad (desc l.a0 l.a1 .complex)) ∧
    (exec .fftshiftR s = .next t → t.status.err = bad (desc l.a0 l.a1 .real)) ∧
    (exec .fftfreq s = .next t → t.status.err = bad (desc l.a0 l.a1 .real)) ∧
    (exec .fftampl s = .next t → t.status.err = ampl)

/-! ## Kernel commands -/

/-- R170, R175: CFG_R2 on a power of two `2^q` that fits the capacity makes a radix-2 kernel of that size, with
`IFSWAP` the parity of `q`, `LOG2E = q` and the twiddle table of `TWGEN(2^q / 2)`; no memory, cache or register changes. (The
empty chirp list is the model's form of an unspecified table: log entry 7. That the scheduler's loop state stays is the
model's choice where R40 leaves it unspecified: log entry 6.) -/
def Obligations.CfgR2MakesKernel : Prop :=
  ∀ (s : State) (q : Nat), s.inFlight.a0.toInt = 2 ^ q → q ≤ s.params.log2Cmax →
    ∃ t, exec .cfgR2 s = .next t ∧ Completes s t .ok ∧
      t.kernel =
        { kind := .radix2, n := 2 ^ q, e := 2 ^ q, ifswap := decide (q % 2 = 1), log2e := q
          tw := (runDraw (twgen s.params (2 ^ q / 2)) s.draws).1, circ := [] } ∧
      t.mem = s.mem ∧ t.caches = s.caches ∧ t.sched = s.sched

/-- R171, R175: CFG_BS on an `N ≥ 3` that is no power of two, whose engine size `2^q`, the smallest power of two
`≥ 2(N-1)`, fits the capacity, makes a Bluestein kernel with both tables; no memory, cache or register changes. (That the
scheduler's loop state stays is the model's choice where R40 leaves it unspecified: log entry 6.) -/
def Obligations.CfgBsMakesKernel : Prop :=
  ∀ (s : State) (N q : Nat), s.params.wf = true → s.inFlight.a0.toInt = N → 3 ≤ N → (∀ j, N ≠ 2 ^ j) → 2 * (N - 1) ≤ 2 ^ q →
    2 ^ q < 4 * (N - 1) → q ≤ s.params.log2Cmax →
    ∃ t, exec .cfgBs s = .next t ∧ Completes s t .ok ∧
      t.kernel =
        { kind := .bluestein, n := N, e := 2 ^ q, ifswap := decide (q % 2 = 1), log2e := q
          tw := (runDraw (twgen s.params (2 ^ q / 2)) s.draws).1, circ := chgen s.params N (2 ^ q) } ∧
      t.mem = s.mem ∧ t.caches = s.caches ∧ t.sched = s.sched

/-- R170, R171, R173, R176: the gating of the two configurations, as the code each completes with: `DOMAIN_ERROR` before
`CAPACITY_ERROR`; on either, the kernel is as before. -/
def Obligations.ConfigurationGating : Prop :=
  ∀ (s t : State), let N := s.inFlight.a0.toInt
    (exec .cfgR2 s = .next t →
      (t.status.err = .domainError ↔ ¬∃ q : Nat, N = 2 ^ q) ∧
      (t.status.err = .capacityError ↔ ∃ q : Nat, N = 2 ^ q ∧ s.params.log2Cmax < q) ∧
      (t.status.err ≠ .ok → t.kernel = s.kernel)) ∧
    (exec .cfgBs s = .next t →
      (t.status.err = .domainError ↔ N < 3 ∨ ∃ q : Nat, N = 2 ^ q) ∧
      (t.status.err = .capacityError ↔
        3 ≤ N ∧ (¬∃ q : Nat, N = 2 ^ q) ∧ ((2 : Int) ^ s.params.log2Cmax) < 2 * (N - 1)) ∧
      (t.status.err ≠ .ok → t.kernel = s.kernel))

/-- R172: RELEASE always completes with `OK` and leaves no kernel and zero size fields; host memory and the registers stay. -/
def Obligations.ReleaseRemovesKernel : Prop :=
  ∀ s : State, ∃ t, exec .release s = .next t ∧ Completes s t .ok ∧ t.kernel.kind = .none ∧ t.kernel.n = 0 ∧
    t.kernel.e = 0 ∧ t.kernel.ifswap = false ∧ t.kernel.log2e = 0 ∧ t.mem = s.mem

/-- R34, R174: a step changes the kernel context only as the completion of CFG_R2 or CFG_BS with `OK`, as the completion of
RELEASE, or as reset. -/
def Obligations.KernelChangesOnlyByKernelCommands : Prop :=
  ∀ s t : State, step s = .next t → t.kernel ≠ s.kernel →
    s.nextAgent = .platform ∨
      (s.nextAgent = .core ∧ t.status.err = .ok ∧
        ∃ l, s.latch = some l ∧
          (decode l.v = some .cfgR2 ∨ decode l.v = some .cfgBs ∨ decode l.v = some .release))

/-! ## Table generators -/

/-- R133, R134, R139: the exact slots of the twiddle table for `H = 2^m`, with the values of the literal and of the `1` of R107
in both precisions, and the table's length. -/
def Obligations.TwiddleExactSlots : Prop :=
  ∀ (P : Params) (m d : Nat), let H := 2 ^ m
    let tw := (runDraw (twgen P H) d).1
    let one := fOne P.prec
    let r := halfRoot2 P.prec
    tw.length = H ∧ tw[0]? = some { re := one, im := 0 } ∧
      (1 ≤ m → tw[H / 2]? = some { re := 0, im := fneg P.prec one }) ∧
      (2 ≤ m → tw[H / 4]? = some { re := r, im := fneg P.prec r } ∧
        tw[3 * H / 4]? = some { re := fneg P.prec r, im := fneg P.prec r }) ∧
      (P.prec = .binary64 → r = 0x3FE6A09E667F3BCD ∧ one = 0x3FF0000000000000) ∧
      (P.prec = .binary32 → r = 0x3F3504F3 ∧ one = 0x3F800000)

/-- R136: in each octave the table holds the four symmetric placements of one pair `(C, S)`. -/
def Obligations.TwiddleSymmetricPlacements : Prop :=
  ∀ (P : Params) (m d k : Nat), let H := 2 ^ m
    let tw := (runDraw (twgen P H) d).1
    1 ≤ k → k < H / 4 → ∃ C S : FBits,
      tw[k]? = some { re := C, im := S } ∧
      tw[H / 2 - k]? = some { re := fneg P.prec S, im := fneg P.prec C } ∧
      tw[H / 2 + k]? = some { re := S, im := fneg P.prec C } ∧
      tw[H - k]? = some { re := fneg P.prec C, im := S }

/-- R135, R138: from `k = 1` each pair is `Cn = fadd(fmul(C, c), fmul(S, s))`, `Sn = fsub(fmul(S, c), fmul(C, s))` of the pair
`(C, S)` before it, with the pair `(1, 0)` before the first and the seed `(c, s)`; each operation up to its NaN draw. -/
def Obligations.TwiddleRecurrence : Prop :=
  ∀ (P : Params) (m d k : Nat), let H := 2 ^ m
    let p := P.prec
    let tw := (runDraw (twgen P H) d).1
    let c := (twSeed P H).re
    let s := (twSeed P H).im
    1 ≤ k → k < H / 4 →
    let C := if k = 1 then fOne p else (elem tw (k - 1)).re
    let S := if k = 1 then 0 else (elem tw (k - 1)).im
    ∃ m1 m2 m3 m4 Cn Sn : FBits,
      Gives (fmul p C c) m1 ∧ Gives (fmul p S s) m2 ∧ Gives (fadd p m1 m2) Cn ∧
      Gives (fmul p S c) m3 ∧ Gives (fmul p C s) m4 ∧ Gives (fsub p m3 m4) Sn ∧
      tw[k]? = some { re := Cn, im := Sn }

/-- R143, R144: the layout of the chirp table: `(1, 0)` first, `χ(i)` at `i` and `M - i`, zeros from `N` to `M - N`, for every
`N ≥ 3` and `M ≥ 2N - 2`. -/
def Obligations.ChirpTableLayout : Prop :=
  ∀ (P : Params) (N M : Nat), 3 ≤ N → 2 * N - 2 ≤ M → let ca := chgen P N M
    ca.length = M ∧ ca[0]? = some { re := fOne P.prec, im := 0 } ∧
      (∀ i, 1 ≤ i → i < N → ca[i]? = some (chirpVal P i N) ∧ ca[M - i]? = some (chirpVal P i N)) ∧
      (∀ i, N ≤ i → i ≤ M - N → ca[i]? = some { re := 0, im := 0 })

/-- R137, R142: the seeds and the chirp values are the correctly rounded cosines and sines: of `π/H` for the seed of `TWGEN(H)`,
and of `π·i²/N` for `χ(i)`, where the instance takes the spec's values. For every angle `π·q/n` the exact angle reduction,
the signs and the rounding are right, unless no enclosure of the model decides the rounding (the enclosures and that free
value are the model's: log entry 9); and what both ends of an enclosure agree on is the correctly rounded value. -/
def Obligations.TrigValuesRoundCorrectly : Prop :=
  (∀ (p : Prec) (w a b m : Nat), 0 < b → 2 * a ≤ b →
    (enclRound p w (enclTrig .cos w a b) = some m →
      m < infMag p → nearestUnits p m (Real.cos (Real.pi * a / b) * 2 ^ unitLog p)) ∧
    (enclRound p w (enclTrig .sin w a b) = some m →
      m < infMag p → nearestUnits p m (Real.sin (Real.pi * a / b) * 2 ^ unitLog p))) ∧
  (∀ (p : Prec) (q n : Nat), 0 < n → ∃ a : Nat, 2 * a ≤ n ∧
    |Real.cos (Real.pi * q / n)| = Real.cos (Real.pi * a / n) ∧ |Real.sin (Real.pi * q / n)| = Real.sin (Real.pi * a / n) ∧
    (Undecided p .cos a n ∨ IsRounded p (cosSin p q n).re (Real.cos (Real.pi * q / n) * 2 ^ unitLog p)) ∧
    (Undecided p .sin a n ∨ IsRounded p (cosSin p q n).im (Real.sin (Real.pi * q / n) * 2 ^ unitLog p))) ∧
  (∀ (P : Params) (H : Nat), 2 ≤ H → P.seeds.lookup H = none →
    (Undecided P.prec .cos 1 H ∨ IsRounded P.prec (twSeed P H).re (Real.cos (Real.pi / H) * 2 ^ unitLog P.prec)) ∧
    (Undecided P.prec .sin 1 H ∨ IsRounded P.prec (twSeed P H).im (Real.sin (Real.pi / H) * 2 ^ unitLog P.prec))) ∧
  (∀ (P : Params) (N i : Nat), 1 ≤ i → i < N → P.chirps.lookup (i, N) = none → ∃ a : Nat, 2 * a ≤ N ∧
    |Real.cos (Real.pi * i ^ 2 / N)| = Real.cos (Real.pi * a / N) ∧
    |Real.sin (Real.pi * i ^ 2 / N)| = Real.sin (Real.pi * a / N) ∧
    (Undecided P.prec .cos a N ∨
      IsRounded P.prec (chirpVal P i N).re (Real.cos (Real.pi * i ^ 2 / N) * 2 ^ unitLog P.prec)) ∧
    (Undecided P.prec .sin a N ∨
      IsRounded P.prec (chirpVal P i N).im (Real.sin (Real.pi * i ^ 2 / N) * 2 ^ unitLog P.prec)))

/-! ## Arithmetic -/

/-- R101, R104: the one rounding of the model is round-to-nearest, ties-to-even, to infinity from the midpoint above the
largest finite value on. -/
def Obligations.RoundingIsNearestEven : Prop :=
  ∀ (p : Prec) (num den : Nat), 0 < den → let m := roundQuot p num den
    (m = infMag p ↔ (2 ^ (fracBits p + 2) - 1) * 2 ^ (expMax p - 2) * den ≤ 2 * num) ∧
    (m < infMag p → ∀ m', m' < infMag p →
      ((num : Int) - unitsOf p m * den).natAbs ≤ ((num : Int) - unitsOf p m' * den).natAbs ∧
      (m' ≠ m → ((num : Int) - unitsOf p m * den).natAbs = ((num : Int) - unitsOf p m' * den).natAbs → m % 2 = 0))

/-- R101, R102: `fadd`, `fsub`, `fmul` and `fdiv` of finite values (the divisor not zero) are the exact sum, difference, product
and quotient rounded to nearest, ties to even: finite below the overflow midpoint, and the infinity of the exact result's
sign from there on. -/
def Obligations.ArithmeticCorrectlyRounded : Prop :=
  ∀ (p : Prec) (a b : FBits) (d x y : Nat) (s t : Bool), unpack p a = .fin s x → unpack p b = .fin t y →
    let X : ℝ := signed s x
    let Y : ℝ := signed t y
    let K : ℝ := 2 ^ unitLog p
    IsRounded p (runDraw (fadd p a b) d).1 (X + Y) ∧
    IsRounded p (runDraw (fsub p a b) d).1 (X - Y) ∧
    IsRounded p (runDraw (fmul p a b) d).1 (X * Y / K) ∧
    (y ≠ 0 → IsRounded p (runDraw (fdiv p a b) d).1 (X * K / Y))

/-- R102: `fsqrt` of a positive finite value is correctly rounded, of a negative non-zero value a NaN. (Of a zero it is the
zero of that sign, which R102 does not list and the model takes from IEEE-754: log entry 29.) -/
def Obligations.SquareRootCorrectlyRounded : Prop :=
  ∀ (p : Prec) (a c : FBits) (d x z : Nat) (s u : Bool), unpack p a = .fin s x → unpack p c = .fin u z →
    (0 < x → s = false → ∃ r, unpack p (runDraw (fsqrt p a) d).1 = .fin false r ∧
      |(r : ℝ) - Real.sqrt (x * 2 ^ unitLog p)| ≤ |(signed u z : ℝ) - Real.sqrt (x * 2 ^ unitLog p)|) ∧
    (x = 0 → unpack p (runDraw (fsqrt p a) d).1 = .fin s 0) ∧
    (0 < x → s = true → isNaN p (runDraw (fsqrt p a) d).1 = true)

/-- R102, R106: the special values R102 names. A NaN operand and each invalid operation (`∞ - ∞` as a difference or a sum of
opposite signs, `0 · ∞` either way round, `0 / 0`, `∞ / ∞` of any signs, the root of a negative value) give a quiet NaN; a
non-zero finite value over zero is an infinity with the XOR of the signs; an exact zero sum of opposite values is `+0` and
`(-0) + (-0) = -0`; a sum, difference, product or quotient from the overflow midpoint on is the infinity of its sign. (Which
bit makes a NaN quiet is the model's: log entry 30; the sign of an infinite product or quotient is log entry 29.) -/
def Obligations.SpecialValues : Prop :=
  ∀ (p : Prec) (a b : FBits) (d : Nat) (s t : Bool) (x y : Nat),
    let quiet : FBits → Prop := fun v => isNaN p v = true ∧ v.getLsbD (fracBits p - 1) = true
    let sum := (runDraw (fadd p a b) d).1
    let diff := (runDraw (fsub p a b) d).1
    let prod := (runDraw (fmul p a b) d).1
    let quot := (runDraw (fdiv p a b) d).1
    let root := (runDraw (fsqrt p a) d).1
    (unpack p a = .nan ∨ unpack p b = .nan → quiet sum ∧ quiet diff ∧ quiet prod ∧ quiet quot) ∧
    (unpack p a = .nan ∨ unpack p a = .inf true ∨ unpack p a = .fin true x ∧ 0 < x → quiet root) ∧
    (unpack p a = .inf s → unpack p b = .inf s → quiet diff) ∧
    (unpack p a = .inf s → unpack p b = .inf (!s) → quiet sum) ∧
    (unpack p a = .inf s → unpack p b = .inf t → quiet quot) ∧
    (unpack p a = .inf s → unpack p b = .fin t 0 → quiet prod) ∧
    (unpack p a = .fin s 0 → unpack p b = .inf t → quiet prod) ∧
    (unpack p a = .fin s 0 → unpack p b = .fin t 0 → quiet quot) ∧
    (unpack p a = .fin s x → 0 < x → unpack p b = .fin t 0 → unpack p quot = .inf (s ^^ t)) ∧
    (unpack p a = .fin s x → unpack p b = .fin (!s) x → unpack p sum = .fin false 0) ∧
    (unpack p a = .fin true 0 → unpack p b = .fin true 0 → unpack p sum = .fin true 0) ∧
    (unpack p a = .fin s x → unpack p b = .fin s y → overflowUnits p ≤ 2 * (x + y) → unpack p sum = .inf s) ∧
    (unpack p a = .fin s x → unpack p b = .fin (!s) y → overflowUnits p ≤ 2 * (x + y) → unpack p diff = .inf s) ∧
    (unpack p a = .fin s x → unpack p b = .fin t y → overflowUnits p * 2 ^ unitLog p ≤ 2 * (x * y) →
      unpack p prod = .inf (s ^^ t)) ∧
    (unpack p a = .fin s x → unpack p b = .fin t y → 0 < y → overflowUnits p * y ≤ 2 * (x * 2 ^ unitLog p) →
      unpack p quot = .inf (s ^^ t))

/-- R103: `fneg` flips the sign bit and `fabs` clears it, every other bit of the pattern unchanged, NaNs included. -/
def Obligations.NegAndAbsAreExact : Prop :=
  ∀ (p : Prec) (a : FBits) (j : Nat), maskT p a = a →
    ((fneg p a).getLsbD j = if j = signPos p then !a.getLsbD j else a.getLsbD j) ∧
    ((fabs p a).getLsbD j = if j = signPos p then false else a.getLsbD j)

/-- R104: `toT(n)` is exact for `|n| ≤ 2^24` (binary32) and `|n| ≤ 2^53` (binary64). -/
def Obligations.IntegerConversionExact : Prop :=
  ∀ (p : Prec) (n : Int), n.natAbs ≤ 2 ^ (fracBits p + 1) →
    unpack p (toT p n) = .fin (decide (n < 0)) (n.natAbs * 2 ^ unitLog p)

/-- R116, R117, R118, R120: `pwr2` is the floor of the binary logarithm, and DOMAIN_ERROR on a non-positive operand;
`clp2` is 1 at 0, 2 at 1 and else the smallest power of two not below its operand; `ispow2` is being a power of two. -/
def Obligations.IntegerUnits : Prop :=
  (∀ x : Nat, 0 < x → x < 2 ^ 64 → ∃ r, pwr2 x = .ok r ∧ 2 ^ r ≤ x ∧ x < 2 ^ (r + 1)) ∧
  (∀ x : Int, x ≤ 0 → pwr2 x = .error .domainError) ∧
  clp2 0 = 1 ∧ clp2 1 = 2 ∧
  (∀ x : Nat, 2 ≤ x → x < 2 ^ 64 → ∃ q, clp2 x = 2 ^ q ∧ x ≤ 2 ^ q ∧ 2 ^ q < 2 * x) ∧
  (∀ n : Int, ispow2 n = true ↔ ∃ q : Nat, n = 2 ^ q)

/-- R122, R124: `apy2` returns a NaN operand's bits, the first one first; the larger magnitude when the smaller is zero; and
otherwise `fmul(w, fsqrt(fadd(1, fmul(q, q))))` with `q = fdiv(z, w)`, of the larger magnitude `w` and the smaller `z`, each
operation up to its NaN draw; so NaN for two infinities. -/
def Obligations.HypotByCases : Prop :=
  ∀ (p : Prec) (x y : FBits) (d : Nat), maskT p x = x → maskT p y = y →
    let r := (runDraw (apy2 p x y) d).1
    (isNaN p x = true → r = x) ∧
    (isNaN p x = false → isNaN p y = true → r = y) ∧
    (isNaN p x = false → magOf p y = 0 → r = fabs p x) ∧
    (isNaN p y = false → magOf p x = 0 → r = fabs p y) ∧
    (isNaN p x = false → isNaN p y = false → magOf p x ≠ 0 → magOf p y ≠ 0 →
      (magOf p y ≤ magOf p x → IsHypot p (fabs p x) (fabs p y) r) ∧
      (magOf p x ≤ magOf p y → IsHypot p (fabs p y) (fabs p x) r)) ∧
    (magOf p x = infMag p → magOf p y = infMag p → isNaN p r = true)

/-! ## Butterfly unit and ping-pong scheduler -/

/-- R150, R152, R154, R155: one butterfly call of a pass with half-span `pd` writes `a + b` at `yi` and `(a - b)·w` at `yi + pd` for
each of its pairs, by the real operations of R109 to R111 up to the NaN draws, and no other element; a pass is its `pd`
calls. -/
def Obligations.ButterflyCall : Prop :=
  ∀ (p : Prec) (tw y x : List Cplx) (hs ns pd si d : Nat), 0 < pd → ns * pd = hs → si < pd → y.length = 2 * hs →
    let y' := (runDraw (ctb p tw y x si hs ns (2 * pd) pd) d).1
    y'.length = y.length ∧
    (∀ k, k < ns →
      IsButterfly p (elem tw (k * pd)) (elem x (si + k * pd)) (elem x (si + k * pd + hs))
        (elem y' (si + k * (2 * pd))) (elem y' (si + k * (2 * pd) + pd))) ∧
    (∀ j, (∀ k, k < ns → j ≠ si + k * (2 * pd) ∧ j ≠ si + k * (2 * pd) + pd) → elem y' j = elem y j) ∧
    IsPass p tw x (runDraw (pass p tw y x hs ns (2 * pd) pd) d).1 hs ns pd

/-- R155, R156: for `hs = 2^q` the scheduler makes `q + 1` passes and stops: pass `j`, with `(ns, pd) = (hs/2^j, 2^j)`, is the
butterflies of R155 from the array before it, in the two buffers by turns, and the last result stands in `BA` when `q` is
even and in `SA` when it is odd; for `hs = 0` it makes none and writes nothing. -/
def Obligations.SchedulerPasses : Prop :=
  ∀ (p : Prec) (tw sa ba : List Cplx) (q d : Nat),
    (∃ r : PingPong, r = (runDraw (ditnn p tw sa ba (2 ^ q)) d).1 ∧ r.sched.ns = 0 ∧ r.sched.pd = 2 ^ (q + 1) ∧
      r.sched.ss = 2 ^ (q + 2) ∧ r.sched.sf = decide ((q + 1) % 2 = 1) ∧
      (sa.length = 2 ^ (q + 1) → ba.length = 2 ^ (q + 1) → ∃ A : Nat → List Cplx, A 0 = sa ∧
        (∀ j, j ≤ q → IsPass p tw (A j) (A (j + 1)) (2 ^ q) (2 ^ (q - j)) (2 ^ j)) ∧
        (q % 2 = 0 → r.ba = A (q + 1) ∧ r.sa = A q) ∧ (q % 2 = 1 → r.sa = A (q + 1) ∧ r.ba = A q))) ∧
    (runDraw (ditnn p tw sa ba 0) d).1.sa = sa ∧ (runDraw (ditnn p tw sa ba 0) d).1.ba = ba

/-- R39, R158, R159, R160: the forward and the inverse engine operation compute the transforms of R158 and R159, whatever the
scratch holds: the result is the passes from the input, for the inverse between the two conjugations with the division by
`toT(E)`; it does not depend on the scratch's contents, and it keeps the array's length. -/
def Obligations.EngineOperations : Prop :=
  ∀ (p : Prec) (tw x s1 s2 : List Cplx) (q d : Nat), x.length = 2 ^ q → s1.length = 2 ^ q → s2.length = 2 ^ q →
    let sw := decide (q % 2 = 1)
    let f1 := runDraw (fwdR2 p tw x s1 (2 ^ q) sw) d
    let f2 := runDraw (fwdR2 p tw x s2 (2 ^ q) sw) d
    let i1 := runDraw (invR2 p tw x s1 (2 ^ q) sw) d
    let i2 := runDraw (invR2 p tw x s2 (2 ^ q) sw) d
    IsFwd p tw q x f1.1.x ∧ IsInv p tw q x i1.1.x ∧
      f1.1.x = f2.1.x ∧ f1.2 = f2.2 ∧ f1.1.x.length = 2 ^ q ∧
      i1.1.x = i2.1.x ∧ i1.2 = i2.2 ∧ i1.1.x.length = 2 ^ q

/-- R191, R192: the Bluestein convolver is its six steps: the forward transform `H` of the chirp table, the input over the chirp
padded with zeros, its forward transform, the pointwise product with `H`, the inverse transform of size `M`, and its first
`N` elements over the chirp; each elementwise step by the real operations of R111, R112 and R192 up to the NaN draws, and
on a kernel whose engine size is `2^LOG2E` each transform is that of R158 or R159. (The instance's own division is a free
value: log entry 23.) -/
def Obligations.ConvolverSteps : Prop :=
  ∀ (P : Params) (K : Kernel) (xb c0 : List Cplx) (d : Nat), K.n ≤ K.e →
    let p := P.prec
    let out := (runDraw (bsFwd P K xb c0) d).1
    ∃ (h f g : EngineOut) (y z : List Cplx) (dh df dg : Nat),
      h = (runDraw (fwdR2 p K.tw K.circ c0 K.e K.ifswap) dh).1 ∧
      y.length = K.e ∧
      (∀ i, i < K.n → IsBsdiv P (elem xb i) (elem K.circ i) (elem y i)) ∧
      (∀ i, K.n ≤ i → i < K.e → elem y i = { re := 0, im := 0 }) ∧
      f = (runDraw (fwdR2 p K.tw y h.s K.e K.ifswap) df).1 ∧
      z.length = K.e ∧
      (∀ i, i < K.e → IsCmul p (elem f.x i) (elem h.x i) (elem z i)) ∧
      g = (runDraw (invR2 p K.tw z f.s K.e K.ifswap) dg).1 ∧
      out.x.length = K.n ∧
      (∀ i, i < K.n → IsBsdiv P (elem g.x i) (elem K.circ i) (elem out.x i)) ∧
      out.c0 = g.s ∧ out.c1 = h.x ∧ out.c2 = g.x ∧
      (K.e = 2 ^ K.log2e → K.ifswap = decide (K.log2e % 2 = 1) → K.circ.length = K.e → c0.length = K.e →
        IsFwd p K.tw K.log2e K.circ h.x ∧ IsFwd p K.tw K.log2e y f.x ∧ IsInv p K.tw K.log2e z g.x)

/-! ## Transform commands -/

/-- A transform command with its two buffers as the rule gives them: on a kernel a configuration makes and operands that
meet every check it completes with `OK`; the destination holds the transform R190 chooses by `KIND` of the source, a real
source promoted, as host memory held it at acceptance; every other byte of memory, the kernel and every register stay.
(With `PF = 1` too, where R27 gives the effect and R243 claims nothing about host buffers: log entry 26. A Bluestein kernel
whose instance divides itself divides by a free value of the operands: log entry 23.) -/
def Sys2Proof.Machine.TransformCompletes (i : Instr) (inverse : State → Bool) (src dst : Latch → Desc)
    (inPlace : Bool) : Prop :=
  ∀ s : State, s.mem.wf = true → s.dstRaced = false → s.kernel.wf s.params → s.kernel.kind ≠ .none →
    (inverse s = true → s.kernel.kind = .radix2) →
    (src s.inFlight).passes s.params → (dst s.inFlight).passes s.params →
    (inPlace = false → (src s.inFlight).disjoint s.params (dst s.inFlight)) →
    (src s.inFlight).n = s.kernel.n → (dst s.inFlight).n = s.kernel.n →
    let p := s.params.prec
    ∃ (t : State) (x r : List Cplx), exec i s = .next t ∧ Completes s t .ok ∧ t.kernel = s.kernel ∧
      x.length = s.kernel.n ∧ (∀ j, j < s.kernel.n → elem x j = sourceElem p s.accepted (src s.inFlight) j) ∧
      IsEngine s.params s.kernel (inverse s) x r ∧
      (∀ j, j < s.kernel.n → readC p t.mem (dst s.inFlight).b j = maskC p (elem r j)) ∧
      memFrame s t (dst s.inFlight)

/-- R190, R194, R195: FFT and IFFT in place. (The contents are claimed with `PF = 1` too, where R243 claims nothing about host
buffers: log entry 26; the division of `bsDivMode = DIVIDE` is log entry 23.) -/
def Obligations.InPlaceTransformsComplete : Prop :=
  TransformCompletes .fft (fun _ => false) (fun l => desc l.a0 l.a1 .complex) (fun l => desc l.a0 l.a1 .complex) true ∧
  TransformCompletes .ifft (fun _ => true) (fun l => desc l.a0 l.a1 .complex) (fun l => desc l.a0 l.a1 .complex) true

/-- R190, R197, R198: the four copy forms; the source is never written (it lies outside the destination's extent).
(The contents are claimed with `PF = 1` too, where R243 claims nothing about host buffers: log entry 26; the division of
`bsDivMode = DIVIDE` is log entry 23.) -/
def Obligations.CopyTransformsComplete : Prop :=
  TransformCompletes .fftCopyC (fun _ => false) (fun l => desc l.a0 l.a1 .complex) (fun l => desc l.a2 l.a3 .complex)
    false ∧
  TransformCompletes .fftCopyR (fun _ => false) (fun l => desc l.a0 l.a1 .real) (fun l => desc l.a2 l.a3 .complex)
    false ∧
  TransformCompletes .ifftCopyC (fun _ => true) (fun l => desc l.a0 l.a1 .complex) (fun l => desc l.a2 l.a3 .complex)
    false ∧
  TransformCompletes .ifftCopyR (fun s => !s.params.realIfftCallsForward) (fun l => desc l.a0 l.a1 .real)
    (fun l => desc l.a2 l.a3 .complex) false

/-- R196, R198, R241: an inverse on a Bluestein kernel completes with `UNSUPPORTED`, writes no host byte and leaves the kernel, the
operand registers, `PF`, the parameters and the host; with `realIfftCallsForward` the real-input form is exactly `fft.copy.r` instead, on any kernel. -/
def Obligations.BluesteinInverseUnsupported : Prop :=
  ∀ s : State,
    (s.kernel.kind = .bluestein → ∀ i, i ∈ [Instr.ifft, Instr.ifftCopyC] →
      ∃ t, exec i s = .next t ∧ Completes s t .unsupported ∧ t.mem = s.mem ∧ t.kernel = s.kernel) ∧
    (s.kernel.kind = .bluestein → s.params.realIfftCallsForward = false →
      ∃ t, exec .ifftCopyR s = .next t ∧ Completes s t .unsupported ∧ t.mem = s.mem ∧ t.kernel = s.kernel) ∧
    (s.params.realIfftCallsForward = true → exec .ifftCopyR s = exec .fftCopyR s)

/-- R39, R200: what the caches held at the start of a command affects nothing but what the caches hold after it, on every
kernel a configuration makes. -/
def Obligations.CachesNeverMatter : Prop :=
  ∀ (i : Instr) (s t t' : State) (c : Caches), s.kernel.wf s.params → exec i s = .next t →
    exec i { s with caches := c } = .next t' → { t' with caches := t.caches } = t

/-! ## Spectrum commands -/

/-- R220, R63: the rotator moves the element at `i`, as host memory held it at acceptance, to `(i + ⌊L/2⌋) mod L`, as bits, for
buffers of either type, and writes nothing outside the buffer; an empty buffer is left alone. (The contents are claimed with
`PF = 1` too, where R243 claims nothing about host buffers: log entry 26.) -/
def Obligations.FftshiftRotates : Prop :=
  ∀ s : State, s.mem.wf = true → s.dstRaced = false →
    (∀ d : Desc, d = desc s.inFlight.a0 s.inFlight.a1 .complex → d.passes s.params →
      ∃ t, exec .fftshiftC s = .next t ∧ Completes s t .ok ∧ t.kernel = s.kernel ∧ t.caches = s.caches ∧
        memFrame s t d ∧
        ∀ i, i < d.n →
          readC s.params.prec t.mem d.b ((i + d.n / 2) % d.n) = readC s.params.prec s.accepted d.b i) ∧
    (∀ d : Desc, d = desc s.inFlight.a0 s.inFlight.a1 .real → d.passes s.params →
      ∃ t, exec .fftshiftR s = .next t ∧ Completes s t .ok ∧ t.kernel = s.kernel ∧ t.caches = s.caches ∧
        memFrame s t d ∧
        ∀ i, i < d.n →
          readR s.params.prec t.mem d.b ((i + d.n / 2) % d.n) = readR s.params.prec s.accepted d.b i)

/-- R223, R121: on an even length the rotator is the source's sequence of swaps, and twice is the identity; on any length
twice is the rotation by `2·⌊L/2⌋ mod L`. -/
def Obligations.ShiftPermutation : Prop :=
  ∀ x : List FBits, let L := x.length
    (L % 2 = 0 → shiftArray x = (List.range (L / 2)).foldl (fun y i => swap y i (i + L / 2)) x) ∧
    (L % 2 = 0 → shiftArray (shiftArray x) = x) ∧
    (∀ i, i < L → (shiftArray (shiftArray x))[(i + 2 * (L / 2)) % L]? = x[i]?)

/-- R221, R80: FFTFREQ writes `fmul(df, toT(i))` up to `⌊(L-1)/2⌋` and `fmul(df, toT(i - L))` after, with
`df = fdiv(1, fmul(Δt, toT(L)))`, up to the NaN draws of its own operations, and nothing outside the destination. (The
contents are claimed with `PF = 1` too, where R243 claims nothing about host buffers: log entry 26.) -/
def Obligations.FftfreqWritesGrid : Prop :=
  ∀ s : State, s.mem.wf = true → s.dstRaced = false →
    let p := s.params.prec
    let d := desc s.inFlight.a0 s.inFlight.a1 .real
    let dt := maskT p s.inFlight.a2
    d.passes s.params → ∃ t, exec .fftfreq s = .next t ∧ Completes s t .ok ∧ t.kernel = s.kernel ∧
      t.caches = s.caches ∧ memFrame s t d ∧
      ∃ d0 d1 : Nat,
        let span := (runDraw (fmul p dt (toT p d.n)) d0).1
        let df := (runDraw (fdiv p (fOne p) span) d1).1
        ∀ i, i < d.n → ∃ d2 : Nat,
          readR p t.mem d.b i =
            (runDraw (fmul p df (toT p (if i ≤ (d.n - 1) / 2 then (i : Int) else (i : Int) - d.n))) d2).1

/-- R222, R123: FFTAMPL writes `apy2` of the parts of `spec[i]`, as host memory held them at acceptance, over `toT(⌊L/2⌋)` for
each of its `L` elements, up to the draws of its own operations; `spec` and every other byte stay. (The contents are
claimed with `PF = 1` too, where R243 claims nothing about host buffers: log entry 26.) -/
def Obligations.FftamplWritesAmplitudes : Prop :=
  ∀ s : State, s.mem.wf = true → s.dstRaced = false →
    let p := s.params.prec
    let a := desc s.inFlight.a0 s.inFlight.a1 .real
    let sp := desc s.inFlight.a2 s.inFlight.a3 .complex
    a.passes s.params → sp.passes s.params → a.disjoint s.params sp → a.n ≤ sp.n →
    ∃ t, exec .fftampl s = .next t ∧ Completes s t .ok ∧ t.kernel = s.kernel ∧ t.caches = s.caches ∧
      memFrame s t a ∧
      ∀ i, i < a.n → let z := readC p s.accepted sp.b i
        ∃ w, Gives (apy2 p z.re z.im) w ∧ Gives (fdiv p w (toT p ((a.n / 2 : Nat) : Int))) (readR p t.mem a.b i)

/-! ## Host memory -/

/-- R53: `MemRead` is the little-endian sum of its bytes; `MemWrite` sets byte `a + j` to bits `8j+7 .. 8j` of the value, `MemRead`
gives the value back, and every other byte stays. -/
def Obligations.LittleEndianAccess : Prop :=
  ∀ (m : Memory) (a n v : Nat), m.wf = true → a + n ≤ 2 ^ 64 →
    memRead m a n = (Finset.range n).sum (fun j => (readByte m (a + j)).toNat * 2 ^ (8 * j)) ∧
    memRead (memWrite m a n v) a n = v % 2 ^ (8 * n) ∧
    (∀ j, j < n → readByte (memWrite m a n v) (a + j) = BitVec.ofNat 8 (v / 2 ^ (8 * j))) ∧
    (∀ b, b < a ∨ a + n ≤ b → readByte (memWrite m a n v) b = readByte m b)

/-- R54, R55, R56: element `i` of a complex buffer is its real part at `b + 2W·i` and its imaginary part at `b + 2W·i + W`, of a
real buffer the value at `b + W·i`, each the `W` bytes there as `MemRead` gives them; a write of one element gives that
element back and leaves every other element of the buffer. -/
def Obligations.ElementLayout : Prop :=
  ∀ (p : Prec) (m : Memory) (b i : Nat), m.wf = true →
    let W := if p = .binary64 then 8 else 4
    readC p m b i =
      { re := BitVec.ofNat 64 (memRead m (b + 2 * W * i) W), im := BitVec.ofNat 64 (memRead m (b + 2 * W * i + W) W) } ∧
    readR p m b i = BitVec.ofNat 64 (memRead m (b + W * i) W) ∧
    (∀ z : Cplx, b + 2 * W * (i + 1) ≤ 2 ^ 64 →
      readC p (writeC p m b i z) b i = maskC p z ∧
      (∀ j, j ≠ i → readC p (writeC p m b i z) b j = readC p m b j)) ∧
    (∀ v : FBits, b + W * (i + 1) ≤ 2 ^ 64 →
      readR p (writeR p m b i v) b i = maskT p v ∧
      (∀ j, j ≠ i → readR p (writeR p m b i v) b j = readR p m b j))

/-- R62, R51: the CORE's step writes no byte outside the written extents of the command in flight, and none of a descriptor
that fails its checks. -/
def Obligations.CoreWritesOnlyItsExtents : Prop :=
  ∀ s t : State, s.mem.wf = true → s.nextAgent = .core → step s = .next t → ∀ a,
    (∀ b ∈ s.accessibleInFlight, b.written = true → b.d.covers s.params.prec a = false) →
    readByte t.mem a = readByte s.mem a

/-- R62, R51: the CORE's step reads no byte outside the extents of the command in flight, and none of a descriptor that
fails its checks: two states that differ only in other
bytes of host memory, now and as of acceptance (log entry 33), make the same step, and agree on every byte of the extents
after it. -/
def Obligations.CoreReadsOnlyItsExtents : Prop :=
  ∀ (s s' t t' : State) (m am : Memory), s.mem.wf = true → m.wf = true → s.nextAgent = .core →
    s' = { s with mem := m, latch := s.latch.map (fun l => { l with mem := am }) } →
    (∀ b ∈ s.accessibleInFlight, ∀ a, b.d.covers s.params.prec a = true →
      readByte m a = readByte s.mem a ∧ readByte am a = readByte s.accepted a) →
    step s = .next t → step s' = .next t' →
    { t' with mem := t.mem } = t ∧
    (∀ b ∈ s.accessibleInFlight, ∀ a, b.d.covers s.params.prec a = true → readByte t'.mem a = readByte t.mem a)

/-- R66 (2), (3): a host load of memory returns the bytes memory holds, but for a byte in a written extent of the command in
flight, which is unspecified; it changes nothing but the host's record of it, and with no command in flight draws no free
value. (What a byte nothing has written holds, that addresses which are not admitted are plain memory, the extents counted,
the record and the draws are the model's: log entries 2, 13, 17, 20 and 24.) -/
def Obligations.HostLoadReturnsMemory : Prop :=
  ∀ (s : State) (addr : Word) (n : Nat) (rest : List HostAct), s.nextAgent = .host → s.host.stopped = false →
    addr.toNat + n ≤ 2 ^ 64 → rangesMeet addr.toNat n s.params.ubase.toNat 0x100 = false →
    s.host.program = .load addr n :: rest →
    ∃ (t : State) (bytes : List Byte), step s = .next t ∧ bytes.length = n ∧
      t = { (s.tick.withProgram rest).recordLoad bytes with draws := t.draws } ∧
      (s.latch = none → t.draws = s.draws) ∧
      ∀ j, j < n → bytes[j]? = some
        (if s.inWrittenExtent (addr.toNat + j) then Config.unspecifiedByte s.draws (addr.toNat + j)
          else readByte s.mem (addr.toNat + j))

/-- R66 (4): a host store changes the bytes it stores and no others, except that every extent of the command in flight it
meets is given unspecified bytes (at the store: log entry 5); a race with the written extent is on record, and the CORE's
registers, latch and kernel, and the parameters, stay. (That addresses which are not admitted are plain memory is log entry 13, and the extents counted
are log entry 17.) -/
def Obligations.HostStoreAndRace : Prop :=
  ∀ (s : State) (addr : Word) (bytes : List Byte) (rest : List HostAct), s.mem.wf = true → s.nextAgent = .host →
    s.host.stopped = false → addr.toNat + bytes.length ≤ 2 ^ 64 →
    rangesMeet addr.toNat bytes.length s.params.ubase.toNat 0x100 = false → s.host.program = .store addr bytes :: rest →
    let hit : Nat → Prop := fun a =>
      ∃ b ∈ s.buffersInFlight, rangesMeet addr.toNat bytes.length b.d.b (b.d.size s.params.prec) = true ∧
        b.d.covers s.params.prec a = true
    ∃ t, step s = .next t ∧ t.status = s.status ∧ t.latch = s.latch ∧ t.kernel = s.kernel ∧
      t.a0 = s.a0 ∧ t.a1 = s.a1 ∧ t.a2 = s.a2 ∧ t.a3 = s.a3 ∧ t.params = s.params ∧
      (∀ j, j < bytes.length → ¬hit (addr.toNat + j) → some (readByte t.mem (addr.toNat + j)) = bytes[j]?) ∧
      (∀ a, (a < addr.toNat ∨ addr.toNat + bytes.length ≤ a) → ¬hit a → readByte t.mem a = readByte s.mem a) ∧
      (t.dstRaced = true ↔ s.dstRaced = true ∨ ∃ b ∈ s.buffersInFlight, b.written = true ∧
        rangesMeet addr.toNat bytes.length b.d.b (b.d.size s.params.prec) = true)

/-! ## Whole-machine rules -/

/-- R25: a step changes `STATUS.ERR` only as the completion of a command in flight, or as reset. -/
def Obligations.ErrChangesOnlyAtCompletion : Prop :=
  ∀ s t : State, step s = .next t → t.status.err ≠ s.status.err →
    s.nextAgent = .platform ∨ (s.nextAgent = .core ∧ s.latch.isSome = true ∧ t.status.busy = false)

/-- R27, R243: only reset clears `PF`, and only a host write to `CMD` or `A0..A3` with `BUSY = 1` sets it. -/
def Obligations.ProtocolFaultSticky : Prop :=
  ∀ s t : State, step s = .next t →
    (s.status.pf = true → s.nextAgent ≠ .platform → t.status.pf = true) ∧
    (s.status.pf = false → t.status.pf = true →
      s.nextAgent = .host ∧ s.status.busy = true ∧
        ∃ addr bytes rest, s.host.program = .store addr bytes :: rest ∧
          ∃ off, route s.params addr.toNat bytes.length = .register off ∧ (regAt off).guarded = true)

/-- R273, R274: a step in which the host keeps its duties raises no protocol fault, starts no race, and leaves the extents of
the command in flight as they were at acceptance. -/
def Obligations.DutifulStepsAreClean : Prop :=
  ∀ s t : State, s.mem.wf = true → s.latchWf → s.dutiful = true → s.status.pf = false → s.dstRaced = false → s.current →
    step s = .next t → t.status.pf = false ∧ t.dstRaced = false ∧ t.current

/-- R26, R41, R34 to R38, R145: every step keeps the invariant: memory canonical, `BUSY = 1` exactly with a command latched,
a kernel context some configuration makes, caches within capacity, parameters in range. (The canonical form and
the copy of memory as of acceptance are the model's: log entries 2 and 33. So are the empty `TW` and `CIRC` of no kernel and
the empty `CIRC` of a radix-2 kernel, which R36, R37 and R172 leave unspecified: log entry 7.) -/
def Obligations.StepKeepsInvariant : Prop :=
  ∀ s t : State, s.Inv → step s = .next t → t.Inv ∧ t.params = s.params

/-- R271: the reset state of every well-formed instance meets the invariant. (That `TW` and `CIRC`, which R271 leaves
unspecified, are empty lists at reset is the model's: log entry 7; that memory lists nothing is log entry 2; the instance of
`State.reset` is log entry 1.) -/
def Obligations.ResetMeetsInvariant : Prop :=
  (∀ p : Params, p.wf = true → (State.resetOf p).Inv) ∧ State.reset.Inv
end

