-- ==== Sys2Proof/Laws/Memory.lean ====
section
/-! SUPPORT. Host memory: every operation keeps the canonical form; what a write leaves alone and what it gives back. -/

namespace Sys2Proof.Machine

@[simp] theorem unlistedByte_eq : unlistedByte = 0#8 := rfl

theorem Memory.above_iff {lo : Nat} {m : Memory} : m.above lo = true ↔ ∀ c ∈ m, lo < c.1 := by
  simp [Memory.above]

theorem Memory.above_trans {lo hi : Nat} {m : Memory} (h : lo ≤ hi) (hm : m.above hi = true) :
    m.above lo = true := by
  rw [above_iff] at *
  exact fun c hc => lt_of_le_of_lt h (hm c hc)

theorem Memory.wf_cons {k : Nat} {w : Byte} {rest : Memory} :
    Memory.wf ((k, w) :: rest) = true ↔
      k < 2 ^ 64 ∧ w ≠ unlistedByte ∧ Memory.above k rest = true ∧ Memory.wf rest = true := by
  simp only [Memory.wf, Bool.and_eq_true, decide_eq_true_eq, and_assoc]

theorem Memory.above_consByte {lo a : Nat} {v : Byte} {rest : Memory} (ha : lo < a) (hr : Memory.above lo rest = true) :
    (consByte a v rest).above lo = true := by
  unfold consByte
  split
  · exact hr
  · rw [above_iff] at *
    intro c hc
    rcases List.mem_cons.1 hc with rfl | hc
    · exact ha
    · exact hr c hc

theorem Memory.wf_consByte {a : Nat} {v : Byte} {rest : Memory} (ha : a < 2 ^ 64) (habove : Memory.above a rest = true)
    (hr : Memory.wf rest = true) : (consByte a v rest).wf = true := by
  unfold consByte
  split
  · exact hr
  · next hv => exact wf_cons.2 ⟨ha, hv, habove, hr⟩

theorem Memory.above_writeByte {lo a : Nat} {v : Byte} {m : Memory} (ha : lo < a) (hm : m.above lo = true) :
    (writeByte m a v).above lo = true := by
  induction m with
  | nil => exact above_consByte ha hm
  | cons c rest ih =>
    obtain ⟨k, w⟩ := c
    have hk : lo < k := (above_iff.1 hm) (k, w) (by simp)
    have hr : Memory.above lo rest = true := above_iff.2 fun c hc => (above_iff.1 hm) c (List.mem_cons_of_mem _ hc)
    simp only [writeByte]
    split
    · exact above_consByte ha hm
    · split
      · exact above_consByte ha hr
      · simpa [Memory.above, hk] using ih hr

/-- Writing a byte keeps the canonical form. -/
theorem Memory.wf_writeByte {m : Memory} {a : Nat} {v : Byte} (hm : m.wf = true) (ha : a < 2 ^ 64) :
    (writeByte m a v).wf = true := by
  induction m with
  | nil => exact wf_consByte ha rfl rfl
  | cons c rest ih =>
    obtain ⟨k, w⟩ := c
    obtain ⟨hk, hw, habove, hr⟩ := wf_cons.1 hm
    simp only [writeByte]
    split
    · next hlt =>
      refine wf_consByte ha ?_ hm
      refine above_iff.2 fun c hc => ?_
      rcases List.mem_cons.1 hc with rfl | hc
      · exact hlt
      · exact lt_trans hlt ((above_iff.1 habove) c hc)
    · next hge =>
      split
      · next heq => exact wf_consByte ha (heq ▸ habove) hr
      · next hne => exact wf_cons.2 ⟨hk, hw, above_writeByte (by omega) habove, ih hr⟩

theorem readByte_of_above {m : Memory} {lo a : Nat} (h : m.above lo = true) (ha : a ≤ lo) :
    readByte m a = unlistedByte := by
  cases m with
  | nil => rfl
  | cons c rest =>
    obtain ⟨k, w⟩ := c
    have hk : lo < k := (Memory.above_iff.1 h) (k, w) (by simp)
    simp only [readByte]
    rw [if_neg (by omega), if_pos (by omega)]

theorem readByte_consByte {rest : Memory} {a b : Nat} {v : Byte} (h : Memory.above a rest = true) :
    readByte (consByte a v rest) b = if b = a then v else readByte rest b := by
  unfold consByte
  split
  · next hv =>
    split
    · next hb => rw [readByte_of_above h (by omega), hv]
    · rfl
  · simp only [readByte]
    by_cases he : a = b
    · rw [if_pos he, if_pos he.symm]
    · rw [if_neg he, if_neg (Ne.symm he)]
      split
      · next hlt => rw [readByte_of_above h (by omega)]
      · rfl

/-- Reading after writing one byte: the byte written at its address, and every other address as before. -/
theorem readByte_writeByte {m : Memory} {a b : Nat} {v : Byte} (hm : m.wf = true) :
    readByte (writeByte m a v) b = if b = a then v else readByte m b := by
  induction m with
  | nil => exact readByte_consByte rfl
  | cons c rest ih =>
    obtain ⟨k, w⟩ := c
    obtain ⟨-, -, habove, hr⟩ := Memory.wf_cons.1 hm
    simp only [writeByte]
    split
    · next hlt =>
      refine readByte_consByte (Memory.above_iff.2 fun c hc => ?_)
      rcases List.mem_cons.1 hc with rfl | hc
      · exact hlt
      · exact lt_trans hlt ((Memory.above_iff.1 habove) c hc)
    · next hge =>
      split
      · next heq =>
        subst heq
        rw [readByte_consByte habove]
        simp only [readByte]
        by_cases hb : b = k
        · simp [hb]
        · rw [if_neg hb, if_neg hb, if_neg (Ne.symm hb)]
          split
          · next hlt => exact readByte_of_above habove (by omega)
          · rfl
      · next hne =>
        simp only [readByte]
        rw [ih hr]
        by_cases hb : b = a
        · subst hb
          rw [if_neg hne, if_neg hge]
          simp
        · simp [hb]

/-! Wider writes. -/

theorem Memory.wf_memWrite {n : Nat} : ∀ {m : Memory} {a v : Nat}, m.wf = true → a + n ≤ 2 ^ 64 →
    (memWrite m a n v).wf = true := by
  induction n with
  | zero => exact fun hm _ => hm
  | succ n ih =>
    intro m a v hm ha
    exact ih (wf_writeByte hm (by omega)) (by omega)

/-- A write of `n` bytes leaves every byte outside them alone. -/
theorem readByte_memWrite_outside {n : Nat} : ∀ {m : Memory} {a v b : Nat}, m.wf = true → a + n ≤ 2 ^ 64 →
    (b < a ∨ a + n ≤ b) → readByte (memWrite m a n v) b = readByte m b := by
  induction n with
  | zero => exact fun _ _ _ => rfl
  | succ n ih =>
    intro m a v b hm ha hb
    simp only [memWrite]
    rw [ih (Memory.wf_writeByte hm (by omega)) (by omega) (by omega), readByte_writeByte hm, if_neg (by omega)]

theorem Memory.wf_writeBytes {bs : List Byte} : ∀ {m : Memory} {a : Nat}, m.wf = true → a + bs.length ≤ 2 ^ 64 →
    (writeBytes m a bs).wf = true := by
  induction bs with
  | nil => exact fun hm _ => hm
  | cons v rest ih =>
    intro m a hm ha
    rw [List.length_cons] at ha
    exact ih (wf_writeByte hm (by omega)) (by omega)

theorem Memory.wf_writeT {p : Prec} {m : Memory} {a : Nat} {v : FBits} (hm : m.wf = true)
    (ha : a + width p ≤ 2 ^ 64) : (writeT p m a v).wf = true := wf_memWrite hm ha

theorem Memory.wf_writeC {p : Prec} {m : Memory} {b i : Nat} {z : Cplx} (hm : m.wf = true)
    (h : b + 2 * width p * (i + 1) ≤ 2 ^ 64) : (writeC p m b i z).wf = true := by
  rw [Nat.mul_add, Nat.mul_one] at h
  exact wf_writeT (wf_writeT hm (by omega)) (by omega)

theorem Memory.wf_writeR {p : Prec} {m : Memory} {b i : Nat} {v : FBits} (hm : m.wf = true)
    (h : b + width p * (i + 1) ≤ 2 ^ 64) : (writeR p m b i v).wf = true := by
  rw [Nat.mul_add, Nat.mul_one] at h
  exact wf_writeT hm (by omega)

/-- A fold of memory operations over the indices below `n` keeps the canonical form if each of them does. -/
theorem Memory.wf_foldl_range {f : Memory → Nat → Memory} {n : Nat} {m : Memory} (hm : m.wf = true)
    (hf : ∀ m i, i < n → m.wf = true → (f m i).wf = true) : ((List.range n).foldl f m).wf = true := by
  have key : ∀ (l : List Nat) (m : Memory), (∀ i ∈ l, i < n) → m.wf = true → (l.foldl f m).wf = true := by
    intro l
    induction l with
    | nil => exact fun m _ hm => hm
    | cons i l ih =>
      intro m hl hm
      exact ih _ (fun j hj => hl j (by simp [hj])) (hf m i (hl i (by simp)) hm)
  exact key _ m (fun i hi => List.mem_range.1 hi) hm

theorem Memory.wf_storeC {p : Prec} {m : Memory} {d : Desc} {xb : List Cplx} (hm : m.wf = true)
    (h : d.b + d.n * (2 * width p) ≤ 2 ^ 64) : (storeC p m d xb).wf = true :=
  wf_foldl_range hm fun m i hi hm => wf_writeC hm (by
    have : 2 * width p * (i + 1) ≤ d.n * (2 * width p) := by
      rw [Nat.mul_comm]; exact Nat.mul_le_mul_right _ hi
    omega)

theorem Memory.wf_storeR {p : Prec} {m : Memory} {d : Desc} {xb : List FBits} (hm : m.wf = true)
    (h : d.b + d.n * width p ≤ 2 ^ 64) : (storeR p m d xb).wf = true :=
  wf_foldl_range hm fun m i hi hm => wf_writeR hm (by
    have : width p * (i + 1) ≤ d.n * width p := by
      rw [Nat.mul_comm]; exact Nat.mul_le_mul_right _ hi
    omega)

/-- Every byte that exists of an extent has an address below 2^64. -/
theorem Desc.sizeInSpace_bound {p : Prec} {d : Desc} {j : Nat} (h : j < d.sizeInSpace p) : d.b + j < 2 ^ 64 := by
  have := Nat.lt_of_lt_of_le h (Nat.min_le_right _ _)
  omega

/-- What exists of an extent is no more than the extent. -/
theorem Desc.sizeInSpace_le {p : Prec} {d : Desc} : d.sizeInSpace p ≤ d.size p := Nat.min_le_left _ _

/-- An extent that ends by 2^64 exists whole. -/
theorem Desc.sizeInSpace_eq {p : Prec} {d : Desc} (h : d.b + d.size p ≤ 2 ^ 64) : d.sizeInSpace p = d.size p :=
  Nat.min_eq_left (by omega)

theorem Memory.wf_scramble {keep : Nat → Bool} {m : Memory} {d a n : Nat} (hm : m.wf = true)
    (h : ∀ j, j < n → a + j < 2 ^ 64) : (scramble keep m d a n).wf = true :=
  wf_foldl_range hm fun _ i hi hm => by
    split
    · exact hm
    · exact wf_writeByte hm (h i hi)

theorem Memory.wf_scrambleAll {keep : Nat → Bool} {p : Prec} {d : Nat} {bs : List Buffer} : ∀ {m : Memory}, m.wf = true →
    (scrambleAll keep p d m bs).wf = true := by
  induction bs with
  | nil => exact fun hm => hm
  | cons b bs ih => exact fun hm => ih (wf_scramble hm fun _ => Desc.sizeInSpace_bound)

/-- A byte that is spared, or lies outside the range, is not touched. -/
theorem readByte_scramble_of_kept {keep : Nat → Bool} {m : Memory} {d a n x : Nat} (hm : m.wf = true)
    (h : ∀ j, j < n → a + j < 2 ^ 64) (hx : keep x = true ∨ x < a ∨ a + n ≤ x) :
    readByte (scramble keep m d a n) x = readByte m x := by
  have key : ∀ (l : List Nat) (m : Memory), (∀ i ∈ l, i < n) → m.wf = true →
      readByte (l.foldl (fun m j => if keep (a + j) then m else writeByte m (a + j) (Config.unspecifiedByte d (a + j))) m)
        x = readByte m x := by
    intro l
    induction l with
    | nil => exact fun m _ _ => rfl
    | cons i l ih =>
      intro m hl hm
      have hi := hl i (by simp)
      rw [List.foldl_cons, ih _ (fun j hj => hl j (by simp [hj]))]
      · split
        · rfl
        · next hk =>
          rw [readByte_writeByte hm, if_neg]
          rintro rfl
          rcases hx with hx | hx | hx
          · exact hk hx
          · omega
          · omega
      · split
        · exact hm
        · exact Memory.wf_writeByte hm (h i hi)
  exact key _ m (fun i hi => List.mem_range.1 hi) hm

/-- Reset spares the bytes of read-only extents and everything outside the extents it is given (R270). -/
theorem readByte_scrambleAll_of_kept {keep : Nat → Bool} {p : Prec} {d x : Nat} {bs : List Buffer} :
    ∀ {m : Memory}, m.wf = true → (keep x = true ∨ ∀ b ∈ bs, b.d.covers p x = false) → readByte (scrambleAll keep p d m bs) x = readByte m x := by
  induction bs with
  | nil => exact fun _ _ => rfl
  | cons b bs ih =>
    intro m hm hx
    have hb : ∀ j, j < b.d.sizeInSpace p → b.d.b + j < 2 ^ 64 := fun _ => Desc.sizeInSpace_bound
    rw [scrambleAll, List.foldl_cons]
    refine (ih (m := scramble keep m d b.d.b (b.d.sizeInSpace p)) (Memory.wf_scramble hm hb) ?_).trans ?_
    · exact hx.imp id fun hx y hy => hx y (by simp [hy])
    · refine readByte_scramble_of_kept hm hb (hx.imp id fun hx => ?_)
      have := hx b (by simp)
      have hle := Desc.sizeInSpace_le (p := p) (d := b.d)
      simp only [Desc.covers, Bool.and_eq_false_iff, decide_eq_false_iff_not] at this
      omega

/-- Memory right after reset has the canonical form. -/
theorem Memory.wf_reset (P : Params) : (State.resetOf P).mem.wf = true := rfl

end Sys2Proof.Machine
end

