-- ==== Sys2Proof/Laws/State.lean ====
section
/-! SUPPORT. One lemma per field per named update of State, each true by unfolding, so that no proof unfolds a record
update. -/

namespace Sys2Proof.Machine

variable (s : State)

@[simp] theorem State.accept_params (v : Word) : (s.accept v).params = s.params := rfl
@[simp] theorem State.accept_a0 (v : Word) : (s.accept v).a0 = s.a0 := rfl
@[simp] theorem State.accept_a1 (v : Word) : (s.accept v).a1 = s.a1 := rfl
@[simp] theorem State.accept_a2 (v : Word) : (s.accept v).a2 = s.a2 := rfl
@[simp] theorem State.accept_a3 (v : Word) : (s.accept v).a3 = s.a3 := rfl
@[simp] theorem State.accept_status_err (v : Word) : (s.accept v).status.err = s.status.err := rfl
@[simp] theorem State.accept_status_busy (v : Word) : (s.accept v).status.busy = true := rfl
@[simp] theorem State.accept_status_pf (v : Word) : (s.accept v).status.pf = s.status.pf := rfl
@[simp] theorem State.accept_kernel (v : Word) : (s.accept v).kernel = s.kernel := rfl
@[simp] theorem State.accept_caches (v : Word) : (s.accept v).caches = s.caches := rfl
@[simp] theorem State.accept_sched (v : Word) : (s.accept v).sched = s.sched := rfl
@[simp] theorem State.accept_latch (v : Word) : (s.accept v).latch = some (s.capture v) := rfl
@[simp] theorem State.accept_mem (v : Word) : (s.accept v).mem = s.mem := rfl
@[simp] theorem State.accept_dstRaced (v : Word) : (s.accept v).dstRaced = s.dstRaced := rfl
@[simp] theorem State.accept_draws (v : Word) : (s.accept v).draws = s.draws := rfl
@[simp] theorem State.accept_host_program (v : Word) : (s.accept v).host.program = s.host.program := rfl
@[simp] theorem State.accept_host_reads (v : Word) : (s.accept v).host.reads = s.host.reads := rfl
@[simp] theorem State.accept_host_stopped (v : Word) : (s.accept v).host.stopped = s.host.stopped := rfl
@[simp] theorem State.accept_agenda (v : Word) : (s.accept v).agenda = s.agenda := rfl

@[simp] theorem State.protocolFault_params : (s.protocolFault).params = s.params := rfl
@[simp] theorem State.protocolFault_a0 : (s.protocolFault).a0 = s.a0 := rfl
@[simp] theorem State.protocolFault_a1 : (s.protocolFault).a1 = s.a1 := rfl
@[simp] theorem State.protocolFault_a2 : (s.protocolFault).a2 = s.a2 := rfl
@[simp] theorem State.protocolFault_a3 : (s.protocolFault).a3 = s.a3 := rfl
@[simp] theorem State.protocolFault_status_err : (s.protocolFault).status.err = s.status.err := rfl
@[simp] theorem State.protocolFault_status_busy : (s.protocolFault).status.busy = s.status.busy := rfl
@[simp] theorem State.protocolFault_status_pf : (s.protocolFault).status.pf = true := rfl
@[simp] theorem State.protocolFault_kernel : (s.protocolFault).kernel = s.kernel := rfl
@[simp] theorem State.protocolFault_caches : (s.protocolFault).caches = s.caches := rfl
@[simp] theorem State.protocolFault_sched : (s.protocolFault).sched = s.sched := rfl
@[simp] theorem State.protocolFault_latch : (s.protocolFault).latch = s.latch := rfl
@[simp] theorem State.protocolFault_mem : (s.protocolFault).mem = s.mem := rfl
@[simp] theorem State.protocolFault_dstRaced : (s.protocolFault).dstRaced = s.dstRaced := rfl
@[simp] theorem State.protocolFault_draws : (s.protocolFault).draws = s.draws := rfl
@[simp] theorem State.protocolFault_host_program : (s.protocolFault).host.program = s.host.program := rfl
@[simp] theorem State.protocolFault_host_reads : (s.protocolFault).host.reads = s.host.reads := rfl
@[simp] theorem State.protocolFault_host_stopped : (s.protocolFault).host.stopped = s.host.stopped := rfl
@[simp] theorem State.protocolFault_agenda : (s.protocolFault).agenda = s.agenda := rfl

@[simp] theorem State.complete_params (c : ErrCode) : (s.complete c).params = s.params := rfl
@[simp] theorem State.complete_a0 (c : ErrCode) : (s.complete c).a0 = s.a0 := rfl
@[simp] theorem State.complete_a1 (c : ErrCode) : (s.complete c).a1 = s.a1 := rfl
@[simp] theorem State.complete_a2 (c : ErrCode) : (s.complete c).a2 = s.a2 := rfl
@[simp] theorem State.complete_a3 (c : ErrCode) : (s.complete c).a3 = s.a3 := rfl
@[simp] theorem State.complete_status_err (c : ErrCode) : (s.complete c).status.err = c := rfl
@[simp] theorem State.complete_status_busy (c : ErrCode) : (s.complete c).status.busy = false := rfl
@[simp] theorem State.complete_status_pf (c : ErrCode) : (s.complete c).status.pf = s.status.pf := rfl
@[simp] theorem State.complete_kernel (c : ErrCode) : (s.complete c).kernel = s.kernel := rfl
@[simp] theorem State.complete_caches (c : ErrCode) : (s.complete c).caches = s.caches := rfl
@[simp] theorem State.complete_sched (c : ErrCode) : (s.complete c).sched = s.sched := rfl
@[simp] theorem State.complete_latch (c : ErrCode) : (s.complete c).latch = none := rfl
@[simp] theorem State.complete_mem (c : ErrCode) : (s.complete c).mem = s.mem := rfl
@[simp] theorem State.complete_dstRaced (c : ErrCode) : (s.complete c).dstRaced = false := rfl
@[simp] theorem State.complete_draws (c : ErrCode) : (s.complete c).draws = s.draws := rfl
@[simp] theorem State.complete_host_program (c : ErrCode) : (s.complete c).host.program = s.host.program := rfl
@[simp] theorem State.complete_host_reads (c : ErrCode) : (s.complete c).host.reads = s.host.reads := rfl
@[simp] theorem State.complete_host_stopped (c : ErrCode) : (s.complete c).host.stopped = s.host.stopped := rfl
@[simp] theorem State.complete_agenda (c : ErrCode) : (s.complete c).agenda = s.agenda := rfl

@[simp] theorem State.withMem_params (m : Memory) : (s.withMem m).params = s.params := rfl
@[simp] theorem State.withMem_a0 (m : Memory) : (s.withMem m).a0 = s.a0 := rfl
@[simp] theorem State.withMem_a1 (m : Memory) : (s.withMem m).a1 = s.a1 := rfl
@[simp] theorem State.withMem_a2 (m : Memory) : (s.withMem m).a2 = s.a2 := rfl
@[simp] theorem State.withMem_a3 (m : Memory) : (s.withMem m).a3 = s.a3 := rfl
@[simp] theorem State.withMem_status_err (m : Memory) : (s.withMem m).status.err = s.status.err := rfl
@[simp] theorem State.withMem_status_busy (m : Memory) : (s.withMem m).status.busy = s.status.busy := rfl
@[simp] theorem State.withMem_status_pf (m : Memory) : (s.withMem m).status.pf = s.status.pf := rfl
@[simp] theorem State.withMem_kernel (m : Memory) : (s.withMem m).kernel = s.kernel := rfl
@[simp] theorem State.withMem_caches (m : Memory) : (s.withMem m).caches = s.caches := rfl
@[simp] theorem State.withMem_sched (m : Memory) : (s.withMem m).sched = s.sched := rfl
@[simp] theorem State.withMem_latch (m : Memory) : (s.withMem m).latch = s.latch := rfl
@[simp] theorem State.withMem_mem (m : Memory) : (s.withMem m).mem = m := rfl
@[simp] theorem State.withMem_dstRaced (m : Memory) : (s.withMem m).dstRaced = s.dstRaced := rfl
@[simp] theorem State.withMem_draws (m : Memory) : (s.withMem m).draws = s.draws := rfl
@[simp] theorem State.withMem_host_program (m : Memory) : (s.withMem m).host.program = s.host.program := rfl
@[simp] theorem State.withMem_host_reads (m : Memory) : (s.withMem m).host.reads = s.host.reads := rfl
@[simp] theorem State.withMem_host_stopped (m : Memory) : (s.withMem m).host.stopped = s.host.stopped := rfl
@[simp] theorem State.withMem_agenda (m : Memory) : (s.withMem m).agenda = s.agenda := rfl

@[simp] theorem State.withScratch_params (c : Caches) (x : Sched) (n : Nat) : (s.withScratch c x n).params = s.params := rfl
@[simp] theorem State.withScratch_a0 (c : Caches) (x : Sched) (n : Nat) : (s.withScratch c x n).a0 = s.a0 := rfl
@[simp] theorem State.withScratch_a1 (c : Caches) (x : Sched) (n : Nat) : (s.withScratch c x n).a1 = s.a1 := rfl
@[simp] theorem State.withScratch_a2 (c : Caches) (x : Sched) (n : Nat) : (s.withScratch c x n).a2 = s.a2 := rfl
@[simp] theorem State.withScratch_a3 (c : Caches) (x : Sched) (n : Nat) : (s.withScratch c x n).a3 = s.a3 := rfl
@[simp] theorem State.withScratch_status_err (c : Caches) (x : Sched) (n : Nat) : (s.withScratch c x n).status.err = s.status.err := rfl
@[simp] theorem State.withScratch_status_busy (c : Caches) (x : Sched) (n : Nat) : (s.withScratch c x n).status.busy = s.status.busy := rfl
@[simp] theorem State.withScratch_status_pf (c : Caches) (x : Sched) (n : Nat) : (s.withScratch c x n).status.pf = s.status.pf := rfl
@[simp] theorem State.withScratch_kernel (c : Caches) (x : Sched) (n : Nat) : (s.withScratch c x n).kernel = s.kernel := rfl
@[simp] theorem State.withScratch_caches (c : Caches) (x : Sched) (n : Nat) : (s.withScratch c x n).caches = c := rfl
@[simp] theorem State.withScratch_sched (c : Caches) (x : Sched) (n : Nat) : (s.withScratch c x n).sched = x := rfl
@[simp] theorem State.withScratch_latch (c : Caches) (x : Sched) (n : Nat) : (s.withScratch c x n).latch = s.latch := rfl
@[simp] theorem State.withScratch_mem (c : Caches) (x : Sched) (n : Nat) : (s.withScratch c x n).mem = s.mem := rfl
@[simp] theorem State.withScratch_dstRaced (c : Caches) (x : Sched) (n : Nat) : (s.withScratch c x n).dstRaced = s.dstRaced := rfl
@[simp] theorem State.withScratch_draws (c : Caches) (x : Sched) (n : Nat) : (s.withScratch c x n).draws = n := rfl
@[simp] theorem State.withScratch_host_program (c : Caches) (x : Sched) (n : Nat) : (s.withScratch c x n).host.program = s.host.program := rfl
@[simp] theorem State.withScratch_host_reads (c : Caches) (x : Sched) (n : Nat) : (s.withScratch c x n).host.reads = s.host.reads := rfl
@[simp] theorem State.withScratch_host_stopped (c : Caches) (x : Sched) (n : Nat) : (s.withScratch c x n).host.stopped = s.host.stopped := rfl
@[simp] theorem State.withScratch_agenda (c : Caches) (x : Sched) (n : Nat) : (s.withScratch c x n).agenda = s.agenda := rfl

@[simp] theorem State.withDraws_params (n : Nat) : (s.withDraws n).params = s.params := rfl
@[simp] theorem State.withDraws_a0 (n : Nat) : (s.withDraws n).a0 = s.a0 := rfl
@[simp] theorem State.withDraws_a1 (n : Nat) : (s.withDraws n).a1 = s.a1 := rfl
@[simp] theorem State.withDraws_a2 (n : Nat) : (s.withDraws n).a2 = s.a2 := rfl
@[simp] theorem State.withDraws_a3 (n : Nat) : (s.withDraws n).a3 = s.a3 := rfl
@[simp] theorem State.withDraws_status_err (n : Nat) : (s.withDraws n).status.err = s.status.err := rfl
@[simp] theorem State.withDraws_status_busy (n : Nat) : (s.withDraws n).status.busy = s.status.busy := rfl
@[simp] theorem State.withDraws_status_pf (n : Nat) : (s.withDraws n).status.pf = s.status.pf := rfl
@[simp] theorem State.withDraws_kernel (n : Nat) : (s.withDraws n).kernel = s.kernel := rfl
@[simp] theorem State.withDraws_caches (n : Nat) : (s.withDraws n).caches = s.caches := rfl
@[simp] theorem State.withDraws_sched (n : Nat) : (s.withDraws n).sched = s.sched := rfl
@[simp] theorem State.withDraws_latch (n : Nat) : (s.withDraws n).latch = s.latch := rfl
@[simp] theorem State.withDraws_mem (n : Nat) : (s.withDraws n).mem = s.mem := rfl
@[simp] theorem State.withDraws_dstRaced (n : Nat) : (s.withDraws n).dstRaced = s.dstRaced := rfl
@[simp] theorem State.withDraws_draws (n : Nat) : (s.withDraws n).draws = n := rfl
@[simp] theorem State.withDraws_host_program (n : Nat) : (s.withDraws n).host.program = s.host.program := rfl
@[simp] theorem State.withDraws_host_reads (n : Nat) : (s.withDraws n).host.reads = s.host.reads := rfl
@[simp] theorem State.withDraws_host_stopped (n : Nat) : (s.withDraws n).host.stopped = s.host.stopped := rfl
@[simp] theorem State.withDraws_agenda (n : Nat) : (s.withDraws n).agenda = s.agenda := rfl

@[simp] theorem State.withKernel_params (k : Kernel) : (s.withKernel k).params = s.params := rfl
@[simp] theorem State.withKernel_a0 (k : Kernel) : (s.withKernel k).a0 = s.a0 := rfl
@[simp] theorem State.withKernel_a1 (k : Kernel) : (s.withKernel k).a1 = s.a1 := rfl
@[simp] theorem State.withKernel_a2 (k : Kernel) : (s.withKernel k).a2 = s.a2 := rfl
@[simp] theorem State.withKernel_a3 (k : Kernel) : (s.withKernel k).a3 = s.a3 := rfl
@[simp] theorem State.withKernel_status_err (k : Kernel) : (s.withKernel k).status.err = s.status.err := rfl
@[simp] theorem State.withKernel_status_busy (k : Kernel) : (s.withKernel k).status.busy = s.status.busy := rfl
@[simp] theorem State.withKernel_status_pf (k : Kernel) : (s.withKernel k).status.pf = s.status.pf := rfl
@[simp] theorem State.withKernel_kernel (k : Kernel) : (s.withKernel k).kernel = k := rfl
@[simp] theorem State.withKernel_caches (k : Kernel) : (s.withKernel k).caches = s.caches := rfl
@[simp] theorem State.withKernel_sched (k : Kernel) : (s.withKernel k).sched = s.sched := rfl
@[simp] theorem State.withKernel_latch (k : Kernel) : (s.withKernel k).latch = s.latch := rfl
@[simp] theorem State.withKernel_mem (k : Kernel) : (s.withKernel k).mem = s.mem := rfl
@[simp] theorem State.withKernel_dstRaced (k : Kernel) : (s.withKernel k).dstRaced = s.dstRaced := rfl
@[simp] theorem State.withKernel_draws (k : Kernel) : (s.withKernel k).draws = s.draws := rfl
@[simp] theorem State.withKernel_host_program (k : Kernel) : (s.withKernel k).host.program = s.host.program := rfl
@[simp] theorem State.withKernel_host_reads (k : Kernel) : (s.withKernel k).host.reads = s.host.reads := rfl
@[simp] theorem State.withKernel_host_stopped (k : Kernel) : (s.withKernel k).host.stopped = s.host.stopped := rfl
@[simp] theorem State.withKernel_agenda (k : Kernel) : (s.withKernel k).agenda = s.agenda := rfl

@[simp] theorem State.recordLoad_params (b : List Byte) : (s.recordLoad b).params = s.params := rfl
@[simp] theorem State.recordLoad_a0 (b : List Byte) : (s.recordLoad b).a0 = s.a0 := rfl
@[simp] theorem State.recordLoad_a1 (b : List Byte) : (s.recordLoad b).a1 = s.a1 := rfl
@[simp] theorem State.recordLoad_a2 (b : List Byte) : (s.recordLoad b).a2 = s.a2 := rfl
@[simp] theorem State.recordLoad_a3 (b : List Byte) : (s.recordLoad b).a3 = s.a3 := rfl
@[simp] theorem State.recordLoad_status_err (b : List Byte) : (s.recordLoad b).status.err = s.status.err := rfl
@[simp] theorem State.recordLoad_status_busy (b : List Byte) : (s.recordLoad b).status.busy = s.status.busy := rfl
@[simp] theorem State.recordLoad_status_pf (b : List Byte) : (s.recordLoad b).status.pf = s.status.pf := rfl
@[simp] theorem State.recordLoad_kernel (b : List Byte) : (s.recordLoad b).kernel = s.kernel := rfl
@[simp] theorem State.recordLoad_caches (b : List Byte) : (s.recordLoad b).caches = s.caches := rfl
@[simp] theorem State.recordLoad_sched (b : List Byte) : (s.recordLoad b).sched = s.sched := rfl
@[simp] theorem State.recordLoad_latch (b : List Byte) : (s.recordLoad b).latch = s.latch := rfl
@[simp] theorem State.recordLoad_mem (b : List Byte) : (s.recordLoad b).mem = s.mem := rfl
@[simp] theorem State.recordLoad_dstRaced (b : List Byte) : (s.recordLoad b).dstRaced = s.dstRaced := rfl
@[simp] theorem State.recordLoad_draws (b : List Byte) : (s.recordLoad b).draws = s.draws := rfl
@[simp] theorem State.recordLoad_host_program (b : List Byte) : (s.recordLoad b).host.program = s.host.program := rfl
@[simp] theorem State.recordLoad_host_reads (b : List Byte) : (s.recordLoad b).host.reads = b :: s.host.reads := rfl
@[simp] theorem State.recordLoad_host_stopped (b : List Byte) : (s.recordLoad b).host.stopped = s.host.stopped := rfl
@[simp] theorem State.recordLoad_agenda (b : List Byte) : (s.recordLoad b).agenda = s.agenda := rfl

@[simp] theorem State.withProgram_params (p : List HostAct) : (s.withProgram p).params = s.params := rfl
@[simp] theorem State.withProgram_a0 (p : List HostAct) : (s.withProgram p).a0 = s.a0 := rfl
@[simp] theorem State.withProgram_a1 (p : List HostAct) : (s.withProgram p).a1 = s.a1 := rfl
@[simp] theorem State.withProgram_a2 (p : List HostAct) : (s.withProgram p).a2 = s.a2 := rfl
@[simp] theorem State.withProgram_a3 (p : List HostAct) : (s.withProgram p).a3 = s.a3 := rfl
@[simp] theorem State.withProgram_status_err (p : List HostAct) : (s.withProgram p).status.err = s.status.err := rfl
@[simp] theorem State.withProgram_status_busy (p : List HostAct) : (s.withProgram p).status.busy = s.status.busy := rfl
@[simp] theorem State.withProgram_status_pf (p : List HostAct) : (s.withProgram p).status.pf = s.status.pf := rfl
@[simp] theorem State.withProgram_kernel (p : List HostAct) : (s.withProgram p).kernel = s.kernel := rfl
@[simp] theorem State.withProgram_caches (p : List HostAct) : (s.withProgram p).caches = s.caches := rfl
@[simp] theorem State.withProgram_sched (p : List HostAct) : (s.withProgram p).sched = s.sched := rfl
@[simp] theorem State.withProgram_latch (p : List HostAct) : (s.withProgram p).latch = s.latch := rfl
@[simp] theorem State.withProgram_mem (p : List HostAct) : (s.withProgram p).mem = s.mem := rfl
@[simp] theorem State.withProgram_dstRaced (p : List HostAct) : (s.withProgram p).dstRaced = s.dstRaced := rfl
@[simp] theorem State.withProgram_draws (p : List HostAct) : (s.withProgram p).draws = s.draws := rfl
@[simp] theorem State.withProgram_host_program (p : List HostAct) : (s.withProgram p).host.program = p := rfl
@[simp] theorem State.withProgram_host_reads (p : List HostAct) : (s.withProgram p).host.reads = s.host.reads := rfl
@[simp] theorem State.withProgram_host_stopped (p : List HostAct) : (s.withProgram p).host.stopped = s.host.stopped := rfl
@[simp] theorem State.withProgram_agenda (p : List HostAct) : (s.withProgram p).agenda = s.agenda := rfl

@[simp] theorem State.stopHost_params : (s.stopHost).params = s.params := rfl
@[simp] theorem State.stopHost_a0 : (s.stopHost).a0 = s.a0 := rfl
@[simp] theorem State.stopHost_a1 : (s.stopHost).a1 = s.a1 := rfl
@[simp] theorem State.stopHost_a2 : (s.stopHost).a2 = s.a2 := rfl
@[simp] theorem State.stopHost_a3 : (s.stopHost).a3 = s.a3 := rfl
@[simp] theorem State.stopHost_status_err : (s.stopHost).status.err = s.status.err := rfl
@[simp] theorem State.stopHost_status_busy : (s.stopHost).status.busy = s.status.busy := rfl
@[simp] theorem State.stopHost_status_pf : (s.stopHost).status.pf = s.status.pf := rfl
@[simp] theorem State.stopHost_kernel : (s.stopHost).kernel = s.kernel := rfl
@[simp] theorem State.stopHost_caches : (s.stopHost).caches = s.caches := rfl
@[simp] theorem State.stopHost_sched : (s.stopHost).sched = s.sched := rfl
@[simp] theorem State.stopHost_latch : (s.stopHost).latch = s.latch := rfl
@[simp] theorem State.stopHost_mem : (s.stopHost).mem = s.mem := rfl
@[simp] theorem State.stopHost_dstRaced : (s.stopHost).dstRaced = s.dstRaced := rfl
@[simp] theorem State.stopHost_draws : (s.stopHost).draws = s.draws := rfl
@[simp] theorem State.stopHost_host_program : (s.stopHost).host.program = s.host.program := rfl
@[simp] theorem State.stopHost_host_reads : (s.stopHost).host.reads = s.host.reads := rfl
@[simp] theorem State.stopHost_host_stopped : (s.stopHost).host.stopped = true := rfl
@[simp] theorem State.stopHost_agenda : (s.stopHost).agenda = s.agenda := rfl

@[simp] theorem State.tick_params : (s.tick).params = s.params := rfl
@[simp] theorem State.tick_a0 : (s.tick).a0 = s.a0 := rfl
@[simp] theorem State.tick_a1 : (s.tick).a1 = s.a1 := rfl
@[simp] theorem State.tick_a2 : (s.tick).a2 = s.a2 := rfl
@[simp] theorem State.tick_a3 : (s.tick).a3 = s.a3 := rfl
@[simp] theorem State.tick_status_err : (s.tick).status.err = s.status.err := rfl
@[simp] theorem State.tick_status_busy : (s.tick).status.busy = s.status.busy := rfl
@[simp] theorem State.tick_status_pf : (s.tick).status.pf = s.status.pf := rfl
@[simp] theorem State.tick_kernel : (s.tick).kernel = s.kernel := rfl
@[simp] theorem State.tick_caches : (s.tick).caches = s.caches := rfl
@[simp] theorem State.tick_sched : (s.tick).sched = s.sched := rfl
@[simp] theorem State.tick_latch : (s.tick).latch = s.latch := rfl
@[simp] theorem State.tick_mem : (s.tick).mem = s.mem := rfl
@[simp] theorem State.tick_dstRaced : (s.tick).dstRaced = s.dstRaced := rfl
@[simp] theorem State.tick_draws : (s.tick).draws = s.draws := rfl
@[simp] theorem State.tick_host_program : (s.tick).host.program = s.host.program := rfl
@[simp] theorem State.tick_host_reads : (s.tick).host.reads = s.host.reads := rfl
@[simp] theorem State.tick_host_stopped : (s.tick).host.stopped = s.host.stopped := rfl
@[simp] theorem State.tick_agenda : (s.tick).agenda = s.agenda.tail := rfl

@[simp] theorem State.accept_host (v : Word) : (s.accept v).host = s.host := rfl
@[simp] theorem State.protocolFault_host : (s.protocolFault).host = s.host := rfl
@[simp] theorem State.complete_host (c : ErrCode) : (s.complete c).host = s.host := rfl
@[simp] theorem State.withMem_status (m : Memory) : (s.withMem m).status = s.status := rfl
@[simp] theorem State.withMem_host (m : Memory) : (s.withMem m).host = s.host := rfl
@[simp] theorem State.withScratch_status (c : Caches) (x : Sched) (n : Nat) : (s.withScratch c x n).status = s.status := rfl
@[simp] theorem State.withScratch_host (c : Caches) (x : Sched) (n : Nat) : (s.withScratch c x n).host = s.host := rfl
@[simp] theorem State.withDraws_status (n : Nat) : (s.withDraws n).status = s.status := rfl
@[simp] theorem State.withDraws_host (n : Nat) : (s.withDraws n).host = s.host := rfl
@[simp] theorem State.withKernel_status (k : Kernel) : (s.withKernel k).status = s.status := rfl
@[simp] theorem State.withKernel_host (k : Kernel) : (s.withKernel k).host = s.host := rfl
@[simp] theorem State.recordLoad_status (b : List Byte) : (s.recordLoad b).status = s.status := rfl
@[simp] theorem State.withProgram_status (p : List HostAct) : (s.withProgram p).status = s.status := rfl
@[simp] theorem State.stopHost_status : (s.stopHost).status = s.status := rfl
@[simp] theorem State.tick_status : (s.tick).status = s.status := rfl
@[simp] theorem State.tick_host : (s.tick).host = s.host := rfl

/-! Host memory as of acceptance (R63). -/

theorem State.accepted_of_idle {s : State} (h : s.latch = none) : s.accepted = s.mem := by
  simp [State.accepted, State.inFlight, h, State.capture]
theorem State.accepted_of_latch {s : State} {l : Latch} (h : s.latch = some l) : s.accepted = l.mem := by
  simp [State.accepted, State.inFlight, h]
@[simp] theorem State.capture_mem (v : Word) : (s.capture v).mem = s.mem := rfl
@[simp] theorem State.accept_accepted (v : Word) : (s.accept v).accepted = s.mem := rfl
@[simp] theorem State.protocolFault_accepted : (s.protocolFault).accepted = s.accepted := rfl
@[simp] theorem State.complete_accepted (c : ErrCode) : (s.complete c).accepted = s.mem := rfl
@[simp] theorem State.withScratch_accepted (c : Caches) (x : Sched) (n : Nat) :
    (s.withScratch c x n).accepted = s.accepted := rfl
@[simp] theorem State.withDraws_accepted (n : Nat) : (s.withDraws n).accepted = s.accepted := rfl
@[simp] theorem State.withKernel_accepted (k : Kernel) : (s.withKernel k).accepted = s.accepted := rfl
@[simp] theorem State.recordLoad_accepted (b : List Byte) : (s.recordLoad b).accepted = s.accepted := rfl
@[simp] theorem State.withProgram_accepted (p : List HostAct) : (s.withProgram p).accepted = s.accepted := rfl
@[simp] theorem State.stopHost_accepted : (s.stopHost).accepted = s.accepted := rfl
@[simp] theorem State.tick_accepted : (s.tick).accepted = s.accepted := rfl

end Sys2Proof.Machine
end

