-- ==== Sys2Proof/Laws/Exec.lean ====
section
/-! SUPPORT. What a completion step can do, said once: every command is `conclude` of its status code and its effect, and
no effect touches the operand registers, `STATUS`, the latch or the host. -/

namespace Sys2Proof.Machine

/-- The effect each command has with status `OK`, started in state `s`. -/
def effectOf (s : State) : Instr → State → State
  | .cfgR2 => cfgR2Effect s.inFlight
  | .cfgBs => cfgBsEffect s.inFlight
  | .release => releaseEffect
  | .fft => transformEffect false (inPlaceDesc s.inFlight) (inPlaceDesc s.inFlight)
  | .ifft => transformEffect true (inPlaceDesc s.inFlight) (inPlaceDesc s.inFlight)
  | .fftCopyC => transformEffect false (firstDesc s.inFlight .complex) (secondDesc s.inFlight)
  | .fftCopyR => transformEffect false (firstDesc s.inFlight .real) (secondDesc s.inFlight)
  | .ifftCopyC => transformEffect true (firstDesc s.inFlight .complex) (secondDesc s.inFlight)
  | .ifftCopyR =>
    transformEffect (realIfftInverse s.params) (firstDesc s.inFlight .real) (secondDesc s.inFlight)
  | .fftshiftC => shiftEffect (firstDesc s.inFlight .complex)
  | .fftshiftR => shiftEffect (firstDesc s.inFlight .real)
  | .fftfreq => freqEffect (firstDesc s.inFlight .real) (timeStep s.params s.inFlight)
  | .fftampl => amplEffect (firstDesc s.inFlight .real) (secondDesc s.inFlight)

/-- Every command is its status code and its effect. -/
theorem exec_eq_conclude (i : Instr) (s : State) :
    exec i s = conclude s (statusCode s s.inFlight i) (effectOf s i) := by
  cases i <;> rfl

@[simp] theorem conclude_ok (s : State) (f : State → State) : conclude s .ok f = .next ((f s).complete .ok) := rfl

theorem conclude_error {s : State} {c : ErrCode} {f : State → State} (h : c ≠ .ok) :
    conclude s c f = .next (s.complete c) := by
  simp [conclude, h]

/-- A command whose checks pass completes with its effect. -/
theorem exec_of_ok {i : Instr} {s : State} (h : statusCode s s.inFlight i = .ok) :
    exec i s = .next ((effectOf s i s).complete .ok) := by
  rw [exec_eq_conclude, h, conclude_ok]

/-- A command whose checks fail completes with its code and nothing else. -/
theorem exec_of_error {i : Instr} {s : State} (h : statusCode s s.inFlight i ≠ .ok) :
    exec i s = .next (s.complete (statusCode s s.inFlight i)) := by
  rw [exec_eq_conclude, conclude_error h]

/-- The one inversion of a completion step. -/
theorem exec_cases {i : Instr} {s t : State} (h : exec i s = .next t) :
    (statusCode s s.inFlight i = .ok ∧ t = (effectOf s i s).complete .ok) ∨
      (statusCode s s.inFlight i ≠ .ok ∧ t = s.complete (statusCode s s.inFlight i)) := by
  by_cases hc : statusCode s s.inFlight i = .ok
  · rw [exec_of_ok hc] at h
    exact .inl ⟨hc, (Host.Outcome.next.inj h).symm⟩
  · rw [exec_of_error hc] at h
    exact .inr ⟨hc, (Host.Outcome.next.inj h).symm⟩

/-! Check lists. -/

@[simp] theorem firstFailing_nil : firstFailing [] = .ok := rfl

@[simp] theorem firstFailing_cons (b : Bool) (c : ErrCode) (rest : List (Bool × ErrCode)) :
    firstFailing ((b, c) :: rest) = if b then c else firstFailing rest := rfl

/-- No failing check: the status is `OK` exactly when every check passes, for checks whose codes are errors. -/
theorem firstFailing_eq_ok {l : List (Bool × ErrCode)} (h : ∀ x ∈ l, x.2 ≠ .ok) :
    firstFailing l = .ok ↔ ∀ x ∈ l, x.1 = false := by
  induction l with
  | nil => simp
  | cons x l ih =>
    obtain ⟨b, c⟩ := x
    have hc : c ≠ .ok := h (b, c) (by simp)
    have ih := ih fun y hy => h y (by simp [hy])
    cases b
    · simpa using ih
    · simp [hc]

/-! What no effect touches. -/

/-- The state outside kernel, caches, scheduler, memory and draws. -/
structure SameOutside (s t : State) : Prop where
  params : t.params = s.params
  a0 : t.a0 = s.a0
  a1 : t.a1 = s.a1
  a2 : t.a2 = s.a2
  a3 : t.a3 = s.a3
  status : t.status = s.status
  latch : t.latch = s.latch
  dstRaced : t.dstRaced = s.dstRaced
  host : t.host = s.host
  agenda : t.agenda = s.agenda

theorem SameOutside.refl (s : State) : SameOutside s s := by constructor <;> rfl

theorem SameOutside.trans {s t u : State} (h : SameOutside s t) (k : SameOutside t u) : SameOutside s u :=
  ⟨k.params.trans h.params, k.a0.trans h.a0, k.a1.trans h.a1, k.a2.trans h.a2, k.a3.trans h.a3,
    k.status.trans h.status, k.latch.trans h.latch, k.dstRaced.trans h.dstRaced, k.host.trans h.host,
    k.agenda.trans h.agenda⟩

theorem writeBack_same (s : State) (d : Desc) (m : Memory) : SameOutside s (s.writeBack d m) := by
  unfold State.writeBack
  split <;> constructor <;> rfl

@[simp] theorem writeBack_kernel (s : State) (d : Desc) (m : Memory) : (s.writeBack d m).kernel = s.kernel := by
  unfold State.writeBack
  split <;> rfl

@[simp] theorem writeBack_caches (s : State) (d : Desc) (m : Memory) : (s.writeBack d m).caches = s.caches := by
  unfold State.writeBack
  split <;> rfl

theorem writeBack_mem_of_not_dstRaced {s : State} {d : Desc} {m : Memory} (h : s.dstRaced = false) :
    (s.writeBack d m).mem = m := by
  simp [State.writeBack, h]

theorem configure_same (kind : KernelKind) (N E : Nat) (circ : List Cplx) (s : State) :
    SameOutside s (configure kind N E circ s) := by constructor <;> rfl

@[simp] theorem configure_mem (kind : KernelKind) (N E : Nat) (circ : List Cplx) (s : State) :
    (configure kind N E circ s).mem = s.mem := rfl

theorem engineFwd_same (s : State) (xb : List Cplx) : SameOutside s (engineFwd s xb).2 := by
  unfold engineFwd
  split <;> constructor <;> rfl

theorem engineInv_same (s : State) (xb : List Cplx) : SameOutside s (engineInv s xb).2 := by
  constructor <;> rfl

theorem engine_same (inverse : Bool) (s : State) (xb : List Cplx) : SameOutside s (engine inverse s xb).2 := by
  cases inverse
  · exact engineFwd_same s xb
  · exact engineInv_same s xb

@[simp] theorem engine_mem (inverse : Bool) (s : State) (xb : List Cplx) : (engine inverse s xb).2.mem = s.mem := by
  cases inverse
  · show (engineFwd s xb).2.mem = s.mem
    unfold engineFwd
    split <;> rfl
  · rfl

@[simp] theorem engine_kernel (inverse : Bool) (s : State) (xb : List Cplx) :
    (engine inverse s xb).2.kernel = s.kernel := by
  cases inverse
  · show (engineFwd s xb).2.kernel = s.kernel
    unfold engineFwd
    split <;> rfl
  · rfl

theorem transformEffect_same (inverse : Bool) (src dst : Desc) (s : State) :
    SameOutside s (transformEffect inverse src dst s) :=
  (engine_same inverse s _).trans (writeBack_same _ _ _)

theorem shiftEffect_same (d : Desc) (s : State) : SameOutside s (shiftEffect d s) := by
  unfold shiftEffect
  split
  · exact .refl s
  · split <;> exact writeBack_same _ _ _

theorem withDraws_same (s : State) (n : Nat) : SameOutside s (s.withDraws n) := by constructor <;> rfl

theorem freqEffect_same (d : Desc) (dt : FBits) (s : State) : SameOutside s (freqEffect d dt s) := by
  unfold freqEffect
  split
  · exact .refl s
  · exact (withDraws_same s _).trans (writeBack_same _ _ _)

theorem amplEffect_same (a sp : Desc) (s : State) : SameOutside s (amplEffect a sp s) := by
  unfold amplEffect
  split
  · exact .refl s
  · exact (withDraws_same s _).trans (writeBack_same _ _ _)

/-- No command's effect touches the operand registers, `STATUS`, the latch, the parameters or the host (R22, R241). -/
theorem effectOf_same (s : State) (i : Instr) (u : State) : SameOutside u (effectOf s i u) := by
  cases i
  case cfgR2 => exact configure_same _ _ _ _ _
  case cfgBs => exact configure_same _ _ _ _ _
  case release => constructor <;> rfl
  case fft => exact transformEffect_same _ _ _ _
  case ifft => exact transformEffect_same _ _ _ _
  case fftCopyC => exact transformEffect_same _ _ _ _
  case fftCopyR => exact transformEffect_same _ _ _ _
  case ifftCopyC => exact transformEffect_same _ _ _ _
  case ifftCopyR => exact transformEffect_same _ _ _ _
  case fftshiftC => exact shiftEffect_same _ _
  case fftshiftR => exact shiftEffect_same _ _
  case fftfreq => exact freqEffect_same _ _ _
  case fftampl => exact amplEffect_same _ _ _

end Sys2Proof.Machine
end

