-- ==== Sys2Proof/Laws/PerInstr.lean ====
section
/-! SUPPORT. The family TableWord: each command's encoder word is its row of the opcode table (R84), and its fields are
legal (R81). -/

namespace Sys2Proof.Laws.TableWord

/-- The `match` value of the command's row in spec/opcode_table.json. -/
def row : Instr → Word
  | .cfgR2 => 0x0000000000000001
  | .cfgBs => 0x0000000000000002
  | .release => 0x0000000000000003
  | .fft => 0x0000000000000010
  | .ifft => 0x0000000000000011
  | .fftCopyC => 0x0000000000000012
  | .fftCopyR => 0x0000000000000112
  | .ifftCopyC => 0x0000000000000013
  | .ifftCopyR => 0x0000000000000113
  | .fftshiftC => 0x0000000000000020
  | .fftshiftR => 0x0000000000000120
  | .fftfreq => 0x0000000000000021
  | .fftampl => 0x0000000000000022

/-- The encoder gives the table's word, whose fields are the command's and are legal. -/
def Statement (i : Instr) : Prop :=
  encode i = row i ∧ fieldsOf (row i) = i.fields ∧ i.wf = true

theorem cfgR2 : Statement .cfgR2 := by unfold Statement; decide
theorem cfgBs : Statement .cfgBs := by unfold Statement; decide
theorem release : Statement .release := by unfold Statement; decide
theorem fft : Statement .fft := by unfold Statement; decide
theorem ifft : Statement .ifft := by unfold Statement; decide
theorem fftCopyC : Statement .fftCopyC := by unfold Statement; decide
theorem fftCopyR : Statement .fftCopyR := by unfold Statement; decide
theorem ifftCopyC : Statement .ifftCopyC := by unfold Statement; decide
theorem ifftCopyR : Statement .ifftCopyR := by unfold Statement; decide
theorem fftshiftC : Statement .fftshiftC := by unfold Statement; decide
theorem fftshiftR : Statement .fftshiftR := by unfold Statement; decide
theorem fftfreq : Statement .fftfreq := by unfold Statement; decide
theorem fftampl : Statement .fftampl := by unfold Statement; decide

end Sys2Proof.Laws.TableWord
end

