-- ==== Sys2Proof/Laws/Step.lean ====
section
/-! SUPPORT. What one step can do, said once: the inversion lemmas of the CORE's step, the host's actions, its register
writes and the whole step, and the codes of the check lists. -/

namespace Sys2Proof.Machine

/-- The CORE idles, completes an illegal command, or completes a command (R65, R81, R253). -/
theorem coreStep_cases {s t : State} (h : coreStep s = .next t) :
    (s.latch = none ∧ t = s) ∨
      (∃ l, s.latch = some l ∧ decode l.v = none ∧ t = s.complete .illegalCommand) ∨
      ∃ l i, s.latch = some l ∧ decode l.v = some i ∧ exec i s = .next t := by
  unfold coreStep at h
  split at h
  · exact .inl ⟨‹_›, (Host.Outcome.next.inj h).symm⟩
  · next l hl =>
    split at h
    · next i hi => exact .inr (.inr ⟨l, i, hl, hi, h⟩)
    · next hi =>
      rw [conclude_error (by decide)] at h
      exact .inr (.inl ⟨l, hl, hi, (Host.Outcome.next.inj h).symm⟩)

/-- A step is the host's action, the CORE's step or reset, on the state with its schedule entry taken. -/
theorem step_cases {s t : State} (h : step s = .next t) :
    (s.nextAgent = .host ∧ hostAct s.tick = .next t) ∨ (s.nextAgent = .core ∧ coreStep s.tick = .next t) ∨
      (s.nextAgent = .platform ∧ t = platformReset s.tick) := by
  unfold step at h
  split at h
  · exact .inl ⟨‹_›, h⟩
  · exact .inr (.inl ⟨‹_›, h⟩)
  · exact .inr (.inr ⟨‹_›, (Host.Outcome.next.inj h).symm⟩)

/-- The host is stopped or has nothing to do, stores, loads, or runs `wait` or `check` (R20, R86). -/
theorem hostAct_cases {s t : State} (h : hostAct s = .next t) :
    t = s ∨
      (∃ addr bytes rest, s.host.program = .store addr bytes :: rest ∧
        hostStore (s.withProgram rest) addr bytes = .next t) ∨
      (∃ addr n rest, s.host.program = .load addr n :: rest ∧ hostLoad (s.withProgram rest) addr n = .next t) ∨
      (∃ a rest, s.host.program = a :: rest ∧ (a = .wait ∨ a = .check) ∧ s.status.busy = false ∧
        (t = s.withProgram rest ∨ t = (s.withProgram rest).stopHost)) := by
  unfold hostAct at h
  split at h
  · exact .inl (Host.Outcome.next.inj h).symm
  split at h
  · exact .inl (Host.Outcome.next.inj h).symm
  · next addr bytes rest hp => exact .inr (.inl ⟨addr, bytes, rest, hp, h⟩)
  · next addr n rest hp => exact .inr (.inr (.inl ⟨addr, n, rest, hp, h⟩))
  · next rest hp =>
    split at h
    · exact .inl (Host.Outcome.next.inj h).symm
    · next hb =>
      exact .inr (.inr (.inr ⟨_, rest, hp, .inl rfl, by simpa using hb, .inl (Host.Outcome.next.inj h).symm⟩))
  · next rest hp =>
    split at h
    · exact .inl (Host.Outcome.next.inj h).symm
    · next hb =>
      have hb : s.status.busy = false := by simpa using hb
      split at h
      · exact .inr (.inr (.inr ⟨_, rest, hp, .inr rfl, hb, .inr (Host.Outcome.next.inj h).symm⟩))
      · exact .inr (.inr (.inr ⟨_, rest, hp, .inr rfl, hb, .inl (Host.Outcome.next.inj h).symm⟩))

/-- A host store writes a register or host memory (R20, R77). -/
theorem hostStore_cases {s t : State} {addr : Word} {bytes : List Byte} (h : hostStore s addr bytes = .next t) :
    (∃ off, route s.params addr.toNat bytes.length = .register off ∧
      t = writeReg s (BitVec.ofNat 64 (leValue bytes)) (regAt off)) ∨
    (route s.params addr.toNat bytes.length = .memory ∧ t = hostMemStore s addr.toNat bytes) := by
  unfold hostStore at h
  split at h
  · next off hr => exact .inl ⟨off, hr, (Host.Outcome.next.inj h).symm⟩
  · cases h
  · exact .inr ⟨‹_›, (Host.Outcome.next.inj h).symm⟩
  · cases h

/-- A host load reads a register or host memory (R20, R77). -/
theorem hostLoad_cases {s t : State} {addr : Word} {n : Nat} (h : hostLoad s addr n = .next t) :
    (∃ off, route s.params addr.toNat n = .register off ∧
      t = s.recordLoad (leBytes 8 (readReg s (regAt off)).toNat)) ∨
    (route s.params addr.toNat n = .memory ∧ t = hostMemLoad s addr.toNat n) := by
  unfold hostLoad at h
  split at h
  · next off hr => exact .inl ⟨off, hr, (Host.Outcome.next.inj h).symm⟩
  · cases h
  · exact .inr ⟨‹_›, (Host.Outcome.next.inj h).symm⟩
  · cases h

/-- A host write of an unguarded register changes nothing (R24, R28 to R33). -/
theorem writeReg_of_not_guarded {s : State} {v : Word} {r : Reg} (h : r.guarded = false) : writeReg s v r = s := by
  cases r <;> first | rfl | simp [Reg.guarded] at h

/-- A host write of a guarded register while a command is in flight is a protocol fault (R27). -/
theorem writeReg_of_busy {s : State} {v : Word} {r : Reg} (h : r.guarded = true) (hb : s.status.busy = true) :
    writeReg s v r = s.protocolFault := by
  cases r <;> first | (simp [Reg.guarded] at h; done) | simp [writeReg, whenIdle, hb]

/-- An access that meets no register and stays in the address space goes to host memory (R50). -/
theorem route_memory {P : Params} {a n : Nat} (h : a + n ≤ 2 ^ 64)
    (hm : rangesMeet a n P.ubase.toNat blockSize = false) : route P a n = .memory := by
  unfold route
  simp only [hm]
  rw [if_neg (by omega)]
  rfl

/-- An access routed to host memory stays in the address space. -/
theorem route_memory_bound {P : Params} {a n : Nat} (h : route P a n = .memory) : a + n ≤ 2 ^ 64 := by
  by_contra hn
  unfold route at h
  rw [if_pos (by omega)] at h
  cases h

/-- With no command in flight there is no extent in flight (R57). -/
theorem buffersInFlight_of_idle {s : State} (h : s.latch = none) : s.buffersInFlight = [] := by
  simp [State.buffersInFlight, h]

/-- Every buffer the CORE may access is one of the command in flight (R51, R62). -/
theorem inFlight_of_accessible {s : State} {b : Buffer} (h : b ∈ s.accessibleInFlight) : b ∈ s.buffersInFlight :=
  (List.mem_filter.1 h).1

/-- Every buffer the CORE may access passes its checks (R51, R59, R60). -/
theorem passes_of_accessible {s : State} {b : Buffer} (h : b ∈ s.accessibleInFlight) : b.d.passes s.params := by
  have ha : accessible s.params b.d = true := (List.mem_filter.1 h).2
  intro hn
  simp only [accessible, misaligned, unaddressable, Bool.and_eq_true, Bool.not_eq_true', Bool.and_eq_false_iff,
    Bool.or_eq_false_iff, decide_eq_true_eq, decide_eq_false_iff_not, Bool.not_eq_false'] at ha
  obtain ⟨⟨-, h1⟩, h2⟩ := ha
  refine ⟨?_, ?_, ?_⟩
  · rcases h1 with h1 | h1
    · exact absurd hn h1
    · simpa using h1
  · rcases h2 with h2 | h2
    · exact absurd hn h2
    · omega
  · rcases h2 with h2 | h2
    · exact absurd hn h2
    · exact h2.2

/-- The descriptor checks find nothing exactly when the descriptor passes (R58, R59, R60). -/
theorem passes_iff {P : Params} {d : Desc} :
    d.passes P ↔ misaligned P d = false ∧ unaddressable P d = false := by
  unfold Desc.passes misaligned unaddressable
  rcases Nat.eq_zero_or_pos d.n with h | h
  · simp [h]
  · simp only [h, decide_true, Bool.true_and, forall_const, decide_eq_false_iff_not, not_not, Bool.or_eq_false_iff,
      Bool.not_eq_false']
    constructor
    · rintro ⟨h1, h2, h3⟩
      exact ⟨h1, by omega, h3⟩
    · rintro ⟨h1, h2, h3⟩
      exact ⟨h1, by omega, h3⟩

/-- A host store to host memory that meets no extent of the command in flight is a plain store (R66). -/
theorem hostMemStore_of_clear {s : State} {a : Nat} {bytes : List Byte} (h : s.racedBuffers a bytes.length = []) :
    hostMemStore s a bytes = s.withMem (writeBytes s.mem a bytes) := by
  simp [hostMemStore, h]

/-- A host store races with the written extent exactly when it meets a written buffer (R66 (4); log entry 5). -/
theorem hostMemStore_dstRaced (s : State) (a : Nat) (bytes : List Byte) :
    (hostMemStore s a bytes).dstRaced = (s.dstRaced || (s.racedBuffers a bytes.length).any (fun b => b.written)) := by
  unfold hostMemStore
  cases s.racedBuffers a bytes.length <;> simp

/-- A host store leaves the latch, and with it host memory as of acceptance (R63). -/
theorem hostMemStore_latch (s : State) (a : Nat) (bytes : List Byte) : (hostMemStore s a bytes).latch = s.latch := by
  unfold hostMemStore
  cases s.racedBuffers a bytes.length <;> rfl

end Sys2Proof.Machine
end

