-- ==== Sys2Proof/Tests/Slice0.lean ====
section
/-! SUPPORT. Tests with expected values from the spec's rules and its vectors (95_test_vectors.md), and a witness for the
hypotheses of each statement of Obligations.lean. -/

namespace Sys2Proof.Tests

open Sys2Proof Sys2Proof.Machine

-- One test at a time: many kernel evaluations at once need a thread and its stack each.
set_option Elab.async false

/-! ## Builders -/

/-- Reset state with 64-bit little-endian words in host memory (R53). -/
def put (s : State) (ws : List (Nat × Nat)) : State :=
  s.withMem (ws.foldl (fun m w => memWrite m w.1 8 w.2) s.mem)

/-- `s` with a command and its operands in flight, as acceptance leaves it (R23). -/
def cmd (s : State) (v a0 a1 a2 a3 : Word) : State :=
  State.accept { s with a0 := a0, a1 := a1, a2 := a2, a3 := a3 } v

/-- The `n` words from address `a` after a step that answers a next state. -/
def words (o : Host.Outcome State Fault Refusal) (a n : Nat) : List Nat :=
  match o with
  | .next t => (List.range n).map (fun i => memRead t.mem (a + 8 * i) 8)
  | .fault _ => []
  | .refused _ => []

/-- What a read of a register gives after a step that answers a next state. -/
def reg (o : Host.Outcome State Fault Refusal) (r : Reg) : Option Word :=
  match o with
  | .next t => some (readReg t r)
  | .fault _ => none
  | .refused _ => none

/-- The kernel's tables after a step. -/
def tables (o : Host.Outcome State Fault Refusal) : List Cplx × List Cplx :=
  match o with
  | .next t => (t.kernel.tw, t.kernel.circ)
  | .fault _ => ([], [])
  | .refused _ => ([], [])

def c (re im : Nat) : Cplx := { re := BitVec.ofNat 64 re, im := BitVec.ofNat 64 im }

/-- `1.0` of binary64. -/
def one : Nat := 0x3FF0000000000000

/-- The kernel of `cfg.r2 2` (S1). -/
def kernel2 : Kernel := mkKernel .radix2 2 2 1 [c one 0] []

/-- The kernel of `cfg.r2 4` (S1). -/
def kernel4 : Kernel := mkKernel .radix2 4 4 2 [c one 0, c 0 0xBFF0000000000000] []

/-- `χ(1)` and `χ(2)` of `N = 3` (W3). -/
def chi1 : Cplx := c 0x3FE0000000000000 0x3FEBB67AE8584CAA
def chi2 : Cplx := c 0xBFE0000000000000 0xBFEBB67AE8584CAA

/-- The kernel of `cfg.bs 3` (S1, W3). -/
def kernel3 : Kernel :=
  mkKernel .bluestein 3 4 2 [c one 0, c 0 0xBFF0000000000000] [c one 0, chi1, chi2, chi1]

/-- S2's input at 0x1000. -/
def input4 : List (Nat × Nat) :=
  [(0x1000, one), (0x1010, 0x4000000000000000), (0x1018, 0xBFF0000000000000), (0x1028, 0xBFF0000000000000),
    (0x1030, 0xBFF0000000000000), (0x1038, 0x4000000000000000)]

/-- S2's result at 0x1000. -/
def output4 : List (Nat × Nat) :=
  [(0x1000, 0x4000000000000000), (0x1010, 0xC000000000000000), (0x1018, 0xC000000000000000),
    (0x1028, 0xC000000000000000), (0x1030, 0x4010000000000000), (0x1038, 0x4010000000000000)]

/-- Reset state with a kernel and words in memory. -/
def with_ (k : Kernel) (ws : List (Nat × Nat)) : State := put (State.reset.withKernel k) ws

/-! ## Well-formedness: each check refuses its ill-formed term -/

theorem test_wf_upper_half : CmdFields.wf { op := 0x10, et := false, rsv := 0, hi := 1 } = false := by decide
theorem test_wf_reserved : CmdFields.wf { op := 0x10, et := false, rsv := 1, hi := 0 } = false := by decide
theorem test_wf_unlisted_op : CmdFields.wf { op := 0x04, et := false, rsv := 0, hi := 0 } = false := by decide
theorem test_wf_untyped_op : CmdFields.wf { op := 0x11, et := true, rsv := 0, hi := 0 } = false := by decide
theorem test_wf_typed_op : CmdFields.wf { op := 0x13, et := true, rsv := 0, hi := 0 } = true := by decide
theorem test_wf_line_arity : Line.wf { instr := .fft, operands := [0x1000] } = false := by decide
theorem test_wf_line : Line.wf { instr := .fftfreq, operands := [0x3000, 4, 0x3FD0000000000000] } = true := by decide
theorem test_wf_region_past_end : Region.wf 0x20000 { base := 0x1000, size := 2 ^ 64 } = false := by decide
theorem test_wf_region_on_registers : Region.wf 0x20000 { base := 0x200FF, size := 1 } = false := by decide
theorem test_wf_capacity_low : Params.wf { Params.default with log2Cmax := 1 } = false := by decide
theorem test_wf_capacity_high : Params.wf { Params.default with log2Cmax := 63 } = false := by decide
theorem test_wf_ubase : Params.wf { Params.default with ubase := 0x20008 } = false := by decide
theorem test_wf_params_region :
    Params.wf { Params.default with admitted := [{ base := 0x1FFFF, size := 2 }] } = false := by decide
theorem test_wf_params : Params.default.wf = true := by decide

/-! ## Decoding (R76, R84, R88; G7 to G10) -/

theorem test_decode_cfg_r2 : decode 0b000000001 = some .cfgR2 := by decide
theorem test_decode_cfg_bs : decode 0b000000010 = some .cfgBs := by decide
theorem test_decode_release : decode 0b000000011 = some .release := by decide
theorem test_decode_fft : decode 0b000010000 = some .fft := by decide
theorem test_decode_ifft : decode 0b000010001 = some .ifft := by decide
theorem test_decode_fft_copy_c : decode 0b000010010 = some .fftCopyC := by decide
theorem test_decode_fft_copy_r : decode 0b100010010 = some .fftCopyR := by decide
theorem test_decode_ifft_copy_c : decode 0b000010011 = some .ifftCopyC := by decide
theorem test_decode_ifft_copy_r : decode 0b100010011 = some .ifftCopyR := by decide
theorem test_decode_fftshift_c : decode 0b000100000 = some .fftshiftC := by decide
theorem test_decode_fftshift_r : decode 0b100100000 = some .fftshiftR := by decide
theorem test_decode_fftfreq : decode 0b000100001 = some .fftfreq := by decide
theorem test_decode_fftampl : decode 0b000100010 = some .fftampl := by decide
theorem test_decode_unlisted :
    [0x00000004, 0x00000000, 0x000000FF, 0x00000014, 0x00000023].map decode = [none, none, none, none, none] := by decide
theorem test_decode_untyped :
    [0x00000110, 0x00000101, 0x00000121, 0x00000122].map decode = [none, none, none, none] := by decide
theorem test_decode_reserved : decode 0x00000210 = none ∧ decode 0x80000010 = none := by decide
theorem test_decode_upper : decode 0x0000000100000010 = none ∧ decode 0x8000000000000010 = none := by decide
theorem test_encode_fft_copy_r : encode .fftCopyR = 0x00000112 := by decide
theorem test_table_word : decodeTableWord 32 0x120 = some .fftshiftR ∧ decodeTableWord 64 0x210 = none := by decide
theorem test_fetch_word_runs :
    step (State.reset.withFetchWord 32 0x03) = exec .release (State.reset.withFetchWord 32 0x03).tick := by rfl

/-! ## Scalar units (section 2.1) -/

theorem test_pwr2 : [1, 2, 3, 1023, 1024, 1025, 2 ^ 32 + 1, 2 ^ 63 - 1].map (fun x => (pwr2 x).toOption) =
    [some 0, some 1, some 1, some 9, some 10, some 10, some 32, some 62] := by decide
theorem test_pwr2_domain : (pwr2 0).toOption = none ∧ (pwr2 (-5)).toOption = none := by decide
theorem test_clp2 : [0, 1, 2, 3, 4, 5, 1000, 1025, 2 ^ 62].map clp2 =
    [1, 2, 2, 4, 4, 8, 1024, 2048, 2 ^ 62] := by decide +kernel
theorem test_clp2_word : clp2Word (-5) = 0 ∧ clp2Word (2 ^ 62 + 1) = 0x8000000000000000 := by decide +kernel
theorem test_ispow2 : [-5, 0, 1, 2, 3, 1024, 1025].map ispow2 = [false, false, true, true, false, true, false] := by decide
theorem test_swap : swap [1, 2, 3] 0 2 = [3, 2, 1] := by decide
theorem test_apy2_3_4 :
    (runDraw (apy2 .binary64 0x4008000000000000 0x4010000000000000) 0).1 = 0x4014000000000000 := by decide +kernel
theorem test_apy2_overflow_guard :
    (runDraw (apy2 .binary64 0x7FE1CCF385EBC8A0 0x7FE1CCF385EBC8A0) 0).1 = 0x7FE92C80954C51F5 := by decide +kernel
theorem test_apy2_root2_single :
    (runDraw (apy2 .binary32 0x3F800000 0x3F800000) 0).1 = 0x3FB504F3 := by decide +kernel
theorem test_zero_sums :
    (runDraw (fadd .binary64 0x8000000000000000 0x8000000000000000) 0).1 = 0x8000000000000000 ∧
      (runDraw (fadd .binary64 0x8000000000000000 0) 0).1 = 0 := by decide +kernel
theorem test_cmul : (runDraw (cmul .binary64 (c 0x4008000000000000 0xC008000000000000) (c 0 0xBFF0000000000000)) 0).1 =
    c 0xC008000000000000 0xC008000000000000 := by decide +kernel

/-! ## Tables (W1 to W4) and butterfly (B1) -/

theorem test_twgen_8_double : (runDraw (twgen Params.default 8) 0).1 =
    [c 0x3FF0000000000000 0x0000000000000000, c 0x3FED906BCF328D46 0xBFD87DE2A6AEA963,
      c 0x3FE6A09E667F3BCD 0xBFE6A09E667F3BCD, c 0x3FD87DE2A6AEA963 0xBFED906BCF328D46,
      c 0x0000000000000000 0xBFF0000000000000, c 0xBFD87DE2A6AEA963 0xBFED906BCF328D46,
      c 0xBFE6A09E667F3BCD 0xBFE6A09E667F3BCD, c 0xBFED906BCF328D46 0xBFD87DE2A6AEA963] := by decide +kernel
theorem test_twgen_16_single :
    (runDraw (twgen { Params.default with prec := .binary32 } 16) 0).1.take 5 =
      [c 0x3F800000 0x00000000, c 0x3F7B14BE 0xBE47C5C2, c 0x3F6C835D 0xBEC3EF15, c 0x3F54DB2F 0xBF0E39DA,
        c 0x3F3504F3 0xBF3504F3] := by decide +kernel
theorem test_chgen_3_4 : chgen Params.default 3 4 = [c one 0, chi1, chi2, chi1] := by decide +kernel
theorem test_chgen_5_8 : (chgen Params.default 5 8).drop 3 =
    [c 0x3FE9E3779B97F4A8 0xBFE2CF2304755A5E, c 0xBFE9E3779B97F4A8 0xBFE2CF2304755A5E,
      c 0x3FE9E3779B97F4A8 0xBFE2CF2304755A5E, c 0xBFE9E3779B97F4A8 0x3FE2CF2304755A5E,
      c 0x3FE9E3779B97F4A8 0x3FE2CF2304755A5E] := by decide +kernel
theorem test_ctb_b1 :
    (runDraw (ctb .binary64 kernel4.tw [cZero, cZero, cZero, cZero]
      [c one 0, c 0x4000000000000000 0xBFF0000000000000, c 0 0xBFF0000000000000,
        c 0xBFF0000000000000 0x4000000000000000] 0 2 2 2 1) 0).1 =
      [c one 0xBFF0000000000000, c one one, c one one, c 0xC008000000000000 0xC008000000000000] := by decide +kernel

/-! ## Commands, one step each -/

theorem test_cfg_r2_8 : let o := step (cmd State.reset 0x01 8 0 0 0)
    reg o .kinfo = some 0x305 ∧ reg o .fftsize = some 8 ∧ reg o .extsize = some 8 ∧ reg o .status = some 0 ∧
      (tables o).1.length = 4 := by decide +kernel
theorem test_cfg_r2_negative : reg (step (cmd State.reset 0x01 0xFFFFFFFFFFFFFFFC 0 0 0)) .status = some 1 := by
  decide +kernel
theorem test_cfg_bs_3 : let o := step (cmd State.reset 0x02 3 0 0 0)
    reg o .kinfo = some 0x202 ∧ reg o .fftsize = some 3 ∧ reg o .extsize = some 4 ∧
      tables o = (kernel3.tw, kernel3.circ) := by decide +kernel
theorem test_cfg_bs_capacity : reg (step (cmd State.reset 0x02 514 0 0 0)) .status = some 9 := by decide +kernel
theorem test_release : let o := step (cmd (with_ kernel4 []) 0x03 7 0 0 0)
    reg o .kinfo = some 0 ∧ reg o .fftsize = some 0 ∧ reg o .status = some 0 ∧ reg o .a0 = some 7 := by decide +kernel
theorem test_fft_s2 : words (step (cmd (with_ kernel4 input4) 0x10 0x1000 4 0 0)) 0x1000 8 =
    [0x4000000000000000, 0, 0xC000000000000000, 0xC000000000000000, 0, 0xC000000000000000, 0x4010000000000000,
      0x4010000000000000] := by decide +kernel
theorem test_fft_bluestein_t9 :
    words (step (cmd (with_ kernel3 [(0x1000, one), (0x1010, 0x4000000000000000), (0x1020, 0x4008000000000000)])
      0x10 0x1000 3 0 0)) 0x1000 6 =
    [0x4018000000000000, 0xBCA0000000000000, 0xBFF7FFFFFFFFFFFE, 0x3FEBB67AE8584CA7, 0xBFF8000000000000,
      0xBFEBB67AE8584CAF] := by decide +kernel
theorem test_ifft_t2 : words (step (cmd (with_ kernel4 output4) 0x11 0x1000 4 0 0)) 0x1000 8 =
    [one, 0x8000000000000000, 0x4000000000000000, 0xBFF0000000000000, 0, 0xBFF0000000000000, 0xBFF0000000000000,
      0x4000000000000000] := by decide +kernel
theorem test_ifft_unsupported : reg (step (cmd (with_ kernel3 []) 0x11 0x1004 7 0 0)) .status = some 3 := by
  decide +kernel
theorem test_fft_copy_c : let o := step (cmd (with_ kernel4 input4) 0x12 0x1000 4 0x1040 4)
    words o 0x1000 2 = [one, 0] ∧ words o 0x1040 4 = [0x4000000000000000, 0, 0xC000000000000000, 0xC000000000000000] := by
  decide +kernel
theorem test_fft_copy_c_overlap : reg (step (cmd (with_ kernel4 []) 0x12 0x1000 4 0x1030 4)) .status = some 8 := by
  decide +kernel
theorem test_fft_copy_r_t4 :
    words (step (cmd (with_ kernel2 [(0x1000, one), (0x1008, 0x4008000000000000)]) 0x112 0x1000 2 0x2000 2)) 0x2000 4 =
    [0x4010000000000000, 0, 0xC000000000000000, 0] := by decide +kernel
theorem test_fft_copy_r_align : reg (step (cmd (with_ kernel4 []) 0x112 0x1008 4 0x2001 4)) .status = some 6 := by
  decide +kernel
theorem test_ifft_copy_c :
    words (step (cmd (with_ kernel4 output4) 0x13 0x1000 4 0x2000 4)) 0x2000 4 =
    [one, 0x8000000000000000, 0x4000000000000000, 0xBFF0000000000000] := by decide +kernel
theorem test_ifft_copy_c_unsupported :
    reg (step (cmd (with_ kernel3 []) 0x13 0x1000 3 0x2000 3)) .status = some 3 := by decide +kernel

/-- T5's source `[4, -2]` at 0x1000. -/
def input2 : List (Nat × Nat) := [(0x1000, 0x4010000000000000), (0x1008, 0xC000000000000000)]

theorem test_ifft_copy_r_inverse : words (step (cmd (with_ kernel2 input2) 0x113 0x1000 2 0x2000 2)) 0x2000 4 =
    [one, 0, 0x4008000000000000, 0x8000000000000000] := by decide +kernel
theorem test_ifft_copy_r_forward :
    words (step (cmd { with_ kernel2 input2 with params := { Params.default with realIfftCallsForward := true } }
      0x113 0x1000 2 0x2000 2)) 0x2000 4 = [0x4000000000000000, 0, 0x4018000000000000, 0] := by decide +kernel
theorem test_fftshift_c_z4 :
    words (step (cmd (with_ Kernel.absent [(0x1000, 3), (0x1008, 4), (0x1020, 6), (0x1028, 8), (0x1030, 1)])
      0x20 0x1000 4 0 0)) 0x1000 8 = [6, 8, 1, 0, 3, 4, 0, 0] := by decide +kernel
theorem test_fftshift_c_align : reg (step (cmd State.reset 0x20 0x1004 4 0 0)) .status = some 6 := by decide +kernel
theorem test_fftshift_r_odd :
    words (step (cmd (with_ Kernel.absent [(0x1000, 1), (0x1008, 2), (0x1010, 3), (0x1018, 4), (0x1020, 5)])
      0x120 0x1000 5 0 0)) 0x1000 5 = [4, 5, 1, 2, 3] := by decide +kernel
theorem test_fftshift_r_nan :
    words (step (cmd (with_ Kernel.absent [(0x1000, 0x7FF0000000000ABC), (0x1008, 0x8000000000000000)])
      0x120 0x1000 2 0 0)) 0x1000 2 = [0x8000000000000000, 0x7FF0000000000ABC] := by decide +kernel
theorem test_fftfreq_f1 : words (step (cmd State.reset 0x21 0x3000 4 0x3FD0000000000000 0)) 0x3000 4 =
    [0, one, 0xC000000000000000, 0xBFF0000000000000] := by decide +kernel
theorem test_fftfreq_f11 :
    words (step (cmd (State.resetOf { Params.default with prec := .binary32 }) 0x21 0x3000 4 0xDEADBEEF3E800000 0))
      0x3000 2 = [0x3F80000000000000, 0xBF800000C0000000] := by decide +kernel

/-- A1's spectrum at 0x5000. -/
def spectrum4 : List (Nat × Nat) :=
  [(0x5000, 0x4008000000000000), (0x5008, 0x4010000000000000), (0x5020, 0xC018000000000000),
    (0x5028, 0x4020000000000000), (0x5030, one)]

theorem test_fftampl_a1 : words (step (cmd (with_ Kernel.absent spectrum4) 0x22 0x4000 4 0x5000 4)) 0x4000 4 =
    [0x4004000000000000, 0, 0x4014000000000000, 0x3FE0000000000000] := by decide +kernel
theorem test_fftampl_short_spectrum : reg (step (cmd State.reset 0x22 0x4000 4 0x5000 3)) .status = some 2 := by
  decide +kernel

/-! ## Registers, decoding and protocol (section 2.7) -/

theorem test_hwcfg : hwcfgWord State.reset = 0x0A01 ∧
    hwcfgWord (State.resetOf { Params.default with prec := .binary32 }) = 0x0A00 := by decide
theorem test_id : readReg State.reset .id = 0x5344535000000007 := by decide
theorem test_illegal_g11 : let o := step (cmd (with_ kernel4 []) 0x110 9 0 0 0)
    reg o .status = some 5 ∧ reg o .kinfo = some 0x201 ∧ reg o .a0 = some 9 := by decide +kernel
theorem test_busy_write_g13 :
    let s := { cmd State.reset 0x01 4 0 0 0 with
      agenda := [.host], host := { program := [regStore Params.default 0x08 8], reads := [], stopped := false } }
    reg (step s) .a0 = some 4 ∧ reg (step s) .status = some 0x300 := by decide +kernel
theorem test_reset_g15 : let o := step { cmd (with_ kernel4 []) 0x01 4 0 0 0 with agenda := [.platform] }
    reg o .status = some 0 ∧ reg o .kinfo = some 0 ∧ reg o .a0 = some 0 := by decide +kernel

/-! ## Witnesses: concrete states and operands that meet the hypotheses of each statement -/

/-- The host to move with this program; nothing in flight. -/
def hostIdle (prog : List HostAct) : State :=
  { State.reset with host := { program := prog, reads := [], stopped := false } }

/-- The host to move with this program, and `fft 0x1000, 4` in flight on the kernel of `cfg.r2 4`. -/
def hostBusy (prog : List HostAct) : State :=
  { cmd (with_ kernel4 input4) 0x10 0x1000 4 0 0 with
    agenda := [.host], host := { program := prog, reads := [], stopped := false } }

/-- `regStore` on the instance of `State.reset`. -/
def store (off : Nat) (v : Word) : HostAct := regStore Params.default off v

theorem witness_DecodeAndEncodeAgree : Instr.wf .fftCopyR = true := by decide

theorem witness_IllegalCommandsExactly_illegal : let s := cmd State.reset 0x110 0 0 0 0
    s.nextAgent = .core ∧ s.latch = some { v := 0x110, a0 := 0, a1 := 0, a2 := 0, a3 := 0, mem := [] } ∧ decode 0x110 = none := by
  decide

theorem witness_StepRunsDecodedCommand : let s := cmd State.reset 0x113 1 2 3 4
    s.nextAgent = .core ∧ s.latch = some { v := 0x113, a0 := 1, a1 := 2, a2 := 3, a3 := 4, mem := [] } ∧
      decode 0x113 = some .ifftCopyR ∧ Instr.wf .ifftCopyR = true := by decide

theorem witness_ErrorChangesNothingElse : ∃ t, exec .fft (cmd State.reset 0x10 0x1004 3 0 0) = .next t ∧
    t.status.err = .noKernel ∧ t.status.err ≠ .ok := ⟨_, rfl, by decide, by decide⟩

theorem witness_IdleRegisterWrites : ∀ a ∈ [store 0x00 0x10, store 0x08 1, store 0x10 2, store 0x18 3, store 0x20 4],
    let s := hostIdle [a, .wait]
    s.params.wf = true ∧ s.nextAgent = .host ∧ s.host.stopped = false ∧ s.status.busy = false ∧
      s.host.program = a :: [.wait] := by decide

theorem witness_BusyWritesSetProtocolFault : ∀ off ∈ [0x00, 0x20], let s := hostBusy [store off 5]
    s.params.wf = true ∧ s.nextAgent = .host ∧ s.host.stopped = false ∧ s.status.busy = true ∧
      off ∈ [0x00, 0x08, 0x10, 0x18, 0x20] ∧ s.host.program = [regStore s.params off 5] := by decide

theorem witness_ReadOnlyWritesIgnored : ∀ off ∈ [0x28, 0x58, 0xF8], let s := hostIdle [store off 0x3FF]
    s.params.wf = true ∧ s.nextAgent = .host ∧ s.host.stopped = false ∧ off % 8 = 0 ∧ 0x28 ≤ off ∧ off < 0x100 ∧
      s.host.program = [regStore s.params off 0x3FF] := by decide

theorem witness_RegisterReads :
    ∀ off ∈ [0x00, 0x08, 0x10, 0x18, 0x20, 0x28, 0x30, 0x38, 0x40, 0x48, 0x50, 0x58, 0xF8],
    let s := hostIdle [.load (Params.default.ubase + BitVec.ofNat 64 off) 8]
    s.params.wf = true ∧ s.nextAgent = .host ∧ s.host.stopped = false ∧ off % 8 = 0 ∧ off < 0x100 ∧
      s.host.program = [.load (s.params.ubase + BitVec.ofNat 64 off) 8] := by decide

theorem witness_StatusAndInfoFields : ∀ k ∈ [Kernel.absent, kernel4, kernel3], ∀ e ∈ [ErrCode.ok, .capacityError],
    let s := (with_ k []).complete e
    s.kernel.log2e < 64 ∧ s.params.log2Cmax < 64 ∧ s.status.err = e ∧ s.kernel.kind = k.kind := by decide

theorem witness_MalformedRegisterAccessRefused_width : let s := hostIdle [.store 0x20028 [1, 2, 3, 4]]
    s.params.wf = true ∧ s.nextAgent = .host ∧ s.host.stopped = false ∧ (0x20028 : Word).toNat + 4 ≤ 2 ^ 64 ∧
      rangesMeet (0x20028 : Word).toNat 4 s.params.ubase.toNat 0x100 = true ∧
      s.host.program = .store 0x20028 [1, 2, 3, 4] :: [] := by decide

theorem witness_MalformedRegisterAccessRefused_alignment : let s := hostIdle [.load 0x1FFF9 8]
    s.params.wf = true ∧ s.nextAgent = .host ∧ s.host.stopped = false ∧ (0x1FFF9 : Word).toNat + 8 ≤ 2 ^ 64 ∧
      rangesMeet (0x1FFF9 : Word).toNat 8 s.params.ubase.toNat 0x100 = true ∧ (0x1FFF9 : Word).toNat % 8 ≠ 0 ∧
      s.host.program = [.load 0x1FFF9 (List.replicate 8 (0 : Byte)).length] := by decide

theorem witness_WaitAndCheck :
    (∀ a ∈ [HostAct.wait, .check], (hostBusy [a]).nextAgent = .host ∧ (hostBusy [a]).host.stopped = false ∧
      (hostBusy [a]).host.program = [a] ∧ (hostBusy [a]).status.busy = true) ∧
    (hostIdle [.check]).nextAgent = .host ∧ (hostIdle [.check]).host.stopped = false ∧
      (hostIdle [.check]).host.program = [.check] ∧ (hostIdle [.check]).status.busy = false := by decide

theorem witness_CommandLineRuns :
    let l : Line := { instr := .fftampl, operands := [0x4000, 4, 0x5000, 4] }
    let s := hostIdle (expandLine Params.default l ++ [.check])
    s.params.wf = true ∧ l.wf = true ∧ s.agenda = [] ∧ s.host.stopped = false ∧ s.status.busy = false ∧
      s.host.program = expandLine s.params l ++ [.check] := by decide

theorem witness_ResetRegisterValues : Params.default.log2Cmax < 64 := by decide

theorem witness_PlatformResetState : let s := { cmd (with_ kernel4 input4) 0x10 0x1000 4 0 0 with agenda := [.platform] }
    s.mem.wf = true ∧ s.nextAgent = .platform ∧ s.inWrittenExtent 0x0FFF = false ∧ s.inWrittenExtent 0x1040 = false := by
  decide +kernel
theorem witness_PlatformResetState_spared :
    let s := { cmd (with_ kernel4 input4) 0x12 0x1000 4 0x1030 4 with agenda := [.platform] }
    s.mem.wf = true ∧ s.nextAgent = .platform ∧ (s.inWrittenExtent 0x103F = true ∧ s.inReadOnlyExtent 0x103F = true) ∧
      s.inWrittenExtent 0x1040 = true ∧ s.inReadOnlyExtent 0x1040 = false := by decide +kernel
theorem witness_PlatformResetState_failing :
    let s := { cmd (with_ kernel4 input4) 0x12 0x1004 4 0x1000 4 with agenda := [.platform] }
    s.mem.wf = true ∧ s.nextAgent = .platform ∧ s.inReadOnlyExtent 0x1003 = false ∧
      (s.inWrittenExtent 0x1004 = true ∧ s.inReadOnlyExtent 0x1004 = true) ∧
      (s.inWrittenExtent 0x1043 = false ∧ s.inReadOnlyExtent 0x1043 = true) := by decide +kernel

theorem witness_DescriptorChecks_pass : reg (step (cmd State.reset 0x21 0xFFF8 1 0 0)) .status = some 0 := by
  decide +kernel
theorem witness_DescriptorChecks_empty : reg (step (cmd State.reset 0x21 0xFFFFFFFFFFFFFFFF 0 0 0)) .status = some 0 := by
  decide +kernel
theorem witness_DescriptorChecks_align : reg (step (cmd State.reset 0x21 0xFFFFFFFFFFFFFFFC 4 0 0)) .status = some 6 := by
  decide +kernel
theorem witness_DescriptorChecks_range :
    reg (step (cmd State.reset 0x21 0xFFF8 2 0 0)) .status = some 7 ∧
      reg (step (cmd State.reset 0x21 0xFFFFFFFFFFFFFFF8 2 0 0)) .status = some 7 ∧
      reg (step (cmd State.reset 0x21 0x0FF8 1 0 0)) .status = some 7 := by decide +kernel

theorem witness_OverlapMeansSharedByte :
    overlaps Params.default { b := 0x1000, n := 4, t := .complex } { b := 0x103F, n := 1, t := .real } = true ∧
      overlaps Params.default { b := 0x1000, n := 4, t := .complex } { b := 0x1040, n := 4, t := .complex } = false := by
  decide

theorem witness_CommandCheckOrder (i : Instr) : ∃ t, exec i (cmd State.reset (encode i) 0x1004 3 0x2000 3) = .next t := by
  rw [exec_eq_conclude]; exact ⟨_, rfl⟩

theorem witness_CfgR2MakesKernel :
    ((cmd State.reset 0x01 1 0 0 0).inFlight.a0.toInt = 2 ^ 0 ∧ 0 ≤ Params.default.log2Cmax) ∧
      ((cmd State.reset 0x01 1024 0 0 0).inFlight.a0.toInt = 2 ^ 10 ∧
        10 ≤ (cmd State.reset 0x01 1024 0 0 0).params.log2Cmax) := by decide

theorem not_two_pow {N q : Nat} (h1 : 2 ^ q < N) (h2 : N < 2 ^ (q + 1)) (j : Nat) : N ≠ 2 ^ j := by
  rintro rfl
  have := (Nat.pow_lt_pow_iff_right (by decide : 1 < 2)).1 h1
  have := (Nat.pow_lt_pow_iff_right (by decide : 1 < 2)).1 h2
  omega

theorem witness_CfgBsMakesKernel_smallest : let s := cmd State.reset 0x02 3 0 0 0
    s.params.wf = true ∧ s.inFlight.a0.toInt = (3 : Nat) ∧ 3 ≤ 3 ∧ (∀ j, 3 ≠ 2 ^ j) ∧ 2 * (3 - 1) ≤ 2 ^ 2 ∧
      2 ^ 2 < 4 * (3 - 1) ∧ 2 ≤ s.params.log2Cmax :=
  ⟨by decide, by decide, by decide, not_two_pow (q := 1) (by decide) (by decide), by decide, by decide, by decide⟩

theorem witness_CfgBsMakesKernel_largest : let s := cmd State.reset 0x02 513 0 0 0
    s.params.wf = true ∧ s.inFlight.a0.toInt = (513 : Nat) ∧ (∀ j, 513 ≠ 2 ^ j) ∧ 2 * (513 - 1) ≤ 2 ^ 10 ∧
      2 ^ 10 < 4 * (513 - 1) ∧ 10 ≤ s.params.log2Cmax :=
  ⟨by decide, by decide, not_two_pow (q := 9) (by decide) (by decide), by decide, by decide, by decide⟩

theorem witness_ConfigurationGating :
    reg (exec .cfgR2 (cmd State.reset 0x01 6 0 0 0)) .status = some 1 ∧
      reg (exec .cfgR2 (cmd State.reset 0x01 2048 0 0 0)) .status = some 9 ∧
      reg (exec .cfgBs (cmd State.reset 0x02 2 0 0 0)) .status = some 1 ∧
      reg (exec .cfgBs (cmd State.reset 0x02 514 0 0 0)) .status = some 9 := by decide +kernel

theorem witness_KernelChangesOnlyByKernelCommands :
    ∃ t, step (cmd (with_ kernel4 []) 0x03 0 0 0 0) = .next t ∧ t.kernel ≠ kernel4 := ⟨_, rfl, by decide⟩

theorem witness_TwiddleExactSlots : (1 : Nat) ≤ 1 ∧ (2 : Nat) ≤ 2 := by decide
theorem witness_TwiddleSymmetricPlacements : 1 ≤ 1 ∧ 1 < 2 ^ 3 / 4 := by decide
theorem witness_TwiddleRecurrence : (1 ≤ 1 ∧ 1 < 2 ^ 3 / 4) ∧ (1 ≤ 3 ∧ 3 < 2 ^ 4 / 4 ∧ 3 ≠ 1) := by decide
theorem witness_ChirpTableLayout : (3 ≤ 3 ∧ 2 * 3 - 2 ≤ 4 ∧ 1 ≤ 2 ∧ 2 < 3) ∧
    (3 ≤ 6 ∧ 2 * 6 - 2 ≤ 16 ∧ 6 ≤ 10 ∧ 10 ≤ 16 - 6) := by decide

theorem witness_TrigValuesRoundCorrectly_enclosure : 0 < 3 ∧ 2 * 1 ≤ 3 ∧
    enclRound .binary64 128 (enclTrig .cos 128 1 3) = some 0x3FE0000000000000 ∧
    enclRound .binary64 128 (enclTrig .sin 128 1 3) = some 0x3FEBB67AE8584CAA ∧
    0x3FEBB67AE8584CAA < infMag .binary64 := by decide +kernel
theorem witness_TrigValuesRoundCorrectly_ends :
    (2 * 0 ≤ 1 ∧ enclRound .binary64 128 (enclTrig .cos 128 0 1) = some one) ∧
      (2 * 1 ≤ 2 ∧ enclRound .binary64 128 (enclTrig .sin 128 1 2) = some one) ∧ one < infMag .binary64 := by
  decide +kernel
theorem witness_TrigValuesRoundCorrectly_values : 0 < 1 ∧ (2 ≤ 2 ∧ Params.default.seeds.lookup 2 = none) ∧
    (1 ≤ 1 ∧ 1 < 3 ∧ Params.default.chirps.lookup (1, 3) = none) ∧
    (1 ≤ 2 ∧ 2 < 3 ∧ Params.default.chirps.lookup (2, 3) = none) := by decide
/-- The seed of `H = 16` (R137) and `χ(2)` of `N = 3` (R142), in the two precisions and the third quadrant. -/
theorem test_trig_values : twSeed Params.default 16 = c 0x3FEF6297CFF75CB0 0x3FC8F8B83C69A60B ∧
    twSeed { Params.default with prec := .binary32 } 16 = c 0x3F7B14BE 0x3E47C5C2 ∧
    chirpVal Params.default 2 3 = chi2 := by decide +kernel

theorem witness_RoundingIsNearestEven : 0 < 1 ∧
    roundQuot .binary32 ((2 ^ 25 - 1) * 2 ^ 252) 1 = infMag .binary32 ∧
    roundQuot .binary32 ((2 ^ 25 - 1) * 2 ^ 252 - 1) 1 = infMag .binary32 - 1 ∧
    roundQuot .binary32 3 2 = 2 ∧ roundQuot .binary32 1 2 = 0 := by decide +kernel

theorem witness_ArithmeticCorrectlyRounded : unpack .binary32 0x3F800000 = .fin false (2 ^ 149) ∧
    unpack .binary32 0xC0400000 = .fin true (3 * 2 ^ 149) ∧ unpack .binary32 0x80000001 = .fin true 1 ∧
    3 * 2 ^ 149 ≠ 0 ∧ unpack .binary32 (runDraw (fadd .binary32 0x3F800000 0xC0400000) 0).1 = .fin true (2 ^ 150) ∧
    unpack .binary32 (runDraw (fsub .binary32 0x3F800000 0xC0400000) 0).1 = .fin false (2 ^ 151) ∧
    unpack .binary32 (runDraw (fmul .binary32 0x3F800000 0xC0400000) 0).1 = .fin true (3 * 2 ^ 149) ∧
    (runDraw (fdiv .binary32 0x3F800000 0xC0400000) 0).1 = 0xBEAAAAAB := by decide +kernel

theorem witness_SquareRootCorrectlyRounded : unpack .binary32 0x40800000 = .fin false (4 * 2 ^ 149) ∧
    unpack .binary32 0xC0800000 = .fin true (4 * 2 ^ 149) ∧ unpack .binary32 0x80000000 = .fin true 0 ∧
    0 < 4 * 2 ^ 149 ∧ (runDraw (fsqrt .binary32 0x40800000) 0).1 = 0x40000000 := by decide +kernel

theorem witness_SpecialValues : unpack .binary64 0x7FF0000000000001 = .nan ∧
    unpack .binary64 0x7FF0000000000000 = .inf false ∧ unpack .binary64 0xFFF0000000000000 = .inf (!false) ∧
    unpack .binary64 0 = .fin false 0 ∧ unpack .binary64 0x8000000000000000 = .fin true 0 ∧
    unpack .binary64 1 = .fin false 1 ∧ unpack .binary64 0x8000000000000001 = .fin (!false) 1 := by decide +kernel

/-- `2^127`, its negative and the smallest subnormal of binary32: beyond the overflow midpoint as a sum, a difference, a
product and a quotient. -/
theorem witness_SpecialValues_overflow : let x := 2 ^ (127 + 149)
    unpack .binary32 0x7F000000 = .fin false x ∧ unpack .binary32 0xFF000000 = .fin (!false) x ∧
      unpack .binary32 1 = .fin false 1 ∧ overflowUnits .binary32 ≤ 2 * (x + x) ∧
      overflowUnits .binary32 * 2 ^ unitLog .binary32 ≤ 2 * (x * x) ∧
      0 < 1 ∧ overflowUnits .binary32 * 1 ≤ 2 * (x * 2 ^ unitLog .binary32) := by decide +kernel

theorem witness_NegAndAbsAreExact : maskT .binary32 0xFFC00001 = 0xFFC00001 ∧ signPos .binary32 = 31 := by decide

theorem witness_IntegerConversionExact : (-(2 ^ 24) : Int).natAbs ≤ 2 ^ (fracBits .binary32 + 1) ∧
    toT .binary32 (-(2 ^ 24)) = 0xCB800000 ∧ toT .binary32 0 = 0 := by decide +kernel

theorem witness_IntegerUnits : ((0 : Nat) < 1 ∧ (1 : Nat) < 2 ^ 64) ∧ ((0 : Nat) < 2 ^ 64 - 1) ∧ ((0 : Int) ≤ 0) ∧
    ((2 : Nat) ≤ 2 ^ 63 + 1 ∧ clp2 (2 ^ 63 + 1) = 2 ^ 64) := by decide +kernel

theorem witness_HypotByCases : isNaN .binary64 0x7FF0000000000001 = true ∧ isNaN .binary64 0x7FF0000000000000 = false ∧
    magOf .binary64 0x7FF0000000000000 = infMag .binary64 ∧ isNaN .binary64 0x8000000000000000 = false ∧
    magOf .binary64 0x8000000000000000 = 0 ∧ isNaN .binary64 0xC008000000000000 = false ∧
    magOf .binary64 0xC008000000000000 ≠ 0 ∧
    magOf .binary64 0xC008000000000000 ≤ magOf .binary64 0x4010000000000000 := by decide +kernel

theorem witness_ButterflyCall : 0 < 2 ∧ 2 * 2 = 4 ∧ 1 < 2 ∧ (List.replicate 8 cZero).length = 2 * 4 ∧
    1 + 1 * (2 * 2) + 2 < 8 ∧ (∀ k, k < 2 → 0 ≠ 1 + k * (2 * 2) ∧ 0 ≠ 1 + k * (2 * 2) + 2) := by
  refine ⟨by decide, by decide, by decide, by decide, by decide, fun k _ => ⟨by omega, by omega⟩⟩

theorem witness_SchedulerPasses : [c one 0, cZero].length = 2 ^ (0 + 1) ∧ [c one 0, cZero, cZero, cZero].length = 2 ^ (1 + 1) ∧
    0 % 2 = 0 ∧ 1 % 2 = 1 := by decide

theorem witness_EngineOperations : [c one 0, cZero].length = 2 ^ 1 ∧ [cZero, cZero].length = 2 ^ 1 ∧
    [c one one].length = 2 ^ 0 ∧ [cZero].length = 2 ^ 0 := by decide

theorem witness_ConvolverSteps : kernel3.n ≤ kernel3.e ∧ kernel3.e = 2 ^ kernel3.log2e ∧
    kernel3.ifswap = decide (kernel3.log2e % 2 = 1) ∧ kernel3.circ.length = kernel3.e ∧
    [cZero, cZero, cZero, cZero].length = kernel3.e := by decide

/-- A descriptor passes when its three checks do. -/
theorem passes_of {P : Params} {d : Desc}
    (h : d.b % width P.prec = 0 ∧ d.b + d.size P.prec ≤ 2 ^ 64 ∧ hostAdmits P d.b (d.size P.prec) = true) : d.passes P :=
  fun _ => h

/-- Two descriptors are disjoint when one ends where the other begins, or before. -/
theorem disjoint_of {P : Params} {d1 d2 : Desc} (h : d1.b + d1.size P.prec ≤ d2.b) : d1.disjoint P d2 := by
  intro a
  simp only [Desc.covers, Bool.and_eq_true, decide_eq_true_eq]
  omega

/-- The kernel of S1's `cfg.r2 4` is one a configuration writes. -/
theorem kernel4_wf : kernel4.wf Params.default := ⟨2, 0, by decide, by decide +kernel⟩

/-- The kernel of S1's `cfg.r2 2` is one a configuration writes. -/
theorem kernel2_wf : kernel2.wf Params.default := ⟨1, 0, by decide, by decide +kernel⟩

/-- The kernel of S1's `cfg.bs 3` is one a configuration writes. -/
theorem kernel3_wf : kernel3.wf Params.default :=
  ⟨3, 2, 0, by decide, not_two_pow (q := 1) (by decide) (by decide), by decide, by decide, by decide, by decide +kernel⟩

theorem witness_InPlaceTransformsComplete : let s := cmd (with_ kernel4 input4) 0x11 0x1000 4 0 0
    let x := desc s.inFlight.a0 s.inFlight.a1 .complex
    s.mem.wf = true ∧ s.dstRaced = false ∧ s.kernel.wf s.params ∧ s.kernel.kind ≠ .none ∧ (true = true → s.kernel.kind = .radix2) ∧
      x.passes s.params ∧ x.n = s.kernel.n :=
  ⟨by decide +kernel, by decide, kernel4_wf, by decide, fun _ => by decide, passes_of (by decide +kernel), by decide⟩

theorem witness_CopyTransformsComplete_complex : let s := cmd (with_ kernel4 input4) 0x13 0x1000 4 0x1040 4
    let x := desc s.inFlight.a0 s.inFlight.a1 .complex
    let y := desc s.inFlight.a2 s.inFlight.a3 .complex
    s.mem.wf = true ∧ s.dstRaced = false ∧ s.kernel.wf s.params ∧ s.kernel.kind = .radix2 ∧ x.passes s.params ∧ y.passes s.params ∧
      x.disjoint s.params y ∧ x.n = s.kernel.n ∧ y.n = s.kernel.n :=
  ⟨by decide +kernel, by decide, kernel4_wf, by decide, passes_of (by decide +kernel), passes_of (by decide +kernel),
    disjoint_of (by decide +kernel), by decide, by decide⟩

theorem witness_CopyTransformsComplete_real : let s := cmd (with_ kernel2 input2) 0x113 0x1000 2 0x1010 2
    let x := desc s.inFlight.a0 s.inFlight.a1 .real
    let y := desc s.inFlight.a2 s.inFlight.a3 .complex
    s.mem.wf = true ∧ s.dstRaced = false ∧ s.kernel.wf s.params ∧ s.kernel.kind = .radix2 ∧ x.passes s.params ∧ y.passes s.params ∧
      x.disjoint s.params y ∧ x.n = s.kernel.n ∧ y.n = s.kernel.n :=
  ⟨by decide +kernel, by decide, kernel2_wf, by decide, passes_of (by decide +kernel), passes_of (by decide +kernel),
    disjoint_of (by decide +kernel), by decide, by decide⟩

theorem witness_CopyTransformsComplete_bluestein : let s := cmd (with_ kernel3 input4) 0x12 0x1000 3 0x1030 3
    let x := desc s.inFlight.a0 s.inFlight.a1 .complex
    let y := desc s.inFlight.a2 s.inFlight.a3 .complex
    s.mem.wf = true ∧ s.dstRaced = false ∧ s.kernel.wf s.params ∧ s.kernel.kind ≠ .none ∧ (false = true → s.kernel.kind = .radix2) ∧
      x.passes s.params ∧ y.passes s.params ∧ x.disjoint s.params y ∧ x.n = s.kernel.n ∧ y.n = s.kernel.n :=
  ⟨by decide +kernel, by decide, kernel3_wf, by decide, fun h => by simp at h, passes_of (by decide +kernel),
    passes_of (by decide +kernel), disjoint_of (by decide +kernel), by decide, by decide⟩

theorem witness_BluesteinInverseUnsupported : (with_ kernel3 []).kernel.kind = .bluestein ∧
    (with_ kernel3 []).params.realIfftCallsForward = false ∧
    { Params.default with realIfftCallsForward := true }.realIfftCallsForward = true := by decide

theorem witness_CachesNeverMatter : let s := cmd (with_ kernel4 input4) 0x10 0x1000 4 0 0
    s.kernel.wf s.params ∧ (∃ t, exec .fft s = .next t) ∧
      ∃ t', exec .fft { s with caches := { c0 := [c one one], c1 := [], c2 := [] } } = .next t' := by
  refine ⟨kernel4_wf, ?_, ?_⟩ <;> (rw [exec_eq_conclude]; exact ⟨_, rfl⟩)

theorem witness_FftshiftRotates : let s := cmd (with_ Kernel.absent input4) 0x20 0x1000 3 0 0
    s.mem.wf = true ∧ s.dstRaced = false ∧ (desc s.inFlight.a0 s.inFlight.a1 .complex).passes s.params ∧
      (desc s.inFlight.a0 s.inFlight.a1 .real).passes s.params ∧ 2 < (desc s.inFlight.a0 s.inFlight.a1 .real).n :=
  ⟨by decide +kernel, by decide, passes_of (by decide +kernel), passes_of (by decide +kernel), by decide⟩

theorem witness_ShiftPermutation : [c one 0, cZero].length % 2 = 0 ∧ 4 < [1, 2, 3, 4, 5].length := by decide

theorem witness_FftfreqWritesGrid : let s := cmd State.reset 0x21 0xFFF8 1 0x3FD0000000000000 0
    s.mem.wf = true ∧ s.dstRaced = false ∧ (desc s.inFlight.a0 s.inFlight.a1 .real).passes s.params ∧
      0 < (desc s.inFlight.a0 s.inFlight.a1 .real).n :=
  ⟨by decide, by decide, passes_of (by decide +kernel), by decide⟩

theorem witness_FftamplWritesAmplitudes : let s := cmd (with_ Kernel.absent spectrum4) 0x22 0x4FE0 4 0x5000 4
    let a := desc s.inFlight.a0 s.inFlight.a1 .real
    let sp := desc s.inFlight.a2 s.inFlight.a3 .complex
    s.mem.wf = true ∧ s.dstRaced = false ∧ a.passes s.params ∧ sp.passes s.params ∧ a.disjoint s.params sp ∧ a.n ≤ sp.n ∧
      3 < a.n :=
  ⟨by decide +kernel, by decide, passes_of (by decide +kernel), passes_of (by decide +kernel),
    disjoint_of (by decide +kernel), by decide, by decide⟩

theorem witness_LittleEndianAccess : Memory.wf [(5, 7)] = true ∧ (2 ^ 64 - 8) + 8 ≤ 2 ^ 64 := by decide

theorem witness_ElementLayout : Memory.wf [] = true ∧ 0x1000 + 2 * 4 * (3 + 1) ≤ 2 ^ 64 ∧
    (2 ^ 64 - 16) + 8 * (1 + 1) ≤ 2 ^ 64 ∧ 2 ≠ 3 := by decide

theorem witness_CoreWritesOnlyItsExtents : let s := cmd (with_ kernel4 input4) 0x10 0x1000 4 0 0
    s.mem.wf = true ∧ s.nextAgent = .core ∧ (∃ t, step s = .next t) ∧
      (∀ b ∈ s.accessibleInFlight, b.written = true → b.d.covers s.params.prec 0x1040 = false) ∧
      s.inWrittenExtent 0x103F = true := by
  refine ⟨by decide +kernel, by decide, ⟨_, rfl⟩, by decide +kernel, by decide +kernel⟩

/-- A destination that fails its alignment check is none the CORE may write, and its bytes are extent bytes all the same. -/
theorem witness_CoreWritesOnlyItsExtents_failing : let s := cmd (with_ kernel4 input4) 0x10 0x1004 4 0 0
    s.mem.wf = true ∧ s.nextAgent = .core ∧ (∃ t, step s = .next t) ∧ s.accessibleInFlight = [] ∧
      s.inWrittenExtent 0x1004 = true := by
  refine ⟨by decide +kernel, by decide, ⟨_, rfl⟩, by decide +kernel, by decide +kernel⟩

theorem witness_CoreReadsOnlyItsExtents : let s := cmd (with_ Kernel.absent []) 0x20 0x1000 1 0 0
    let m : Memory := [(0x2000, 1)]
    let s' := { s with mem := m, latch := s.latch.map (fun l => { l with mem := m }) }
    s.mem.wf = true ∧ m.wf = true ∧ s.nextAgent = .core ∧
      (∀ b ∈ s.accessibleInFlight, ∀ a, b.d.covers s.params.prec a = true →
        readByte m a = readByte s.mem a ∧ readByte m a = readByte s.accepted a) ∧
      (∃ t, step s = .next t) ∧ ∃ t', step s' = .next t' := by
  refine ⟨by decide, by decide, by decide, ?_, ⟨_, rfl⟩, ⟨_, rfl⟩⟩
  have h : (cmd (with_ Kernel.absent []) 0x20 0x1000 1 0 0).accessibleInFlight =
      [{ d := { b := 0x1000, n := 1, t := .complex }, written := true }] := by decide +kernel
  rw [h]
  intro b hb a ha
  obtain rfl : b = _ := by simpa using hb
  have : a < 0x1010 := by
    simp only [Desc.covers, Bool.and_eq_true, decide_eq_true_eq] at ha
    exact ha.2
  have h0 : readByte [(0x2000, 1)] a = 0 := by
    rw [readByte, if_neg (by omega), if_pos (by omega)]
    rfl
  exact ⟨h0, h0⟩

theorem witness_HostLoadReturnsMemory_idle : let s := hostIdle [.load 0xFFFFFFFFFFFFFFFE 2]
    s.nextAgent = .host ∧ s.host.stopped = false ∧ s.latch = none ∧ (0xFFFFFFFFFFFFFFFE : Word).toNat + 2 ≤ 2 ^ 64 ∧
      rangesMeet (0xFFFFFFFFFFFFFFFE : Word).toNat 2 s.params.ubase.toNat 0x100 = false ∧
      s.host.program = [.load 0xFFFFFFFFFFFFFFFE 2] := by decide

theorem witness_HostLoadReturnsMemory_busy : let s := hostBusy [.load 0x103F 2]
    s.nextAgent = .host ∧ s.host.stopped = false ∧ (0x103F : Word).toNat + 2 ≤ 2 ^ 64 ∧
      rangesMeet (0x103F : Word).toNat 2 s.params.ubase.toNat 0x100 = false ∧ s.host.program = [.load 0x103F 2] ∧
      s.inWrittenExtent 0x103F = true ∧ s.inWrittenExtent 0x1040 = false := by decide +kernel

theorem witness_HostStoreAndRace : let s := hostBusy [.store 0x103F [1, 2]]
    s.mem.wf = true ∧ s.nextAgent = .host ∧ s.host.stopped = false ∧ (0x103F : Word).toNat + 2 ≤ 2 ^ 64 ∧
      rangesMeet (0x103F : Word).toNat 2 s.params.ubase.toNat 0x100 = false ∧
      s.host.program = [.store 0x103F [1, 2]] ∧ (s.racedBuffers 0x103F 2).length = 1 ∧
      (s.racedBuffers 0x1040 2).length = 0 := by decide +kernel

/-- FFTAMPL of A1 in flight, and a host store to its spectrum (read only) or its amplitudes (written). -/
def amplBusy (addr : Word) : State :=
  { cmd (with_ Kernel.absent spectrum4) 0x22 0x4000 4 0x5000 4 with
    agenda := [.host], host := { program := [.store addr [1]], reads := [], stopped := false } }

/-- R66 (4): a store to the read-only extent is no race with the written one, and R63: the spectrum stays that of
acceptance; a store to the written extent is one. -/
theorem test_race_by_extent :
    (hostMemStore (amplBusy 0x5000) 0x5000 [1]).dstRaced = false ∧
      loadC (hostMemStore (amplBusy 0x5000) 0x5000 [1]) { b := 0x5000, n := 4, t := .complex } =
        [c 0x4008000000000000 0x4010000000000000, cZero, c 0xC018000000000000 0x4020000000000000, c one 0] ∧
      (hostMemStore (amplBusy 0x4000) 0x4000 [1]).dstRaced = true := by decide +kernel

/-- R270: reset spares the read-only bytes of a source that fails its alignment check, here the whole destination. -/
theorem test_reset_spares_failing_source :
    words (step { cmd (with_ kernel4 input4) 0x12 0x1004 4 0x1010 1 with agenda := [.platform] }) 0x1010 2 =
      [0x4000000000000000, 0xBFF0000000000000] := by decide +kernel

/-- R66 (4), R274: a store to an extent that wraps is a race, and what exists of that extent ends at 2^64 (E8). -/
theorem test_wrapping_extent : let s := cmd (with_ kernel4 []) 0x10 0xFFFFFFFFFFFFFFF0 4 0 0
    (s.racedBuffers 0xFFFFFFFFFFFFFFFF 1).length = 1 ∧ (s.racedBuffers 0 1).length = 0 ∧
      Desc.sizeInSpace .binary64 { b := 0xFFFFFFFFFFFFFFF0, n := 4, t := .complex } = 16 := by decide +kernel

/-- R270: reset spares read-only bytes, here the whole destination of an overlapping `fft.copy.c`. -/
theorem test_reset_spares_read_only :
    words (step { cmd (with_ kernel4 input4) 0x12 0x1000 4 0x1010 1 with agenda := [.platform] }) 0x1010 2 =
      [0x4000000000000000, 0xBFF0000000000000] := by decide +kernel

theorem witness_ErrChangesOnlyAtCompletion :
    ∃ t, step (cmd State.reset 0x10 0x1000 3 0 0) = .next t ∧ t.status.err ≠ State.reset.status.err :=
  ⟨_, rfl, by decide⟩

theorem witness_ProtocolFaultSticky : ∃ t, step (hostBusy [store 0x08 1]) = .next t ∧
    (hostBusy [store 0x08 1]).status.pf = false ∧ t.status.pf = true :=
  ⟨_, rfl, by decide, by decide +kernel⟩

theorem witness_DutifulStepsAreClean : let s := hostBusy [.load 0x1040 8]
    s.mem.wf = true ∧ s.latchWf ∧ s.dutiful = true ∧ s.status.pf = false ∧ s.dstRaced = false ∧ s.current ∧
      ∃ t, step s = .next t := by
  refine ⟨by decide +kernel, ⟨by decide, by decide⟩, by decide +kernel, by decide, by decide, fun _ _ _ _ => rfl, ⟨_, rfl⟩⟩

theorem witness_StepKeepsInvariant : let s := cmd (with_ kernel4 input4) 0x10 0x1000 4 0 0
    s.Inv ∧ ∃ t, step s = .next t :=
  ⟨{ params := by decide
     mem := by decide +kernel
     accepted := by decide +kernel
     latch := ⟨by decide, by decide⟩
     kernel := kernel4_wf
     caches := ⟨by decide, by decide, by decide⟩ }, _, rfl⟩

theorem witness_ResetMeetsInvariant : Params.default.wf = true := by decide

end Sys2Proof.Tests
end

/-! SUPPORT. Running computations that draw: one rule per monadic operation, and loops whose every turn writes two
elements computed from data the loop does not change. -/

namespace Sys2Proof.Machine

@[simp] theorem runDraw_pure {α : Type} (a : α) (d : Nat) : runDraw (pure a : Draw α) d = (a, d) := rfl

@[simp] theorem runDraw_bind {α β : Type} (x : Draw α) (f : α → Draw β) (d : Nat) :
    runDraw (x >>= f) d = runDraw (f (runDraw x d).1) (runDraw x d).2 := rfl

@[simp] theorem runDraw_map {α β : Type} (g : α → β) (x : Draw α) (d : Nat) :
    runDraw (g <$> x) d = (g (runDraw x d).1, (runDraw x d).2) := rfl

/-- What a run answers is a value the computation gives. -/
theorem Gives.of_run {α : Type} (x : Draw α) (d : Nat) : Gives x (runDraw x d).1 := ⟨d, rfl⟩

/-! Element operations applied along a list. -/

@[simp] theorem mapDraw_nil {α β : Type} (f : α → Draw β) : mapDraw f [] = pure [] := List.mapM_nil

theorem runDraw_mapDraw_cons {α β : Type} (f : α → Draw β) (a : α) (x : List α) (d : Nat) :
    runDraw (mapDraw f (a :: x)) d =
      ((runDraw (f a) d).1 :: (runDraw (mapDraw f x) (runDraw (f a) d).2).1,
        (runDraw (mapDraw f x) (runDraw (f a) d).2).2) := by
  simp [mapDraw, List.mapM_cons]

@[simp] theorem length_mapDraw {α β : Type} (f : α → Draw β) (x : List α) :
    ∀ d, (runDraw (mapDraw f x) d).1.length = x.length := by
  induction x with
  | nil => simp
  | cons a x ih => simp [runDraw_mapDraw_cons, ih]

/-- Each element of the result is what the operation gives on the element at its index. -/
theorem gives_getElem_mapDraw {α β : Type} (f : α → Draw β) {x : List α} {i : Nat} (h : i < x.length) :
    ∀ d, Gives (f x[i]) ((runDraw (mapDraw f x) d).1[i]'(by simpa using h)) := by
  induction x generalizing i with
  | nil => simp at h
  | cons a x ih =>
    intro d
    cases i with
    | zero => simpa [runDraw_mapDraw_cons] using Gives.of_run (f a) d
    | succ i => simpa [runDraw_mapDraw_cons] using ih (by simpa using h) _

/-! Elements of working arrays. -/

theorem elem_eq_getElem {x : List Cplx} {i : Nat} (h : i < x.length) : elem x i = x[i] := by
  simp [elem, h]

theorem elem_set_same {x : List Cplx} {i : Nat} {z : Cplx} (h : i < x.length) : elem (x.set i z) i = z := by
  rw [elem_eq_getElem (by simpa using h), List.getElem_set_self]

theorem elem_set_of_ne {x : List Cplx} {i j : Nat} {z : Cplx} (h : i ≠ j) : elem (x.set i z) j = elem x j := by
  simp [elem, List.getD_eq_getElem?_getD, List.getElem?_set_ne h]

/-! Loops of pair writes. -/

section PairWrites

variable {ι : Type} (w : ι → Draw (Cplx × Cplx)) (lo hi : ι → Nat)

/-- One turn: the two results of `w` are written at the turn's two places. -/
def writePair (y : List Cplx) (o : ι) : Draw (List Cplx) := do
  let r ← w o
  pure ((y.set (lo o) r.1).set (hi o) r.2)

/-- The array after the turns of a list. -/
def writePairs (os : List ι) (y : List Cplx) : Draw (List Cplx) := os.foldlM (writePair w lo hi) y

@[simp] theorem writePairs_nil (y : List Cplx) : writePairs w lo hi [] y = pure y := rfl

theorem writePairs_append (os os' : List ι) (y : List Cplx) :
    writePairs w lo hi (os ++ os') y = writePairs w lo hi os y >>= writePairs w lo hi os' := List.foldlM_append

theorem runDraw_writePairs_cons (o : ι) (os : List ι) (y : List Cplx) (d : Nat) :
    runDraw (writePairs w lo hi (o :: os) y) d =
      runDraw (writePairs w lo hi os ((y.set (lo o) (runDraw (w o) d).1.1).set (hi o) (runDraw (w o) d).1.2))
        (runDraw (w o) d).2 := by
  simp [writePairs, writePair]

@[simp] theorem length_writePairs (os : List ι) :
    ∀ y d, (runDraw (writePairs w lo hi os y) d).1.length = y.length := by
  induction os with
  | nil => simp
  | cons o os ih => simp [runDraw_writePairs_cons, ih]

/-- A place no turn writes keeps its element. -/
theorem elem_writePairs_of_unwritten {j : Nat} {os : List ι} (hj : ∀ o ∈ os, lo o ≠ j ∧ hi o ≠ j) :
    ∀ y d, elem (runDraw (writePairs w lo hi os y) d).1 j = elem y j := by
  induction os with
  | nil => simp
  | cons o os ih =>
    intro y d
    obtain ⟨hlo, hhi⟩ := hj o (by simp)
    rw [runDraw_writePairs_cons, ih (fun o ho => hj o (by simp [ho])), elem_set_of_ne hhi, elem_set_of_ne hlo]

/-- When different turns write different places, the places of each turn hold what its computation gives. -/
theorem gives_writePairs {n : Nat} {os : List ι} (hn : ∀ o ∈ os, lo o < n ∧ hi o < n ∧ lo o ≠ hi o)
    (hne : ∀ o ∈ os, ∀ o' ∈ os, o ≠ o' → lo o ≠ lo o' ∧ lo o ≠ hi o' ∧ hi o ≠ lo o' ∧ hi o ≠ hi o') :
    ∀ y d, y.length = n → ∀ o ∈ os,
      Gives (w o)
        (elem (runDraw (writePairs w lo hi os y) d).1 (lo o), elem (runDraw (writePairs w lo hi os y) d).1 (hi o)) := by
  induction os with
  | nil => simp
  | cons a os ih =>
    intro y d hy o ho
    rw [runDraw_writePairs_cons]
    by_cases hmem : o ∈ os
    · exact ih (fun o ho => hn o (by simp [ho])) (fun o ho o' ho' => hne o (by simp [ho]) o' (by simp [ho']))
        _ _ (by simpa using hy) o hmem
    · obtain rfl : o = a := by simpa [hmem] using ho
      obtain ⟨hlo, hhi, hdiff⟩ := hn o (by simp)
      have hkeep : ∀ o' ∈ os, (lo o' ≠ lo o ∧ hi o' ≠ lo o) ∧ (lo o' ≠ hi o ∧ hi o' ≠ hi o) := fun o' ho' => by
        obtain ⟨h1, h2, h3, h4⟩ := hne o (by simp) o' (by simp [ho']) (by rintro rfl; exact hmem ho')
        exact ⟨⟨h1.symm, h2.symm⟩, h3.symm, h4.symm⟩
      rw [elem_writePairs_of_unwritten w lo hi (fun o' ho' => (hkeep o' ho').1),
        elem_writePairs_of_unwritten w lo hi (fun o' ho' => (hkeep o' ho').2),
        elem_set_of_ne hdiff.symm, elem_set_same (hy ▸ hlo), elem_set_same (by simpa [hy] using hhi)]
      exact Gives.of_run (w o) d

/-- Two destinations that differ only where some turn writes end as the same array, with the same draws. -/
theorem writePairs_congr {n : Nat} {os : List ι} :
    ∀ y y' d, y.length = n → y'.length = n →
      (∀ j, j < n → (∀ o ∈ os, lo o ≠ j ∧ hi o ≠ j) → elem y j = elem y' j) →
      runDraw (writePairs w lo hi os y) d = runDraw (writePairs w lo hi os y') d := by
  induction os with
  | nil =>
    intro y y' d hy hy' h
    have : y = y' := List.ext_getElem (hy.trans hy'.symm) fun j hj hj' => by
      rw [← elem_eq_getElem hj, ← elem_eq_getElem hj', h j (hy ▸ hj) (by simp)]
    rw [this]
  | cons o os ih =>
    intro y y' d hy hy' h
    rw [runDraw_writePairs_cons, runDraw_writePairs_cons]
    refine ih _ _ _ (by simpa using hy) (by simpa using hy') fun j hj hos => ?_
    by_cases hhi : hi o = j
    · subst hhi
      rw [elem_set_same (by simpa [hy] using hj), elem_set_same (by simpa [hy'] using hj)]
    · rw [elem_set_of_ne hhi, elem_set_of_ne hhi]
      by_cases hlo : lo o = j
      · subst hlo
        rw [elem_set_same (hy ▸ hj), elem_set_same (hy' ▸ hj)]
      · rw [elem_set_of_ne hlo, elem_set_of_ne hlo]
        exact h j hj fun o' ho' => by
          rcases List.mem_cons.1 ho' with rfl | ho'
          · exact ⟨hlo, hhi⟩
          · exact hos o' ho'

end PairWrites

end Sys2Proof.Machine

/-! SUPPORT. The passes of the ping-pong scheduler as functions of their source alone (R150 to R160): a pass overwrites its
whole destination, so neither a result nor its draws depend on what a buffer held. -/

namespace Sys2Proof.Machine

/-! One pass. -/

/-- The sum, and the difference times the twiddle, of one butterfly (R150). -/
def butterfly (p : Prec) (tw a b : Cplx) : Draw (Cplx × Cplx) := do
  let sum ← cadd p a b
  let diff ← csub p a b
  let prod ← cmul p diff tw
  pure (sum, prod)

theorem gives_cadd {p : Prec} {a b z : Cplx} (h : Gives (cadd p a b) z) : IsCadd p a b z := by
  obtain ⟨d, rfl⟩ := h
  exact ⟨⟨d, rfl⟩, (runDraw (fadd p a.re b.re) d).2, rfl⟩

theorem gives_csub {p : Prec} {a b z : Cplx} (h : Gives (csub p a b) z) : IsCsub p a b z := by
  obtain ⟨d, rfl⟩ := h
  exact ⟨⟨d, rfl⟩, (runDraw (fsub p a.re b.re) d).2, rfl⟩

theorem gives_cmul {p : Prec} {a b z : Cplx} (h : Gives (cmul p a b) z) : IsCmul p a b z := by
  obtain ⟨d, rfl⟩ := h
  simp only [cmul, runDraw_bind, runDraw_pure]
  generalize hrr : runDraw (fmul p a.re b.re) d = rr
  generalize hii : runDraw (fmul p a.im b.im) rr.2 = ii
  generalize hre : runDraw (fsub p rr.1 ii.1) ii.2 = re
  generalize hri : runDraw (fmul p a.re b.im) re.2 = ri
  generalize hir : runDraw (fmul p a.im b.re) ri.2 = ir
  exact ⟨⟨rr.1, ii.1, ⟨d, by rw [hrr]⟩, ⟨rr.2, by rw [hii]⟩, ii.2, by rw [hre]⟩,
    ri.1, ir.1, ⟨re.2, by rw [hri]⟩, ⟨ri.2, by rw [hir]⟩, ir.2, rfl⟩

/-- What a butterfly computes are the operations of R109 to R111. -/
theorem gives_butterfly {p : Prec} {tw a b u v : Cplx} (h : Gives (butterfly p tw a b) (u, v)) :
    IsButterfly p tw a b u v := by
  obtain ⟨d, h⟩ := h
  simp only [butterfly, runDraw_bind, runDraw_pure, Prod.mk.injEq] at h
  obtain ⟨rfl, rfl⟩ := h
  exact ⟨gives_cadd ⟨d, rfl⟩, _, gives_csub ⟨_, rfl⟩, gives_cmul ⟨_, rfl⟩⟩

/-- The butterfly of call `o.1` and pair `o.2` of a pass. -/
def passButterfly (p : Prec) (tw x : List Cplx) (hs pd : Nat) (o : Nat × Nat) : Draw (Cplx × Cplx) :=
  butterfly p (elem tw (o.2 * pd)) (elem x (o.1 + o.2 * pd)) (elem x (o.1 + o.2 * pd + hs))

/-- Where it writes the sum. -/
def passLo (ss : Nat) (o : Nat × Nat) : Nat := o.1 + o.2 * ss

/-- Where it writes the product. -/
def passHi (ss pd : Nat) (o : Nat × Nat) : Nat := o.1 + o.2 * ss + pd

/-- The pairs of a pass in the order of R155. -/
def passPairs (ns pd : Nat) : List (Nat × Nat) := (List.range pd).flatMap fun si => (List.range ns).map fun k => (si, k)

theorem mem_passPairs {ns pd : Nat} {o : Nat × Nat} : o ∈ passPairs ns pd ↔ o.1 < pd ∧ o.2 < ns := by
  obtain ⟨si, k⟩ := o
  simp [passPairs]

theorem ctb_eq_writePairs (p : Prec) (tw y x : List Cplx) (si hs ns ss pd : Nat) :
    ctb p tw y x si hs ns ss pd =
      writePairs (passButterfly p tw x hs pd) (passLo ss) (passHi ss pd) ((List.range ns).map fun k => (si, k)) y := by
  simp only [ctb, writePairs, List.foldlM_map]
  rfl

theorem pass_eq_writePairs (p : Prec) (tw y x : List Cplx) (hs ns ss pd : Nat) :
    pass p tw y x hs ns ss pd =
      writePairs (passButterfly p tw x hs pd) (passLo ss) (passHi ss pd) (passPairs ns pd) y := by
  simp only [pass, ctb_eq_writePairs, passPairs]
  generalize List.range pd = sis
  induction sis generalizing y with
  | nil => rfl
  | cons si sis ih =>
    rw [List.foldlM_cons, List.flatMap_cons, writePairs_append]
    exact bind_congr ih

/-- The pairs of a pass and their places: every place below `2·hs` belongs to one pair (R152). -/
theorem exists_passPair {ns pd j : Nat} (hj : j < 2 * (ns * pd)) :
    ∃ o ∈ passPairs ns pd, passLo (2 * pd) o = j ∨ passHi (2 * pd) pd o = j := by
  have hpd : 0 < pd := Nat.pos_of_ne_zero (by rintro rfl; simp at hj)
  have hk : j / (2 * pd) < ns := Nat.div_lt_of_lt_mul (by rwa [Nat.mul_comm ns, ← Nat.mul_assoc] at hj)
  have hdiv := Nat.mod_add_div j (2 * pd)
  have hmod := Nat.mod_lt j (show 0 < 2 * pd by omega)
  rw [Nat.mul_comm (2 * pd)] at hdiv
  by_cases h : j % (2 * pd) < pd
  · exact ⟨(j % (2 * pd), j / (2 * pd)), mem_passPairs.2 ⟨h, hk⟩, .inl hdiv⟩
  · refine ⟨(j % (2 * pd) - pd, j / (2 * pd)), mem_passPairs.2 ⟨by simp only; omega, hk⟩, .inr ?_⟩
    simp only [passHi]
    omega

/-- Different pairs of a pass write different places (R152). -/
theorem passPlaces_ne {ns pd : Nat} {o o' : Nat × Nat} (ho : o ∈ passPairs ns pd) (ho' : o' ∈ passPairs ns pd)
    (h : o ≠ o') : passLo (2 * pd) o ≠ passLo (2 * pd) o' ∧ passLo (2 * pd) o ≠ passHi (2 * pd) pd o' ∧
      passHi (2 * pd) pd o ≠ passLo (2 * pd) o' ∧ passHi (2 * pd) pd o ≠ passHi (2 * pd) pd o' := by
  obtain ⟨si, k⟩ := o
  obtain ⟨si', k'⟩ := o'
  obtain ⟨hsi, -⟩ := mem_passPairs.1 ho
  obtain ⟨hsi', -⟩ := mem_passPairs.1 ho'
  simp only at hsi hsi'
  simp only [passLo, passHi]
  rcases lt_trichotomy k k' with hk | rfl | hk
  · have := Nat.mul_le_mul_right (2 * pd) hk
    rw [Nat.succ_mul] at this
    omega
  · have : si ≠ si' := fun e => h (by rw [e])
    omega
  · have := Nat.mul_le_mul_right (2 * pd) hk
    rw [Nat.succ_mul] at this
    omega

theorem passHi_lt {ns pd : Nat} {o : Nat × Nat} (ho : o ∈ passPairs ns pd) : passHi (2 * pd) pd o < 2 * (ns * pd) := by
  obtain ⟨hsi, hk⟩ := mem_passPairs.1 ho
  have := Nat.mul_le_mul_right (2 * pd) hk
  rw [Nat.succ_mul, show ns * (2 * pd) = 2 * (ns * pd) by ring] at this
  simp only [passHi]
  omega

@[simp] theorem length_pass (p : Prec) (tw y x : List Cplx) (hs ns ss pd d : Nat) :
    (runDraw (pass p tw y x hs ns ss pd) d).1.length = y.length := by
  rw [pass_eq_writePairs, length_writePairs]

/-- A pass whose pairs cover its destination gives the butterflies of R155. -/
theorem isPass_pass (p : Prec) (tw x : List Cplx) {y : List Cplx} {hs ns pd : Nat} (hns : ns * pd = hs)
    (hy : y.length = 2 * hs) (d : Nat) : IsPass p tw x (runDraw (pass p tw y x hs ns (2 * pd) pd) d).1 hs ns pd := by
  refine ⟨by simpa using hy, fun si k hsi hk => ?_⟩
  have hmem : (si, k) ∈ passPairs ns pd := mem_passPairs.2 ⟨hsi, hk⟩
  rw [pass_eq_writePairs]
  refine gives_butterfly (gives_writePairs (passButterfly p tw x hs pd) (passLo (2 * pd)) (passHi (2 * pd) pd)
    (fun o ho => ?_) (fun o ho o' ho' => passPlaces_ne ho ho') y d hy (si, k) hmem)
  have hhi := passHi_lt ho
  have hpd := (mem_passPairs.1 ho).1
  simp only [passLo, passHi] at hhi ⊢
  omega

/-- A pass does not depend on what its destination held (R39). -/
theorem pass_congr (p : Prec) (tw x : List Cplx) {y y' : List Cplx} {hs ns pd : Nat} (hns : ns * pd = hs)
    (hy : y.length = 2 * hs) (hy' : y'.length = 2 * hs) (d : Nat) :
    runDraw (pass p tw y x hs ns (2 * pd) pd) d = runDraw (pass p tw y' x hs ns (2 * pd) pd) d := by
  rw [pass_eq_writePairs, pass_eq_writePairs]
  refine writePairs_congr _ _ _ y y' d hy hy' fun j hj hos => ?_
  obtain ⟨o, ho, hoj⟩ := exists_passPair (ns := ns) (pd := pd) (hns ▸ hj)
  exact absurd hoj (not_or.2 (hos o ho))

end Sys2Proof.Machine

/-! SUPPORT. The engine operations (R155 to R160): each answers its passes from its input, whatever the scratch held. -/

namespace Sys2Proof.Machine

/-! The loop state. -/

/-- The loop state before pass `j` (R156). -/
def Sched.atPass (hs j : Nat) : Sched := Sched.advance^[j] (Sched.start hs)

theorem Sched.atPass_succ (hs j : Nat) : Sched.atPass hs (j + 1) = (Sched.atPass hs j).advance :=
  Function.iterate_succ_apply' _ _ _

@[simp] theorem Sched.atPass_ns (hs j : Nat) : (Sched.atPass hs j).ns = hs / 2 ^ j := by
  induction j with
  | zero => simp [atPass, Sched.start]
  | succ j ih => rw [atPass_succ, advance, ih, Nat.div_div_eq_div_mul, pow_succ]

@[simp] theorem Sched.atPass_pd (hs j : Nat) : (Sched.atPass hs j).pd = 2 ^ j := by
  induction j with
  | zero => rfl
  | succ j ih => rw [atPass_succ, advance, ih, pow_succ']

@[simp] theorem Sched.atPass_ss (hs j : Nat) : (Sched.atPass hs j).ss = 2 * 2 ^ j := by
  induction j with
  | zero => rfl
  | succ j ih => rw [atPass_succ, advance, ih, pow_succ']

@[simp] theorem Sched.atPass_sf (hs j : Nat) : (Sched.atPass hs j).sf = decide (j % 2 = 1) := by
  induction j with
  | zero => rfl
  | succ j ih =>
    rw [atPass_succ, advance, ih]
    rcases Nat.mod_two_eq_zero_or_one j with h | h <;> simp [h, Nat.add_mod]

/-! Passes as functions of their source. -/

/-- Pass `j` of half-size `hs` from `x` (R155). -/
def passFrom (p : Prec) (tw : List Cplx) (hs j : Nat) (x : List Cplx) : Draw (List Cplx) :=
  pass p tw (List.replicate (2 * hs) cZero) x hs (hs / 2 ^ j) (2 * 2 ^ j) (2 ^ j)

/-- The `n` passes from pass `j` on. -/
def passesFrom (p : Prec) (tw : List Cplx) (hs : Nat) : Nat → Nat → List Cplx → Draw (List Cplx)
  | 0, _, x => pure x
  | n + 1, j, x => do
    let y ← passFrom p tw hs j x
    passesFrom p tw hs n (j + 1) y

/-- The `q` passes of an engine operation of size `2^q`. -/
def passesOf (p : Prec) (tw : List Cplx) (q : Nat) (x : List Cplx) : Draw (List Cplx) :=
  passesFrom p tw (2 ^ q / 2) q 0 x

theorem passesOf_succ (p : Prec) (tw : List Cplx) (m : Nat) (x : List Cplx) :
    passesOf p tw (m + 1) x = passesFrom p tw (2 ^ m) (m + 1) 0 x := by
  rw [passesOf, pow_succ, Nat.mul_div_cancel _ (by decide)]

@[simp] theorem length_passFrom (p : Prec) (tw : List Cplx) (hs j : Nat) (x : List Cplx) (d : Nat) :
    (runDraw (passFrom p tw hs j x) d).1.length = 2 * hs := by simp [passFrom]

@[simp] theorem length_passesFrom (p : Prec) (tw : List Cplx) (hs n : Nat) : ∀ (j : Nat) (x : List Cplx) (d : Nat),
    x.length = 2 * hs → (runDraw (passesFrom p tw hs n j x) d).1.length = 2 * hs := by
  induction n with
  | zero => exact fun _ _ _ h => h
  | succ n ih => exact fun j x d _ => ih _ _ _ (length_passFrom p tw hs j x d)

theorem length_passesOf {p : Prec} {tw x : List Cplx} {q : Nat} (hx : x.length = 2 ^ q) (d : Nat) :
    (runDraw (passesOf p tw q x) d).1.length = 2 ^ q := by
  cases q with
  | zero => exact hx
  | succ m =>
    rw [pow_succ'] at hx ⊢
    rw [passesOf_succ, length_passesFrom _ _ _ _ _ _ _ hx]

/-- Any destination of the right size ends as the pass from the source (R39). -/
theorem runDraw_pass {p : Prec} {tw x y : List Cplx} {m j : Nat} (hj : j ≤ m) (hy : y.length = 2 * 2 ^ m) (d : Nat) :
    runDraw (pass p tw y x (2 ^ m) (2 ^ m / 2 ^ j) (2 * 2 ^ j) (2 ^ j)) d = runDraw (passFrom p tw (2 ^ m) j x) d :=
  pass_congr p tw x (Nat.div_mul_cancel (pow_dvd_pow 2 hj)) hy (by simp) d

theorem isPass_passFrom {p : Prec} {tw x : List Cplx} {m j : Nat} (hj : j ≤ m) (d : Nat) :
    IsPass p tw x (runDraw (passFrom p tw (2 ^ m) j x) d).1 (2 ^ m) (2 ^ (m - j)) (2 ^ j) := by
  rw [passFrom, Nat.pow_div hj (by decide)]
  exact isPass_pass p tw x (by rw [← pow_add, Nat.sub_add_cancel hj]) (by simp) d

/-- The arrays between the passes, numbered as the passes. -/
theorem exists_passArrays (p : Prec) (tw : List Cplx) (m n : Nat) :
    ∀ (j : Nat) (x : List Cplx) (d : Nat), j + n ≤ m + 1 → ∃ A : Nat → List Cplx, A j = x ∧
      A (j + n) = (runDraw (passesFrom p tw (2 ^ m) n j x) d).1 ∧
      ∀ i, j ≤ i → i < j + n → IsPass p tw (A i) (A (i + 1)) (2 ^ m) (2 ^ (m - i)) (2 ^ i) := by
  induction n with
  | zero => exact fun j x d _ => ⟨fun _ => x, rfl, rfl, fun i h1 h2 => absurd h2 (by omega)⟩
  | succ n ih =>
    intro j x d hjn
    have hpass := isPass_passFrom (p := p) (tw := tw) (x := x) (m := m) (j := j) (by omega) d
    generalize hy : runDraw (passFrom p tw (2 ^ m) j x) d = y at hpass
    obtain ⟨A, hfirst, hlast, hA⟩ := ih (j + 1) y.1 y.2 (by omega)
    refine ⟨Function.update A j x, by simp, ?_, fun i h1 h2 => ?_⟩
    · rw [Function.update_of_ne (by omega), ← Nat.add_assoc, Nat.add_right_comm, hlast, passesFrom, runDraw_bind, hy]
    · rw [Function.update_of_ne (by omega : i + 1 ≠ j)]
      rcases h1.eq_or_lt with rfl | h1
      · rw [Function.update_self, hfirst]
        exact hpass
      · rw [Function.update_of_ne h1.ne']
        exact hA i h1 (by omega)

/-- The passes of an engine operation give the forward transform of R158. -/
theorem isFwd_passesOf (p : Prec) (tw : List Cplx) (q : Nat) (x : List Cplx) (d : Nat) :
    IsFwd p tw q x (runDraw (passesOf p tw q x) d).1 := by
  cases q with
  | zero => exact ⟨fun _ => x, rfl, rfl, fun j hj => absurd hj (by omega)⟩
  | succ m =>
    obtain ⟨A, h0, hlast, hA⟩ := exists_passArrays p tw m (m + 1) 0 x d (by omega)
    rw [Nat.zero_add] at hlast hA
    rw [passesOf_succ]
    exact ⟨A, h0, hlast, fun j hj => hA j (Nat.zero_le j) hj⟩

/-! The scheduler. -/

/-- The array the next pass reads: the last one written. -/
def PingPong.current (b : PingPong) : List Cplx := if b.sched.sf then b.ba else b.sa

/-- Both buffers have `n` elements. -/
def PingPong.Sized (n : Nat) (b : PingPong) : Prop := b.sa.length = n ∧ b.ba.length = n

/-- A run that answers `r` has made `n` passes from pass `j` on, starting at array `x`. -/
structure PassesMade (p : Prec) (tw : List Cplx) (hs n j : Nat) (x : List Cplx) (d : Nat) (r : PingPong × Nat) : Prop where
  sized : r.1.Sized (2 * hs)
  sched : r.1.sched = Sched.atPass hs (j + n)
  run : (r.1.current, r.2) = runDraw (passesFrom p tw hs n j x) d

/-- One pass of the scheduler, into whichever buffer is not being read (R155). -/
theorem ditnnPass_run {p : Prec} {tw : List Cplx} {m j : Nat} {b : PingPong} (hj : j ≤ m) (hb : b.Sized (2 * 2 ^ m))
    (hsched : b.sched = Sched.atPass (2 ^ m) j) (d : Nat) :
    PassesMade p tw (2 ^ m) 1 j b.current d (runDraw (ditnnPass p tw (2 ^ m) b) d) := by
  obtain ⟨sa, ba, c⟩ := b
  obtain ⟨hsa, hba⟩ := hb
  obtain rfl : c = _ := hsched
  have hadvance : (Sched.atPass (2 ^ m) j).advance = Sched.atPass (2 ^ m) (j + 1) := (Sched.atPass_succ _ _).symm
  by_cases hodd : j % 2 = 1
  · have hsf : (j + 1) % 2 ≠ 1 := by omega
    simp only [ditnnPass, Sched.atPass_sf, hodd, decide_true, if_true, Sched.atPass_ns, Sched.atPass_ss, Sched.atPass_pd,
      runDraw_bind, runDraw_pure, runDraw_pass hj hsa, hadvance, PingPong.current]
    exact ⟨⟨length_passFrom .., hba⟩, rfl, by simp [PingPong.current, hsf, passesFrom]⟩
  · have hsf : (j + 1) % 2 = 1 := by omega
    simp only [ditnnPass, Sched.atPass_sf, hodd, decide_false, Bool.false_eq_true, if_false, Sched.atPass_ns,
      Sched.atPass_ss, Sched.atPass_pd, runDraw_bind, runDraw_pure, runDraw_pass hj hba, hadvance, PingPong.current]
    exact ⟨⟨hsa, length_passFrom ..⟩, rfl, by simp [PingPong.current, hsf, passesFrom]⟩

/-- The loop of R155 makes as many passes as its fuel, while the half-size lasts (R156). -/
theorem ditnnLoop_run {p : Prec} {tw : List Cplx} {m : Nat} (n : Nat) : ∀ {j : Nat} {b : PingPong}, j + n ≤ m + 1 →
    b.Sized (2 * 2 ^ m) → b.sched = Sched.atPass (2 ^ m) j → ∀ d,
    PassesMade p tw (2 ^ m) n j b.current d (runDraw (ditnnLoop p tw (2 ^ m) n b) d) := by
  induction n with
  | zero => exact fun _ hb hsched d => ⟨hb, hsched, rfl⟩
  | succ n ih =>
    intro j b hjn hb hsched d
    have hns : b.sched.ns ≠ 0 := by
      rw [hsched, Sched.atPass_ns, Nat.pow_div (by omega) (by decide)]
      exact (Nat.two_pow_pos _).ne'
    obtain ⟨hsized, hsched1, hrun1⟩ := ditnnPass_run (tw := tw) (p := p) (by omega) hb hsched d
    obtain ⟨hsizedn, hschedn, hrunn⟩ := ih (by omega) hsized hsched1 (runDraw (ditnnPass p tw (2 ^ m) b) d).2
    rw [ditnnLoop, if_neg hns, runDraw_bind]
    refine ⟨hsizedn, by rw [hschedn, Nat.add_right_comm, Nat.add_assoc], ?_⟩
    simp only [passesFrom, bind_pure] at hrun1
    rw [hrunn, passesFrom, runDraw_bind, ← hrun1]

/-- The scheduler's result, for every engine size `2^q` (R156); for `q = 0` there is no pass. -/
theorem ditnn_run {p : Prec} {tw x ba : List Cplx} {q : Nat} (hx : x.length = 2 ^ q) (hba : ba.length = 2 ^ q) (d : Nat) :
    let r := runDraw (ditnn p tw x ba (2 ^ q / 2)) d
    r.1.Sized (2 ^ q) ∧ r.1.sched = Sched.atPass (2 ^ q / 2) q ∧ (r.1.current, r.2) = runDraw (passesOf p tw q x) d := by
  cases q with
  | zero => exact ⟨⟨hx, hba⟩, rfl, rfl⟩
  | succ m =>
    have hhalf : 2 ^ (m + 1) / 2 = 2 ^ m := by rw [pow_succ, Nat.mul_div_cancel _ (by decide)]
    have hpow : 2 ^ (m + 1) = 2 * 2 ^ m := pow_succ' 2 m
    obtain ⟨hsized, hsched, hrun⟩ := ditnnLoop_run (p := p) (tw := tw) (m := m) (m + 1) (j := 0)
      (b := { sa := x, ba := ba, sched := Sched.start (2 ^ m) }) (by omega) ⟨hpow ▸ hx, hpow ▸ hba⟩ rfl d
    rw [passesOf_succ, hhalf, ditnn, Nat.log2_two_pow, hpow]
    exact ⟨hsized, by rw [hsched, Nat.zero_add], hrun⟩

/-! The engine operations. -/

/-- The forward operation answers its passes and leaves some scratch of the same size (R158). -/
theorem fwdR2_run {p : Prec} {tw x s : List Cplx} {q : Nat} (hx : x.length = 2 ^ q) (hs : s.length = 2 ^ q) (d : Nat) :
    ∃ s' : List Cplx, s'.length = 2 ^ q ∧ runDraw (fwdR2 p tw x s (2 ^ q) (decide (q % 2 = 1))) d =
      ({ x := (runDraw (passesOf p tw q x) d).1, s := s', sched := Sched.atPass (2 ^ q / 2) q },
        (runDraw (passesOf p tw q x) d).2) := by
  by_cases hq : q % 2 = 1
  · obtain ⟨⟨hsa, hba⟩, hsched, hrun⟩ := ditnn_run (p := p) (tw := tw) hx hx d
    refine ⟨_, hsa, ?_⟩
    rw [← hrun]
    simp [fwdR2, PingPong.current, hsched, hq]
  · obtain ⟨⟨hsa, hba⟩, hsched, hrun⟩ := ditnn_run (p := p) (tw := tw) hx hs d
    refine ⟨_, hba, ?_⟩
    rw [← hrun]
    simp [fwdR2, PingPong.current, hsched, hq]

/-- The last step of R159 on one element: the conjugate divided by the size. -/
def descale (p : Prec) (q : Nat) (z : Cplx) : Draw Cplx := cdivr p (conj p z) (toT p ((2 ^ q : Nat) : Int))

/-- The arithmetic of the inverse operation: passes from the conjugates, then conjugates divided by the size (R159). -/
def inversePassesOf (p : Prec) (tw : List Cplx) (q : Nat) (x : List Cplx) : Draw (List Cplx) := do
  let r ← passesOf p tw q (x.map (conj p))
  mapDraw (descale p q) r

theorem length_inversePassesOf {p : Prec} {tw x : List Cplx} {q : Nat} (hx : x.length = 2 ^ q) (d : Nat) :
    (runDraw (inversePassesOf p tw q x) d).1.length = 2 ^ q := by
  simp [inversePassesOf, length_passesOf, hx]

/-- The inverse operation answers its passes between the two conjugations and leaves some scratch of the same size
(R159). -/
theorem invR2_run {p : Prec} {tw x s : List Cplx} {q : Nat} (hx : x.length = 2 ^ q) (hs : s.length = 2 ^ q) (d : Nat) :
    ∃ s' : List Cplx, s'.length = 2 ^ q ∧ runDraw (invR2 p tw x s (2 ^ q) (decide (q % 2 = 1))) d =
      ({ x := (runDraw (inversePassesOf p tw q x) d).1, s := s', sched := Sched.atPass (2 ^ q / 2) q },
        (runDraw (inversePassesOf p tw q x) d).2) := by
  have hcx : (x.map (conj p)).length = 2 ^ q := by simpa using hx
  by_cases hq : q % 2 = 1
  · obtain ⟨⟨hsa, hba⟩, hsched, hrun⟩ := ditnn_run (p := p) (tw := tw) hcx hx d
    refine ⟨_, hsa, ?_⟩
    rw [inversePassesOf, runDraw_bind, ← hrun]
    simp only [invR2, hq, decide_true, if_true, runDraw_bind, runDraw_pure, PingPong.current, hsched, Sched.atPass_sf]
    rfl
  · obtain ⟨⟨hsa, hba⟩, hsched, hrun⟩ := ditnn_run (p := p) (tw := tw) hcx hs d
    refine ⟨_, hba, ?_⟩
    rw [inversePassesOf, runDraw_bind, ← hrun]
    simp only [invR2, hq, decide_false, Bool.false_eq_true, if_false, runDraw_bind, runDraw_pure, PingPong.current, hsched,
      Sched.atPass_sf]
    rfl

theorem gives_cdivr {p : Prec} {a z : Cplx} {v : FBits} (h : Gives (cdivr p a v) z) : IsCdivr p a v z := by
  obtain ⟨d, rfl⟩ := h
  exact ⟨⟨d, rfl⟩, (runDraw (fdiv p a.re v) d).2, rfl⟩

/-- The inverse operation's arithmetic is the inverse transform of R159. -/
theorem isInv_inversePassesOf (p : Prec) (tw : List Cplx) {q : Nat} {x : List Cplx} (hx : x.length = 2 ^ q) (d : Nat) :
    IsInv p tw q x (runDraw (inversePassesOf p tw q x) d).1 := by
  have hcx : (x.map (conj p)).length = 2 ^ q := by simpa using hx
  have hlen := length_passesOf (p := p) (tw := tw) hcx d
  refine ⟨x.map (conj p), (runDraw (passesOf p tw q (x.map (conj p))) d).1, hcx, fun i hi => ?_, isFwd_passesOf p tw q _ d,
    length_inversePassesOf hx d, fun i hi => ⟨conj p (elem _ i), ⟨rfl, rfl⟩, ?_⟩⟩
  · rw [elem_eq_getElem (hx ▸ hi), elem_eq_getElem (hcx ▸ hi), List.getElem_map]
    exact ⟨rfl, rfl⟩
  · rw [elem_eq_getElem (hlen ▸ hi), elem_eq_getElem ((length_inversePassesOf hx d).symm ▸ hi)]
    exact gives_cdivr (gives_getElem_mapDraw (descale p q) (hlen.symm ▸ hi) _)

/-- Settles O40: both operations answer passes from their input, which name no scratch. -/
theorem engineOperations : Obligations.EngineOperations := by
  intro p tw x s1 s2 q d hx hs1 hs2
  obtain ⟨s1', -, hf1⟩ := fwdR2_run (p := p) (tw := tw) hx hs1 d
  obtain ⟨s2', -, hf2⟩ := fwdR2_run (p := p) (tw := tw) hx hs2 d
  obtain ⟨u1, -, hi1⟩ := invR2_run (p := p) (tw := tw) hx hs1 d
  obtain ⟨u2, -, hi2⟩ := invR2_run (p := p) (tw := tw) hx hs2 d
  simp only [hf1, hf2, hi1, hi2, true_and]
  exact ⟨isFwd_passesOf p tw q x d, isInv_inversePassesOf p tw hx d, length_passesOf hx d, length_inversePassesOf hx d⟩

end Sys2Proof.Machine

/-! SUPPORT. Commands on a kernel a configuration makes: what the caches hold changes no result (R39, R200) and stays within
capacity (R38). -/

namespace Sys2Proof.Machine

/-! The kernel a configuration makes. -/

/-- The tables and sizes of `K` are those of an engine of size `2^q` within capacity (R34 to R37). -/
structure Kernel.EngineSize (P : Params) (K : Kernel) (q : Nat) : Prop where
  le_capacity : q ≤ P.log2Cmax
  e_eq : K.e = 2 ^ q
  ifswap_eq : K.ifswap = decide (q % 2 = 1)
  n_eq : K.kind = .radix2 → K.n = 2 ^ q
  n_le : K.kind = .bluestein → K.n ≤ 2 ^ q
  circ_length : K.kind = .bluestein → K.circ.length = 2 ^ q

theorem length_foldl_of_keeps {α ι : Type} {f : List α → ι → List α} (hf : ∀ x i, (f x i).length = x.length)
    (l : List ι) : ∀ x, (l.foldl f x).length = x.length := by
  induction l with
  | nil => exact fun _ => rfl
  | cons i l ih => exact fun x => (ih _).trans (hf x i)

/-- The chirp table has `M` elements (R143). -/
theorem length_chgen (P : Params) (N M : Nat) : (chgen P N M).length = M := by
  rw [chgen, length_foldl_of_keeps (by simp), length_foldl_of_keeps (by simp [chPlace])]
  simp

theorem Kernel.wf.exists_engineSize {P : Params} {K : Kernel} (h : K.wf P) (hk : K.kind ≠ .none) :
    ∃ q, K.EngineSize P q := by
  unfold Kernel.wf at h
  split at h
  · exact absurd ‹_› hk
  · obtain ⟨q, d, hq, rfl⟩ := h
    exact ⟨q, hq, rfl, rfl, fun _ => rfl, nofun, nofun⟩
  · obtain ⟨N, q, d, hN, -, hq, hle, -, rfl⟩ := h
    refine ⟨q, hq, rfl, rfl, nofun, fun _ => ?_, fun _ => length_chgen _ _ _⟩
    show N ≤ 2 ^ q
    omega

theorem Kernel.EngineSize.le_cmax {P : Params} {K : Kernel} {q : Nat} (h : K.EngineSize P q) : 2 ^ q ≤ cmax P :=
  Nat.pow_le_pow_right (by decide) h.le_capacity

/-! Caches. -/

@[simp] theorem length_cacheView (n : Nat) (c : List Cplx) : (cacheView n c).length = n := by
  simp [cacheView]
  omega

theorem length_cacheStore_le {x c : List Cplx} {n : Nat} (hx : x.length ≤ n) (hc : c.length ≤ n) :
    (cacheStore x c).length ≤ n := by
  simp [cacheStore]
  omega

/-! The convolver. -/

/-- The arithmetic of `BS_FWD` (R191) with an engine of size `2^q`: its result, and the two spectra it leaves in the
caches. -/
def convolverOf (P : Params) (K : Kernel) (q : Nat) (xb : List Cplx) : Draw (List Cplx × List Cplx × List Cplx) := do
  let h ← passesOf P.prec K.tw q K.circ
  let y ← mapDraw (fun i => bsdiv P (elem xb i) (elem K.circ i)) (List.range K.n)
  let f ← passesOf P.prec K.tw q (y ++ List.replicate (2 ^ q - K.n) cZero)
  let z ← mapDraw (fun i => cmul P.prec (elem f i) (elem h i)) (List.range (2 ^ q))
  let g ← inversePassesOf P.prec K.tw q z
  let x ← mapDraw (fun i => bsdiv P (elem g i) (elem K.circ i)) (List.range K.n)
  pure (x, h, g)

/-- The convolver answers its arithmetic, whatever `C0` held, and leaves caches of the engine's size. -/
theorem bsFwd_run {P : Params} {K : Kernel} {q : Nat} (hK : K.EngineSize P q) (hkind : K.kind = .bluestein)
    (xb : List Cplx) {c0 : List Cplx} (hc0 : c0.length = 2 ^ q) (d : Nat) :
    let r := runDraw (convolverOf P K q xb) d
    r.1.2.1.length = 2 ^ q ∧ r.1.2.2.length = 2 ^ q ∧ ∃ c0' : List Cplx, c0'.length = 2 ^ q ∧
      runDraw (bsFwd P K xb c0) d =
        ({ x := r.1.1, c0 := c0', c1 := r.1.2.1, c2 := r.1.2.2, sched := Sched.atPass (2 ^ q / 2) q }, r.2) := by
  have hn := hK.n_le hkind
  simp only [bsFwd, convolverOf, hK.e_eq, hK.ifswap_eq, runDraw_bind, runDraw_pure]
  obtain ⟨s1, hs1, h1⟩ := fwdR2_run (p := P.prec) (tw := K.tw) (hK.circ_length hkind) hc0 d
  rw [h1]
  generalize hh : runDraw (passesOf P.prec K.tw q K.circ) d = h
  generalize hy : runDraw (mapDraw (fun i => bsdiv P (elem xb i) (elem K.circ i)) (List.range K.n)) h.2 = y
  have hylen : (y.1 ++ List.replicate (2 ^ q - K.n) cZero).length = 2 ^ q := by
    simp [← hy]
    omega
  obtain ⟨s2, hs2, h2⟩ := fwdR2_run (p := P.prec) (tw := K.tw) hylen hs1 y.2
  simp only
  rw [h2]
  generalize hf : runDraw (passesOf P.prec K.tw q (y.1 ++ List.replicate (2 ^ q - K.n) cZero)) y.2 = f
  generalize hz : runDraw (mapDraw (fun i => cmul P.prec (elem f.1 i) (elem h.1 i)) (List.range (2 ^ q))) f.2 = z
  have hzlen : z.1.length = 2 ^ q := by simp [← hz]
  obtain ⟨s3, hs3, h3⟩ := invR2_run (p := P.prec) (tw := K.tw) hzlen hs2 z.2
  simp only
  rw [h3]
  exact ⟨hh ▸ length_passesOf (hK.circ_length hkind) d, length_inversePassesOf hzlen _, s3, hs3, rfl⟩

/-! The engine run of a transform. -/

/-- The engine can run: there is a kernel, and the inverse is asked of no Bluestein kernel (R190, R196). -/
def Kernel.Runs (K : Kernel) (inverse : Bool) : Prop := K.kind ≠ .none ∧ (inverse = true → K.kind ≠ .bluestein)

/-- Storing the scratch of a radix-2 run keeps the caches within capacity. -/
theorem Caches.fit.store_c0 {P : Params} {c : Caches} (h : c.fit P) {x : List Cplx} (hx : x.length ≤ cmax P) :
    Caches.fit P { c with c0 := cacheStore x c.c0 } :=
  ⟨length_cacheStore_le hx h.1, h.2⟩

/-- From `s` with any caches, `f` answers `r` with its draws and the loop state `sched`; the caches alone may depend on
what they held, and stay within capacity. -/
def AnswersWhateverCaches (s : State) (f : State → List Cplx × State) (r : List Cplx × Nat) (sched : Sched) : Prop :=
  ∀ c : Caches, ∃ c' : Caches, (c.fit s.params → c'.fit s.params) ∧
    f { s with caches := c } = (r.1, s.withScratch c' sched r.2)

section EngineRuns

variable {s : State} {q : Nat} {xb : List Cplx} (hK : s.kernel.EngineSize s.params q)

include hK

theorem engine_radix2Fwd_answers (hkind : s.kernel.kind = .radix2) (hx : xb.length = s.kernel.n) :
    AnswersWhateverCaches s (engine false · xb) (runDraw (passesOf s.params.prec s.kernel.tw q xb) s.draws)
      (Sched.atPass (2 ^ q / 2) q) := by
  intro c
  have hn := hK.n_eq hkind
  obtain ⟨s', hs', hrun⟩ := fwdR2_run (p := s.params.prec) (tw := s.kernel.tw) (hx.trans hn)
    (length_cacheView (2 ^ q) c.c0) s.draws
  refine ⟨{ c with c0 := cacheStore s' c.c0 }, fun hc => hc.store_c0 (hs' ▸ hK.le_cmax), ?_⟩
  simp only [engine, engineFwd, hkind, radix2Fwd, hn, hK.ifswap_eq, hrun]
  rfl

theorem engine_radix2Inv_answers (hkind : s.kernel.kind = .radix2) (hx : xb.length = s.kernel.n) :
    AnswersWhateverCaches s (engine true · xb) (runDraw (inversePassesOf s.params.prec s.kernel.tw q xb) s.draws)
      (Sched.atPass (2 ^ q / 2) q) := by
  intro c
  have hn := hK.n_eq hkind
  obtain ⟨s', hs', hrun⟩ := invR2_run (p := s.params.prec) (tw := s.kernel.tw) (hx.trans hn)
    (length_cacheView (2 ^ q) c.c0) s.draws
  refine ⟨{ c with c0 := cacheStore s' c.c0 }, fun hc => hc.store_c0 (hs' ▸ hK.le_cmax), ?_⟩
  simp only [engine, engineInv, hn, hK.ifswap_eq, hrun]
  rfl

theorem engine_bluestein_answers (hkind : s.kernel.kind = .bluestein) :
    let r := runDraw (convolverOf s.params s.kernel q xb) s.draws
    AnswersWhateverCaches s (engine false · xb) (r.1.1, r.2) (Sched.atPass (2 ^ q / 2) q) := by
  intro r c
  obtain ⟨h1, h2, s', hs', hrun⟩ := bsFwd_run hK hkind xb (length_cacheView (2 ^ q) c.c0) s.draws
  refine ⟨{ c0 := cacheStore s' c.c0, c1 := cacheStore r.1.2.1 c.c1, c2 := cacheStore r.1.2.2 c.c2 }, ?_, ?_⟩
  · rintro ⟨hc0, hc1, hc2⟩
    exact ⟨length_cacheStore_le (hs' ▸ hK.le_cmax) hc0, length_cacheStore_le (h1 ▸ hK.le_cmax) hc1,
      length_cacheStore_le (h2 ▸ hK.le_cmax) hc2⟩
  · simp only [engine, engineFwd, hkind, bluesteinFwd, hK.e_eq, hrun]
    rfl

end EngineRuns

/-- A run's result, draws and loop state are the same for all contents of the caches (R39, R200). -/
theorem engine_answers {s : State} {inverse : Bool} {xb : List Cplx} (hwf : s.kernel.wf s.params)
    (hruns : s.kernel.Runs inverse) (hx : xb.length = s.kernel.n) :
    ∃ r sched, AnswersWhateverCaches s (engine inverse · xb) r sched := by
  obtain ⟨hk, hinv⟩ := hruns
  obtain ⟨q, hK⟩ := hwf.exists_engineSize hk
  cases hkind : s.kernel.kind with
  | none => exact absurd hkind hk
  | radix2 =>
    cases inverse with
    | false => exact ⟨_, _, engine_radix2Fwd_answers hK hkind hx⟩
    | true => exact ⟨_, _, engine_radix2Inv_answers hK hkind hx⟩
  | bluestein =>
    cases inverse with
    | false => exact ⟨_, _, engine_bluestein_answers hK hkind⟩
    | true => exact absurd hkind (hinv rfl)

end Sys2Proof.Machine

/-! SUPPORT. What a command with status `OK` has checked, and that its effect is the same but for the caches whatever they
held (R39, R200, R242). -/

namespace Sys2Proof.Machine

/-! What the checks say. -/

theorem descChecks_pass_iff {P : Params} {d : Desc} : (∀ x ∈ descChecks P d, x.1 = false) ↔ d.passes P := by
  simp [descChecks, passes_iff]

/-- What a transform with status `OK` has checked (R194 to R198). -/
structure TransformChecked (s : State) (inverse : Bool) (src dst : Desc) : Prop where
  runs : s.kernel.Runs inverse
  src_n : src.n = s.kernel.n
  dst_passes : dst.passes s.params

theorem inPlaceCode_ok {s : State} {l : Latch} {inverse : Bool} (h : inPlaceCode s l inverse = .ok) :
    TransformChecked s inverse (inPlaceDesc l) (inPlaceDesc l) := by
  rw [inPlaceCode, firstFailing_eq_ok (by simp [descChecks])] at h
  simp only [List.forall_mem_append, descChecks_pass_iff, List.forall_mem_cons] at h
  obtain ⟨⟨⟨hk, hinv, -⟩, hpass⟩, hn, -⟩ := h
  exact ⟨⟨by simpa using hk, by simpa using hinv⟩, by simpa using hn, hpass⟩

theorem copyCode_ok {s : State} {l : Latch} {t : ElemType} {inverse : Bool} (h : copyCode s l t inverse = .ok) :
    TransformChecked s inverse (firstDesc l t) (secondDesc l) := by
  rw [copyCode, firstFailing_eq_ok (by simp [descChecks])] at h
  simp only [List.forall_mem_append, descChecks_pass_iff, List.forall_mem_cons] at h
  obtain ⟨⟨⟨⟨hk, hinv, -⟩, -⟩, hpass⟩, -, hn, -⟩ := h
  simp only [Bool.or_eq_false_iff, decide_eq_false_iff_not, not_not] at hn
  exact ⟨⟨by simpa using hk, by simpa using hinv⟩, hn.1, hpass⟩

theorem oneBufferCode_ok {s : State} {l : Latch} {t : ElemType} (h : oneBufferCode s l t = .ok) :
    (firstDesc l t).passes s.params := by
  rw [oneBufferCode, firstFailing_eq_ok (by simp [descChecks])] at h
  exact descChecks_pass_iff.1 h

theorem amplCode_ok {s : State} {l : Latch} (h : amplCode s l = .ok) : (firstDesc l .real).passes s.params := by
  rw [amplCode, firstFailing_eq_ok (by simp [descChecks])] at h
  simp only [List.forall_mem_append, descChecks_pass_iff] at h
  exact h.1.1

/-! Effects on states that differ only in the caches. -/

/-- From `s` with any caches, `f` ends in `t` but for the caches, which stay within capacity. -/
def EndsWhateverCaches (s : State) (f : State → State) (t : State) : Prop :=
  ∀ c : Caches, ∃ c' : Caches, (c.fit s.params → c'.fit s.params) ∧ f { s with caches := c } = { t with caches := c' }

theorem writeBack_withCaches (s : State) (c : Caches) (d : Desc) (m : Memory) :
    State.writeBack { s with caches := c } d m = { s.writeBack d m with caches := c } := by
  unfold State.writeBack
  split <;> rfl

theorem shiftEffect_withCaches (d : Desc) (s : State) (c : Caches) :
    shiftEffect d { s with caches := c } = { shiftEffect d s with caches := c } := by
  unfold shiftEffect
  split
  · rfl
  · split <;> exact writeBack_withCaches s c d _

theorem freqEffect_withCaches (d : Desc) (dt : FBits) (s : State) (c : Caches) :
    freqEffect d dt { s with caches := c } = { freqEffect d dt s with caches := c } := by
  unfold freqEffect
  split
  · rfl
  · exact writeBack_withCaches (s.withDraws _) c d _

theorem amplEffect_withCaches (a sp : Desc) (s : State) (c : Caches) :
    amplEffect a sp { s with caches := c } = { amplEffect a sp s with caches := c } := by
  unfold amplEffect
  split
  · rfl
  · exact writeBack_withCaches (s.withDraws _) c a _

theorem length_loadPromoted (s : State) (d : Desc) : (loadPromoted s d).length = d.n := by
  unfold loadPromoted
  split <;> simp [loadC, loadR]

theorem transformEffect_ends {s : State} {inverse : Bool} {src dst : Desc} (hwf : s.kernel.wf s.params)
    (hchecked : TransformChecked s inverse src dst) :
    ∃ t, EndsWhateverCaches s (transformEffect inverse src dst) t := by
  obtain ⟨r, sched, hrun⟩ :=
    engine_answers hwf hchecked.runs ((length_loadPromoted s src).trans hchecked.src_n)
  let u := s.withScratch s.caches sched r.2
  refine ⟨u.writeBackC dst r.1, fun c => ?_⟩
  obtain ⟨c', hfit, hc⟩ := hrun c
  exact ⟨c', hfit, (congrArg (fun a => a.2.writeBackC dst a.1) hc).trans (writeBack_withCaches u c' dst _)⟩

theorem Caches.fit_unwritten (P : Params) : Caches.unwritten.fit P := ⟨Nat.zero_le _, Nat.zero_le _, Nat.zero_le _⟩

/-- Every command's effect is the same but for the caches whatever they held. -/
theorem effectOf_ends {s : State} {i : Instr} (hwf : s.kernel.wf s.params) (hok : statusCode s s.inFlight i = .ok) :
    ∃ t, EndsWhateverCaches s (effectOf s i) t := by
  cases i
  case cfgR2 => exact ⟨cfgR2Effect s.inFlight s, fun c => ⟨c, id, rfl⟩⟩
  case cfgBs => exact ⟨cfgBsEffect s.inFlight s, fun c => ⟨c, id, rfl⟩⟩
  case release => exact ⟨releaseEffect s, fun c => ⟨.unwritten, fun _ => Caches.fit_unwritten _, rfl⟩⟩
  case fft => exact transformEffect_ends hwf (inPlaceCode_ok hok)
  case ifft => exact transformEffect_ends hwf (inPlaceCode_ok hok)
  case fftCopyC => exact transformEffect_ends hwf (copyCode_ok hok)
  case fftCopyR => exact transformEffect_ends hwf (copyCode_ok hok)
  case ifftCopyC => exact transformEffect_ends hwf (copyCode_ok hok)
  case ifftCopyR => exact transformEffect_ends hwf (copyCode_ok hok)
  case fftshiftC => exact ⟨_, fun c => ⟨c, id, shiftEffect_withCaches _ s c⟩⟩
  case fftshiftR => exact ⟨_, fun c => ⟨c, id, shiftEffect_withCaches _ s c⟩⟩
  case fftfreq => exact ⟨_, fun c => ⟨c, id, freqEffect_withCaches _ _ s c⟩⟩
  case fftampl => exact ⟨_, fun c => ⟨c, id, amplEffect_withCaches _ _ s c⟩⟩

theorem statusCode_withCaches (s : State) (c : Caches) (l : Latch) (i : Instr) :
    statusCode { s with caches := c } l i = statusCode s l i := by
  cases i <;> rfl

theorem effectOf_withCaches (s : State) (c : Caches) (i : Instr) : effectOf { s with caches := c } i = effectOf s i := by
  cases i <;> rfl

theorem exec_withCaches (s : State) (c : Caches) (i : Instr) :
    exec i { s with caches := c } = conclude { s with caches := c } (statusCode s s.inFlight i) (effectOf s i) := by
  rw [exec_eq_conclude, statusCode_withCaches, effectOf_withCaches]
  rfl

/-- Settles O45: both runs end in one state but for the caches, by the engine's independence of its scratch. -/
theorem cachesNeverMatter : Obligations.CachesNeverMatter := by
  intro i s t t' c hwf hs hc
  rw [exec_eq_conclude] at hs
  rw [exec_withCaches] at hc
  by_cases hok : statusCode s s.inFlight i = .ok
  · obtain ⟨u, hends⟩ := effectOf_ends hwf hok
    obtain ⟨c₁, -, h₁⟩ := hends s.caches
    obtain ⟨c₂, -, h₂⟩ := hends c
    rw [hok, conclude_ok, h₂] at hc
    rw [hok, conclude_ok, show effectOf s i s = { u with caches := c₁ } from h₁] at hs
    cases hs
    cases hc
    rfl
  · rw [conclude_error hok] at hs hc
    cases hs
    cases hc
    rfl

end Sys2Proof.Machine

/-! SUPPORT. The integer units on the operands the configurations give them (R116, R118, R120), and the kernel contexts the
configurations make (R170, R171). -/

namespace Sys2Proof.Machine

/-- `ispow2` is being a power of two (R120). -/
theorem ispow2_iff {n : Int} : ispow2 n = true ↔ ∃ q : Nat, n = 2 ^ q := by
  simp only [ispow2, Bool.and_eq_true, decide_eq_true_eq]
  constructor
  · rintro ⟨hpos, hpow⟩
    refine ⟨Nat.log2 n.toNat, ?_⟩
    rw [← Int.toNat_of_nonneg (show 0 ≤ n by omega), Int.toNat_natCast, ← Nat.cast_ofNat, ← Nat.cast_pow, ← hpow]
  · rintro ⟨q, rfl⟩
    have hcast : ((2 : Int) ^ q) = ((2 ^ q : Nat) : Int) := by norm_cast
    rw [hcast, Int.toNat_natCast, Nat.log2_two_pow]
    exact ⟨by exact_mod_cast Nat.one_le_two_pow, rfl⟩

/-- `pwr2` of a power of two within 64 bits is its exponent (R116). -/
theorem pwr2Cascade_two_pow : ∀ q < 64, pwr2Cascade (2 ^ q) = q := by decide

theorem pwr2_two_pow {q : Nat} (hq : q < 64) : pwr2 ((2 ^ q : Nat) : Int) = .ok q := by
  have hpos : ¬((2 ^ q : Nat) : Int) ≤ 0 := by
    have := Nat.two_pow_pos q
    omega
  rw [pwr2, if_neg hpos, Int.toNat_natCast, pwr2Cascade_two_pow q hq]

/-! The bit-smear of R118: each turn doubles the run of ones below the top bit. -/

/-- `y` has no bit from `m` on, and its `w` bits below `m` are ones. -/
def TopOnes (m w y : Nat) : Prop := y < 2 ^ m ∧ ∀ i, i < m → m ≤ i + w → y.testBit i = true

theorem TopOnes.smear {m w y : Nat} (h : TopOnes m w y) : TopOnes m (2 * w) (y ||| y >>> w) := by
  obtain ⟨hlt, hones⟩ := h
  refine ⟨Nat.or_lt_two_pow hlt (lt_of_le_of_lt (Nat.shiftRight_le y w) hlt), fun i hi hw => ?_⟩
  rw [Nat.testBit_or, Nat.testBit_shiftRight, Bool.or_eq_true]
  by_cases h : m ≤ i + w
  · exact .inl (hones i hi h)
  · exact .inr (hones (w + i) (by omega) (by omega))

theorem TopOnes.of_log2 {y : Nat} (hy : y ≠ 0) : TopOnes (Nat.log2 y + 1) 1 y := by
  refine ⟨Nat.lt_log2_self, fun i hi hw => ?_⟩
  obtain rfl : i = Nat.log2 y := by omega
  exact Nat.testBit_log2 hy

theorem TopOnes.eq {m w y : Nat} (h : TopOnes m w y) (hw : m ≤ w) : y = 2 ^ m - 1 := by
  obtain ⟨hlt, hones⟩ := h
  refine Nat.eq_of_testBit_eq fun i => ?_
  rw [Nat.testBit_two_pow_sub_one]
  by_cases hi : i < m
  · rw [hones i hi (by omega), decide_eq_true hi]
  · rw [decide_eq_false hi]
    exact Nat.testBit_lt_two_pow (hlt.trans_le (Nat.pow_le_pow_right (by decide) (by omega)))

/-- From 2 on `clp2` is the smallest power of two not below its operand (R118). -/
theorem clp2_eq_two_pow {x : Nat} (h2 : 2 ≤ x) (h64 : x < 2 ^ 64) :
    ∃ q, clp2 x = 2 ^ q ∧ x ≤ 2 ^ q ∧ 2 ^ q < 2 * x := by
  have hy : x - 1 ≠ 0 := by omega
  have hm : Nat.log2 (x - 1) + 1 ≤ 64 := (Nat.log2_lt hy).2 (by omega)
  have hsmear := (TopOnes.of_log2 hy).smear.smear.smear.smear.smear.smear.eq hm
  refine ⟨Nat.log2 (x - 1) + 1, ?_, ?_, ?_⟩
  · rw [clp2, if_neg (by omega), if_neg (by omega)]
    show _ + 1 = _
    rw [← Nat.sub_add_cancel (Nat.one_le_two_pow (n := Nat.log2 (x - 1) + 1)), ← hsmear]
    rfl
  · have := Nat.lt_log2_self (n := x - 1)
    omega
  · have := Nat.log2_self_le hy
    rw [pow_succ]
    omega

/-- A Bluestein engine is the smallest power of two not below `2(N-1)` (R35). -/
theorem bluesteinSize_eq_two_pow {N : Nat} (h3 : 3 ≤ N) (hN : N < 2 ^ 63) :
    ∃ q, bluesteinSize N = 2 ^ q ∧ 2 * (N - 1) ≤ 2 ^ q ∧ 2 ^ q < 4 * (N - 1) := by
  obtain ⟨q, hq, hle, hlt⟩ := clp2_eq_two_pow (x := 2 * (N - 1)) (by omega) (by omega)
  exact ⟨q, hq, hle, by omega⟩

/-! What a configuration with status `OK` has checked. -/

theorem two_pow_le_cmax_iff {P : Params} {q : Nat} : 2 ^ q ≤ cmax P ↔ q ≤ P.log2Cmax :=
  Nat.pow_le_pow_iff_right (by decide)

theorem cfgR2Code_ok {s : State} {l : Latch} (h : cfgR2Code s l = .ok) :
    ∃ q : Nat, kernelSize l = ((2 ^ q : Nat) : Int) ∧ q ≤ s.params.log2Cmax := by
  rw [cfgR2Code, firstFailing_eq_ok (by simp)] at h
  simp only [List.forall_mem_cons, Bool.not_eq_false', decide_eq_false_iff_not] at h
  obtain ⟨hpow, hfit, -⟩ := h
  obtain ⟨q, hq⟩ := ispow2_iff.1 hpow
  have hcast : kernelSize l = ((2 ^ q : Nat) : Int) := by rw [hq]; norm_cast
  rw [hcast] at hfit
  exact ⟨q, hcast, two_pow_le_cmax_iff.1 (by omega)⟩

theorem cfgBsCode_ok {s : State} {l : Latch} (h : cfgBsCode s l = .ok) :
    ∃ N q : Nat, kernelSize l = N ∧ 3 ≤ N ∧ (∀ j, N ≠ 2 ^ j) ∧ bluesteinSize N = 2 ^ q ∧ 2 * (N - 1) ≤ 2 ^ q ∧
      2 ^ q < 4 * (N - 1) ∧ q ≤ s.params.log2Cmax := by
  rw [cfgBsCode, firstFailing_eq_ok (by simp)] at h
  simp only [List.forall_mem_cons, Bool.or_eq_false_iff, decide_eq_false_iff_not, not_lt] at h
  obtain ⟨⟨h3, hpow⟩, hfit, -⟩ := h
  obtain ⟨N, hN⟩ := Int.eq_ofNat_of_zero_le (show 0 ≤ kernelSize l by omega)
  have hbound : kernelSize l < 2 ^ (64 - 1) := BitVec.toInt_lt
  rw [hN] at h3 hpow hfit hbound
  obtain ⟨q, hq, hle, hlt⟩ := bluesteinSize_eq_two_pow (N := N) (by omega) (by omega)
  refine ⟨N, q, hN, by omega, fun j hj => ?_, hq, hle, hlt, ?_⟩
  · have htrue : ispow2 (N : Int) = true := ispow2_iff.2 ⟨j, by exact_mod_cast hj⟩
    exact Bool.false_ne_true (hpow.symm.trans htrue)
  · rw [Int.toNat_natCast, hq] at hfit
    exact two_pow_le_cmax_iff.1 hfit

/-! The kernel after a command. -/

/-- A configuration whose engine is `2^q` writes that exponent to `LOG2E` (R175). -/
theorem configure_kernel {kind : KernelKind} {N q : Nat} {circ : List Cplx} {s : State} (hq : q < 64) :
    (configure kind N (2 ^ q) circ s).kernel =
      mkKernel kind N (2 ^ q) q (runDraw (twgen s.params (2 ^ q / 2)) s.draws).1 circ := by
  simp only [configure, pwr2_two_pow hq]
  rfl

theorem cfgR2Effect_kernel_wf {s : State} (hP : s.params.log2Cmax ≤ 62) (hok : cfgR2Code s s.inFlight = .ok) :
    (cfgR2Effect s.inFlight s).kernel.wf s.params := by
  obtain ⟨q, hN, hq⟩ := cfgR2Code_ok hok
  rw [cfgR2Effect, hN, Int.toNat_natCast, configure_kernel (by omega)]
  exact ⟨q, s.draws, hq, rfl⟩

theorem cfgBsEffect_kernel_wf {s : State} (hP : s.params.log2Cmax ≤ 62) (hok : cfgBsCode s s.inFlight = .ok) :
    (cfgBsEffect s.inFlight s).kernel.wf s.params := by
  obtain ⟨N, q, hN, h3, hpow, hM, hle, hlt, hq⟩ := cfgBsCode_ok hok
  rw [cfgBsEffect, hN, Int.toNat_natCast, hM, configure_kernel (by omega)]
  exact ⟨N, q, s.draws, h3, hpow, hq, hle, hlt, rfl⟩

theorem transformEffect_kernel (inverse : Bool) (src dst : Desc) (s : State) :
    (transformEffect inverse src dst s).kernel = s.kernel :=
  (writeBack_kernel _ _ _).trans (engine_kernel _ _ _)

theorem shiftEffect_kernel (d : Desc) (s : State) : (shiftEffect d s).kernel = s.kernel := by
  unfold shiftEffect
  split
  · rfl
  · split <;> exact writeBack_kernel _ _ _

theorem freqEffect_kernel (d : Desc) (dt : FBits) (s : State) : (freqEffect d dt s).kernel = s.kernel := by
  unfold freqEffect
  split
  · rfl
  · exact writeBack_kernel _ _ _

theorem amplEffect_kernel (a sp : Desc) (s : State) : (amplEffect a sp s).kernel = s.kernel := by
  unfold amplEffect
  split
  · rfl
  · exact writeBack_kernel _ _ _

/-- Every command with status `OK` leaves a kernel context a configuration makes (R145, R174). -/
theorem effectOf_kernel_wf {s : State} {i : Instr} (hP : s.params.log2Cmax ≤ 62) (hwf : s.kernel.wf s.params)
    (hok : statusCode s s.inFlight i = .ok) : (effectOf s i s).kernel.wf s.params := by
  cases i
  case cfgR2 => exact cfgR2Effect_kernel_wf hP hok
  case cfgBs => exact cfgBsEffect_kernel_wf hP hok
  case release => exact rfl
  case fft => exact (transformEffect_kernel ..).symm ▸ hwf
  case ifft => exact (transformEffect_kernel ..).symm ▸ hwf
  case fftCopyC => exact (transformEffect_kernel ..).symm ▸ hwf
  case fftCopyR => exact (transformEffect_kernel ..).symm ▸ hwf
  case ifftCopyC => exact (transformEffect_kernel ..).symm ▸ hwf
  case ifftCopyR => exact (transformEffect_kernel ..).symm ▸ hwf
  case fftshiftC => exact (shiftEffect_kernel ..).symm ▸ hwf
  case fftshiftR => exact (shiftEffect_kernel ..).symm ▸ hwf
  case fftfreq => exact (freqEffect_kernel ..).symm ▸ hwf
  case fftampl => exact (amplEffect_kernel ..).symm ▸ hwf

end Sys2Proof.Machine

/-! SUPPORT. Completion, `STATUS` and the invariant along every step (R25, R26, R27, R41). -/

namespace Sys2Proof.Machine

/-! Completion. -/

/-- Completing any state that agrees with `s` outside kernel, caches and memory is a completion of `s`. -/
theorem SameOutside.completes {s u : State} (h : SameOutside s u) (c : ErrCode) : Completes s (u.complete c) c where
  err := rfl
  busy := rfl
  pf := by rw [State.complete_status_pf, h.status]
  latch := rfl
  dstRaced := rfl
  a0 := h.a0
  a1 := h.a1
  a2 := h.a2
  a3 := h.a3
  params := h.params
  host := h.host
  agenda := h.agenda

/-- Settles O5: every command is its status code and an effect that touches no register, `STATUS` or host field. -/
theorem everyCommandCompletes : Obligations.EveryCommandCompletes := by
  intro i s
  by_cases hok : statusCode s s.inFlight i = .ok
  · exact ⟨_, exec_of_ok hok, hok ▸ (effectOf_same s i s).completes .ok⟩
  · exact ⟨_, exec_of_error hok, (SameOutside.refl s).completes _⟩

theorem completes_of_exec {i : Instr} {s t : State} (h : exec i s = .next t) :
    Completes s t (statusCode s s.inFlight i) := by
  obtain ⟨u, hu, hc⟩ := everyCommandCompletes i s
  obtain rfl : u = t := Host.Outcome.next.inj (hu.symm.trans h)
  exact hc

/-- The CORE's step leaves an idle state as it is, and completes a command in flight with some code (R253). -/
theorem coreStep_completes {s t : State} (h : coreStep s = .next t) :
    (s.latch = none ∧ t = s) ∨ (s.latch.isSome = true ∧ ∃ c, Completes s t c) := by
  rcases coreStep_cases h with hidle | ⟨l, hl, -, rfl⟩ | ⟨l, i, hl, -, hexec⟩
  · exact .inl hidle
  · exact .inr ⟨by simp [hl], _, (SameOutside.refl s).completes _⟩
  · exact .inr ⟨by simp [hl], _, completes_of_exec hexec⟩

/-! `STATUS` under the host's actions. -/

@[simp] theorem hostMemStore_status (s : State) (a : Nat) (bytes : List Byte) :
    (hostMemStore s a bytes).status = s.status := by
  unfold hostMemStore
  split <;> rfl

@[simp] theorem hostMemLoad_status (s : State) (a n : Nat) : (hostMemLoad s a n).status = s.status := by
  unfold hostMemLoad
  split <;> rfl

/-- What a host write does to a guarded register while no command is in flight (R22, R23). -/
def Reg.idleWrite (s : State) (v : Word) : Reg → State
  | .cmd => s.accept v
  | .a0 => { s with a0 := v }
  | .a1 => { s with a1 := v }
  | .a2 => { s with a2 := v }
  | .a3 => { s with a3 := v }
  | _ => s

theorem writeReg_of_idle {s : State} {v : Word} {r : Reg} (hb : s.status.busy = false) :
    writeReg s v r = r.idleWrite s v := by
  cases r <;> simp [writeReg, whenIdle, hb, Reg.idleWrite]

/-- A host write is ignored, is a protocol fault, or has the register's own effect (R22, R23, R27). -/
theorem writeReg_cases (s : State) (v : Word) (r : Reg) :
    writeReg s v r = s ∨ (r.guarded = true ∧ s.status.busy = true ∧ writeReg s v r = s.protocolFault) ∨
      (r.guarded = true ∧ s.status.busy = false ∧ writeReg s v r = r.idleWrite s v) := by
  cases hr : r.guarded
  · exact .inl (writeReg_of_not_guarded hr)
  · cases hb : s.status.busy
    · exact .inr (.inr ⟨rfl, rfl, writeReg_of_idle hb⟩)
    · exact .inr (.inl ⟨rfl, rfl, writeReg_of_busy hr hb⟩)

@[simp] theorem Reg.idleWrite_status_err (s : State) (v : Word) (r : Reg) :
    (r.idleWrite s v).status.err = s.status.err := by
  cases r <;> rfl

@[simp] theorem Reg.idleWrite_status_pf (s : State) (v : Word) (r : Reg) :
    (r.idleWrite s v).status.pf = s.status.pf := by
  cases r <;> rfl

theorem writeReg_status_err (s : State) (v : Word) (r : Reg) : (writeReg s v r).status.err = s.status.err := by
  rcases writeReg_cases s v r with h | ⟨-, -, h⟩ | ⟨-, -, h⟩ <;> simp [h]

/-- No host action changes `ERR` (R25). -/
theorem hostAct_status_err {s t : State} (h : hostAct s = .next t) : t.status.err = s.status.err := by
  rcases hostAct_cases h with rfl | ⟨addr, bytes, rest, -, h⟩ | ⟨addr, n, rest, -, h⟩ | ⟨a, rest, -, -, -, rfl | rfl⟩
  · rfl
  · rcases hostStore_cases h with ⟨off, -, rfl⟩ | ⟨-, rfl⟩
    · exact writeReg_status_err _ _ _
    · simp
  · rcases hostLoad_cases h with ⟨off, -, rfl⟩ | ⟨-, rfl⟩ <;> simp
  · rfl
  · rfl

/-- The host's next action is a store to a guarded register while a command is in flight (R27). -/
def State.storesGuarded (s : State) : Prop :=
  s.status.busy = true ∧ ∃ addr bytes rest, s.host.program = .store addr bytes :: rest ∧
    ∃ off, route s.params addr.toNat bytes.length = .register off ∧ (regAt off).guarded = true

/-- A host action keeps `PF`, or is a store to a guarded register with `BUSY = 1` (R27). -/
theorem hostAct_status_pf {s t : State} (h : hostAct s = .next t) :
    t.status.pf = s.status.pf ∨ (t.status.pf = true ∧ s.storesGuarded) := by
  rcases hostAct_cases h with rfl | ⟨addr, bytes, rest, hp, h⟩ | ⟨addr, n, rest, -, h⟩ | ⟨a, rest, -, -, -, rfl | rfl⟩
  · exact .inl rfl
  · rcases hostStore_cases h with ⟨off, hroute, rfl⟩ | ⟨-, rfl⟩
    · rcases writeReg_cases (s.withProgram rest) (BitVec.ofNat 64 (leValue bytes)) (regAt off) with
        hw | ⟨hg, hb, hw⟩ | ⟨-, -, hw⟩
      · exact .inl (by rw [hw]; rfl)
      · exact .inr ⟨by rw [hw]; rfl, hb, addr, bytes, rest, hp, off, hroute, hg⟩
      · exact .inl (by rw [hw]; simp)
    · exact .inl (by simp)
  · rcases hostLoad_cases h with ⟨off, -, rfl⟩ | ⟨-, rfl⟩ <;> exact .inl (by simp)
  · exact .inl rfl
  · exact .inl rfl

/-- Settles O56: no host action changes `ERR`, and an idle CORE changes nothing. -/
theorem errChangesOnlyAtCompletion : Obligations.ErrChangesOnlyAtCompletion := by
  intro s t h hne
  rcases step_cases h with ⟨-, h⟩ | ⟨hcore, h⟩ | ⟨hplatform, -⟩
  · exact absurd (hostAct_status_err h) hne
  · rcases coreStep_completes h with ⟨-, rfl⟩ | ⟨hl, c, hc⟩
    · exact absurd rfl hne
    · exact .inr ⟨hcore, hl, hc.busy⟩
  · exact .inl hplatform

/-- A step keeps `PF`, is reset, or is a host store to a guarded register with `BUSY = 1` (R27, R271). -/
theorem step_status_pf {s t : State} (h : step s = .next t) :
    t.status.pf = s.status.pf ∨ (s.nextAgent = .platform ∧ t.status.pf = false) ∨
      (t.status.pf = true ∧ s.nextAgent = .host ∧ s.storesGuarded) := by
  rcases step_cases h with ⟨hhost, h⟩ | ⟨-, h⟩ | ⟨hplatform, rfl⟩
  · exact (hostAct_status_pf h).imp id fun ⟨hset, hstore⟩ => .inr ⟨hset, hhost, hstore⟩
  · rcases coreStep_completes h with ⟨-, rfl⟩ | ⟨-, c, hc⟩
    · exact .inl rfl
    · exact .inl hc.pf
  · exact .inr (.inl ⟨hplatform, rfl⟩)

/-- Settles O57, by the three things a step can do to `PF`. -/
theorem protocolFaultSticky : Obligations.ProtocolFaultSticky := by
  intro s t h
  rcases step_status_pf h with hkeep | ⟨hplatform, hclear⟩ | ⟨hset, hstore⟩
  · exact ⟨fun hpf _ => hkeep.trans hpf,
      fun hpf hpf' => absurd (hpf.symm.trans (hkeep.symm.trans hpf')) Bool.false_ne_true⟩
  · exact ⟨fun _ hne => absurd hplatform hne, fun _ hpf => absurd (hclear.symm.trans hpf) Bool.false_ne_true⟩
  · exact ⟨fun _ _ => hset, fun _ _ => hstore⟩

/-! Host memory under the commands. -/

theorem writeBack_mem_wf {s : State} {d : Desc} {m : Memory} (hs : s.mem.wf = true) (hm : m.wf = true)
    (hd : d.passes s.params) : (s.writeBack d m).mem.wf = true := by
  unfold State.writeBack
  split
  · refine Memory.wf_scramble hs fun j hj => ?_
    have hn : 0 < d.n := Nat.pos_of_ne_zero fun h => by simp [Desc.size, h] at hj
    have := (hd hn).2.1
    omega
  · exact hm

theorem writeBackC_mem_wf {s : State} {d : Desc} {xb : List Cplx} (hs : s.mem.wf = true) (ht : d.t = .complex)
    (hd : d.passes s.params) : (s.writeBackC d xb).mem.wf = true := by
  refine writeBack_mem_wf hs ?_ hd
  rcases Nat.eq_zero_or_pos d.n with hn | hn
  · simpa [storeC, hn] using hs
  · have := (hd hn).2.1
    rw [Desc.size, ht] at this
    exact Memory.wf_storeC hs this

theorem writeBackR_mem_wf {s : State} {d : Desc} {xb : List FBits} (hs : s.mem.wf = true) (ht : d.t = .real)
    (hd : d.passes s.params) : (s.writeBackR d xb).mem.wf = true := by
  refine writeBack_mem_wf hs ?_ hd
  rcases Nat.eq_zero_or_pos d.n with hn | hn
  · simpa [storeR, hn] using hs
  · have := (hd hn).2.1
    rw [Desc.size, ht] at this
    exact Memory.wf_storeR hs this

theorem transformEffect_mem_wf {s : State} {inverse : Bool} {src dst : Desc} (hs : s.mem.wf = true)
    (ht : dst.t = .complex) (h : TransformChecked s inverse src dst) :
    (transformEffect inverse src dst s).mem.wf = true :=
  writeBackC_mem_wf ((engine_mem ..).symm ▸ hs) ht ((engine_same inverse s _).params.symm ▸ h.dst_passes)

theorem shiftEffect_mem_wf {s : State} {d : Desc} (hs : s.mem.wf = true) (hd : d.passes s.params) :
    (shiftEffect d s).mem.wf = true := by
  unfold shiftEffect
  split
  · exact hs
  · split
    · exact writeBackC_mem_wf hs ‹_› hd
    · exact writeBackR_mem_wf hs ‹_› hd

theorem freqEffect_mem_wf {s : State} {d : Desc} {dt : FBits} (hs : s.mem.wf = true) (ht : d.t = .real)
    (hd : d.passes s.params) : (freqEffect d dt s).mem.wf = true := by
  unfold freqEffect
  split
  · exact hs
  · exact writeBackR_mem_wf (s := s.withDraws _) hs ht hd

theorem amplEffect_mem_wf {s : State} {a sp : Desc} (hs : s.mem.wf = true) (ht : a.t = .real)
    (ha : a.passes s.params) : (amplEffect a sp s).mem.wf = true := by
  unfold amplEffect
  split
  · exact hs
  · exact writeBackR_mem_wf (s := s.withDraws _) hs ht ha

/-- Every command with status `OK` keeps host memory's canonical form. -/
theorem effectOf_mem_wf {s : State} {i : Instr} (hs : s.mem.wf = true) (hok : statusCode s s.inFlight i = .ok) :
    (effectOf s i s).mem.wf = true := by
  cases i
  case cfgR2 => exact hs
  case cfgBs => exact hs
  case release => exact hs
  case fft => exact transformEffect_mem_wf hs rfl (inPlaceCode_ok hok)
  case ifft => exact transformEffect_mem_wf hs rfl (inPlaceCode_ok hok)
  case fftCopyC => exact transformEffect_mem_wf hs rfl (copyCode_ok hok)
  case fftCopyR => exact transformEffect_mem_wf hs rfl (copyCode_ok hok)
  case ifftCopyC => exact transformEffect_mem_wf hs rfl (copyCode_ok hok)
  case ifftCopyR => exact transformEffect_mem_wf hs rfl (copyCode_ok hok)
  case fftshiftC => exact shiftEffect_mem_wf hs (oneBufferCode_ok hok)
  case fftshiftR => exact shiftEffect_mem_wf hs (oneBufferCode_ok hok)
  case fftfreq => exact freqEffect_mem_wf hs rfl (oneBufferCode_ok hok)
  case fftampl => exact amplEffect_mem_wf hs rfl (amplCode_ok hok)

/-! The invariant. -/

theorem Params.wf_log2Cmax_le {P : Params} (h : P.wf = true) : P.log2Cmax ≤ 62 := by
  simp only [Params.wf, Bool.and_eq_true, decide_eq_true_eq] at h
  exact h.1.1.2

/-- A completed state meets the invariant when its memory, kernel and caches do: with no command in flight memory as of
acceptance is memory itself. -/
theorem State.Inv.of_complete {u : State} (c : ErrCode) (hP : u.params.wf = true) (hm : u.mem.wf = true)
    (hk : u.kernel.wf u.params) (hc : u.caches.fit u.params) : (u.complete c).Inv where
  params := hP
  mem := hm
  accepted := hm
  latch := ⟨rfl, nofun⟩
  kernel := hk
  caches := hc

theorem effectOf_caches_fit {s : State} {i : Instr} (hwf : s.kernel.wf s.params) (hc : s.caches.fit s.params)
    (hok : statusCode s s.inFlight i = .ok) : (effectOf s i s).caches.fit s.params := by
  obtain ⟨t, hends⟩ := effectOf_ends hwf hok
  obtain ⟨c', hfit, heq⟩ := hends s.caches
  rw [show effectOf s i s = { t with caches := c' } from heq]
  exact hfit hc

theorem exec_keeps_inv {i : Instr} {s t : State} (hs : s.Inv) (h : exec i s = .next t) : t.Inv := by
  rcases exec_cases h with ⟨hok, rfl⟩ | ⟨-, rfl⟩
  · have hP := (effectOf_same s i s).params
    refine State.Inv.of_complete _ (hP ▸ hs.params) (effectOf_mem_wf hs.mem hok) ?_ ?_
    · exact hP ▸ effectOf_kernel_wf (Params.wf_log2Cmax_le hs.params) hs.kernel hok
    · exact hP ▸ effectOf_caches_fit hs.kernel hs.caches hok
  · exact .of_complete _ hs.params hs.mem hs.kernel hs.caches

theorem coreStep_keeps_inv {s t : State} (hs : s.Inv) (h : coreStep s = .next t) : t.Inv ∧ t.params = s.params := by
  rcases coreStep_cases h with ⟨-, rfl⟩ | ⟨l, -, -, rfl⟩ | ⟨l, i, -, -, hexec⟩
  · exact ⟨hs, rfl⟩
  · exact ⟨.of_complete _ hs.params hs.mem hs.kernel hs.caches, rfl⟩
  · exact ⟨exec_keeps_inv hs hexec, (completes_of_exec hexec).params⟩

theorem platformReset_inv {s : State} (hs : s.Inv) : (platformReset s).Inv where
  params := hs.params
  mem := Memory.wf_scrambleAll hs.mem
  accepted := Memory.wf_scrambleAll hs.mem
  latch := ⟨rfl, nofun⟩
  kernel := rfl
  caches := Caches.fit_unwritten _

theorem accepted_wf_of {s : State} (hm : s.mem.wf = true) (hl : ∀ l, s.latch = some l → l.mem.wf = true) :
    s.accepted.wf = true := by
  cases h : s.latch with
  | none => rwa [State.accepted_of_idle h]
  | some l => rw [State.accepted_of_latch h]; exact hl l h

theorem State.Inv.latched_wf {s : State} (hs : s.Inv) {l : Latch} (hl : s.latch = some l) : l.mem.wf = true :=
  State.accepted_of_latch hl ▸ hs.accepted

theorem idleWrite_inv {s : State} (hs : s.Inv) (v : Word) (r : Reg) : (r.idleWrite s v).Inv := by
  have hlatched := fun l => hs.latched_wf (l := l)
  obtain ⟨hP, hm, -, hl, hk, hc⟩ := hs
  cases r
  case cmd => exact ⟨hP, hm, hm, ⟨rfl, fun _ => rfl⟩, hk, hc⟩
  all_goals exact ⟨hP, hm, accepted_wf_of hm hlatched, hl, hk, hc⟩

theorem writeReg_inv {s : State} (hs : s.Inv) (v : Word) (r : Reg) :
    (writeReg s v r).Inv ∧ (writeReg s v r).params = s.params := by
  rcases writeReg_cases s v r with h | ⟨-, -, h⟩ | ⟨-, -, h⟩
  · rw [h]
    exact ⟨hs, rfl⟩
  · obtain ⟨hP, hm, ha, hl, hk, hc⟩ := hs
    rw [h]
    exact ⟨⟨hP, hm, ha, hl, hk, hc⟩, rfl⟩
  · rw [h]
    exact ⟨idleWrite_inv hs v r, by cases r <;> rfl⟩

/-- An extent can be raced only with a command in flight. -/
theorem latch_isSome_of_raced {s : State} {a n : Nat} {b : Buffer} (h : b ∈ s.racedBuffers a n) :
    s.latch.isSome = true := by
  cases hl : s.latch with
  | none =>
    rw [State.racedBuffers, buffersInFlight_of_idle hl] at h
    cases h
  | some l => rfl

@[simp] theorem hostMemStore_params (s : State) (a : Nat) (bytes : List Byte) :
    (hostMemStore s a bytes).params = s.params := by
  unfold hostMemStore
  split <;> rfl

@[simp] theorem hostMemStore_kernel (s : State) (a : Nat) (bytes : List Byte) :
    (hostMemStore s a bytes).kernel = s.kernel := by
  unfold hostMemStore
  split <;> rfl

@[simp] theorem hostMemStore_caches (s : State) (a : Nat) (bytes : List Byte) :
    (hostMemStore s a bytes).caches = s.caches := by
  unfold hostMemStore
  split <;> rfl

theorem hostMemStore_mem_wf {s : State} {a : Nat} {bytes : List Byte} (hs : s.mem.wf = true)
    (h : a + bytes.length ≤ 2 ^ 64) : (hostMemStore s a bytes).mem.wf = true := by
  have hw := Memory.wf_writeBytes hs h
  unfold hostMemStore
  split
  · exact hw
  · exact Memory.wf_scrambleAll hw

theorem hostMemStore_inv {s : State} {a : Nat} {bytes : List Byte} (hs : s.Inv) (h : a + bytes.length ≤ 2 ^ 64) :
    (hostMemStore s a bytes).Inv where
  params := by simpa using hs.params
  mem := hostMemStore_mem_wf hs.mem h
  accepted := accepted_wf_of (hostMemStore_mem_wf hs.mem h) fun l hl => hs.latched_wf (hostMemStore_latch .. ▸ hl)
  latch := by
    obtain ⟨hbusy, hraced⟩ := hs.latch
    refine ⟨by rw [hostMemStore_status, hostMemStore_latch, hbusy], fun hd => ?_⟩
    rw [hostMemStore_dstRaced, Bool.or_eq_true, List.any_eq_true] at hd
    rw [hostMemStore_status]
    rcases hd with hd | ⟨b, hb, -⟩
    · exact hraced hd
    · exact hbusy.trans (latch_isSome_of_raced hb)
  kernel := by simpa using hs.kernel
  caches := by simpa using hs.caches

theorem recordLoad_inv {s : State} (hs : s.Inv) (bytes : List Byte) : (s.recordLoad bytes).Inv := by
  obtain ⟨hP, hm, ha, hl, hk, hc⟩ := hs
  exact ⟨hP, hm, ha, hl, hk, hc⟩

theorem hostMemLoad_inv {s : State} (hs : s.Inv) (a n : Nat) :
    (hostMemLoad s a n).Inv ∧ (hostMemLoad s a n).params = s.params := by
  obtain ⟨hP, hm, ha, hl, hk, hc⟩ := hs
  unfold hostMemLoad
  split <;> exact ⟨⟨hP, hm, ha, hl, hk, hc⟩, rfl⟩

theorem withProgram_inv {s : State} (hs : s.Inv) (p : List HostAct) : (s.withProgram p).Inv := by
  obtain ⟨hP, hm, ha, hl, hk, hc⟩ := hs
  exact ⟨hP, hm, ha, hl, hk, hc⟩

theorem stopHost_inv {s : State} (hs : s.Inv) : s.stopHost.Inv := by
  obtain ⟨hP, hm, ha, hl, hk, hc⟩ := hs
  exact ⟨hP, hm, ha, hl, hk, hc⟩

theorem tick_inv {s : State} (hs : s.Inv) : s.tick.Inv := by
  obtain ⟨hP, hm, ha, hl, hk, hc⟩ := hs
  exact ⟨hP, hm, ha, hl, hk, hc⟩

theorem hostAct_keeps_inv {s t : State} (hs : s.Inv) (h : hostAct s = .next t) : t.Inv ∧ t.params = s.params := by
  rcases hostAct_cases h with rfl | ⟨addr, bytes, rest, -, h⟩ | ⟨addr, n, rest, -, h⟩ | ⟨a, rest, -, -, -, rfl | rfl⟩
  · exact ⟨hs, rfl⟩
  · rcases hostStore_cases h with ⟨off, -, rfl⟩ | ⟨hroute, rfl⟩
    · exact writeReg_inv (withProgram_inv hs rest) _ _
    · exact ⟨hostMemStore_inv (withProgram_inv hs rest) (route_memory_bound hroute), hostMemStore_params ..⟩
  · rcases hostLoad_cases h with ⟨off, -, rfl⟩ | ⟨-, rfl⟩
    · exact ⟨recordLoad_inv (withProgram_inv hs rest) _, rfl⟩
    · exact hostMemLoad_inv (withProgram_inv hs rest) _ _
  · exact ⟨withProgram_inv hs rest, rfl⟩
  · exact ⟨stopHost_inv (withProgram_inv hs rest), rfl⟩

/-- Settles O59: the host's action, the CORE's step and reset each keep the invariant. -/
theorem stepKeepsInvariant : Obligations.StepKeepsInvariant := by
  intro s t hs h
  rcases step_cases h with ⟨-, h⟩ | ⟨-, h⟩ | ⟨-, rfl⟩
  · exact hostAct_keeps_inv (s := s.tick) (tick_inv hs) h
  · exact coreStep_keeps_inv (s := s.tick) (tick_inv hs) h
  · exact ⟨platformReset_inv (tick_inv hs), rfl⟩

end Sys2Proof.Machine

/-! SUPPORT. The register block: where an aligned register store goes and what it does (R22 to R33, R75, R77), and the fields
of the words it shows (R24, R28, R31). -/

namespace Sys2Proof.Machine

/-! Register stores. -/

@[simp] theorem length_leBytes (n : Nat) : ∀ v, (leBytes n v).length = n := by
  induction n with
  | zero => exact fun _ => rfl
  | succ n ih => exact fun v => congrArg (· + 1) (ih _)

/-- Little-endian bytes give the value's low bits back (R53). -/
theorem leValue_leBytes (n : Nat) : ∀ v, leValue (leBytes n v) = v % 256 ^ n := by
  induction n with
  | zero => exact fun v => (Nat.mod_one v).symm
  | succ n ih =>
    intro v
    rw [leBytes, leValue, ih, BitVec.toNat_ofNat, pow_succ' 256 n, Nat.mod_mul]

theorem ofNat_leValue_leBytes (v : Word) : BitVec.ofNat 64 (leValue (leBytes 8 v.toNat)) = v := by
  rw [leValue_leBytes, Nat.mod_eq_of_lt (by exact v.isLt), BitVec.ofNat_toNat, BitVec.setWidth_eq]

/-- The register block lies whole in the address space (R71). -/
theorem Params.wf_ubase {P : Params} (h : P.wf = true) : P.ubase.toNat + blockSize ≤ 2 ^ 64 := by
  simp only [Params.wf, Bool.and_eq_true, decide_eq_true_eq] at h
  have := P.ubase.isLt
  have := h.1.2
  simp only [blockSize]
  omega

theorem rangesMeet_iff {a n b m : Nat} : rangesMeet a n b m = true ↔ 0 < n ∧ 0 < m ∧ a < b + m ∧ b < a + n := by
  simp [rangesMeet, and_assoc]

/-- An aligned 64-bit access to an offset of the block reaches the register there (R75, R77). -/
theorem route_register {P : Params} {off : Nat} (hP : P.wf = true) (h8 : off % 8 = 0) (hoff : off < 0x100) :
    route P (P.ubase + BitVec.ofNat 64 off).toNat 8 = .register off := by
  have hu := Params.wf_ubase hP
  simp only [blockSize] at hu
  have haddr : (P.ubase + BitVec.ofNat 64 off).toNat = P.ubase.toNat + off := by
    rw [BitVec.toNat_add, BitVec.toNat_ofNat]
    omega
  have hmeet : rangesMeet (P.ubase.toNat + off) 8 P.ubase.toNat blockSize = true :=
    rangesMeet_iff.2 ⟨by decide, by decide, by simp only [blockSize]; omega, by omega⟩
  rw [haddr]
  simp only [route, Nat.add_sub_cancel_left]
  rw [if_neg (by omega), if_pos hmeet, if_pos ⟨trivial, by omega, h8, by simp only [blockSize]; omega⟩]

/-- A host store to an offset of the block is a write of the register there. -/
theorem step_regStore {s : State} {off : Nat} {v : Word} {rest : List HostAct} (hP : s.params.wf = true)
    (hhost : s.nextAgent = .host) (hgo : s.host.stopped = false) (h8 : off % 8 = 0) (hoff : off < 0x100)
    (hprog : s.host.program = regStore s.params off v :: rest) :
    step s = .next (writeReg (s.tick.withProgram rest) v (regAt off)) := by
  simp only [step, hhost, hostAct, State.tick_host, hgo, hprog, regStore, Bool.false_eq_true, if_false, hostStore,
    State.withProgram_params, State.tick_params, length_leBytes, route_register hP h8 hoff, ofNat_leValue_leBytes]

/-- The offsets of the guarded registers (R27, R75). -/
theorem regAt_guarded {off : Nat} (h : off ∈ [0x00, 0x08, 0x10, 0x18, 0x20]) : (regAt off).guarded = true := by
  revert off
  decide

/-- From `STATUS` on the registers are read only or reserved (R24, R28 to R33, R75). -/
theorem regAt_not_guarded {off : Nat} (h : 0x28 ≤ off) : (regAt off).guarded = false := by
  unfold regAt
  rw [if_neg (by omega), if_neg (by omega), if_neg (by omega), if_neg (by omega), if_neg (by omega)]
  repeat' split
  all_goals rfl

/-- Settles O7: each of the five stores is a register write with `BUSY = 0`. -/
theorem idleRegisterWrites : Obligations.IdleRegisterWrites := by
  intro s v rest hP hhost hgo hbusy
  have hstore (off : Nat) (h8 : off % 8 = 0) (hoff : off < 0x100)
      (hprog : s.host.program = regStore s.params off v :: rest) :
      step s = .next ((regAt off).idleWrite (s.tick.withProgram rest) v) := by
    rw [step_regStore hP hhost hgo h8 hoff hprog, writeReg_of_idle (by simpa using hbusy)]
  exact ⟨hstore 0x00 rfl (by decide), hstore 0x08 rfl (by decide), hstore 0x10 rfl (by decide),
    hstore 0x18 rfl (by decide), hstore 0x20 rfl (by decide)⟩

/-- Settles O8: with `BUSY = 1` a write of a guarded register is a protocol fault. -/
theorem busyWritesSetProtocolFault : Obligations.BusyWritesSetProtocolFault := by
  intro s off v rest hP hhost hgo hbusy hoff hprog
  have hrange : off % 8 = 0 ∧ off < 0x100 := by
    clear hprog
    revert off
    decide
  rw [step_regStore hP hhost hgo hrange.1 hrange.2 hprog, writeReg_of_busy (regAt_guarded hoff) (by simpa using hbusy)]
  rfl

/-- Settles O9: no register from offset 0x28 on is guarded, and a write of an unguarded one is ignored. -/
theorem readOnlyWritesIgnored : Obligations.ReadOnlyWritesIgnored := by
  intro s off v rest hP hhost hgo h8 hlow hoff hprog
  rw [step_regStore hP hhost hgo h8 hoff hprog, writeReg_of_not_guarded (regAt_not_guarded hlow)]

/-! Fields of register words. -/

/-- A field of a word is the matching digits of its number. -/
theorem extractLsb'_ofNat_eq {x k len : Nat} (v : Nat) (hk : k + len ≤ 64) (h : x / 2 ^ k % 2 ^ len = v % 2 ^ len) :
    (BitVec.ofNat 64 x).extractLsb' k len = BitVec.ofNat len v := by
  apply BitVec.eq_of_toNat_eq
  rw [BitVec.extractLsb'_toNat, BitVec.toNat_ofNat, BitVec.toNat_ofNat, Nat.shiftRight_eq_div_pow, ← h,
    show 64 = k + (64 - k) by omega, pow_add, Nat.mod_mul_right_div_self]
  exact Nat.mod_mod_of_dvd _ (pow_dvd_pow 2 (by omega))

/-- A flag of a word is the matching digit of its number. -/
theorem getLsbD_ofNat_eq {x k : Nat} {b : Bool} (hk : k < 64) (h : x / 2 ^ k % 2 = b.toNat) :
    (BitVec.ofNat 64 x).getLsbD k = b := by
  rw [BitVec.getLsbD_ofNat, decide_eq_true hk, Bool.true_and, Nat.testBit_eq_decide_div_mod_eq, h]
  cases b <;> rfl

theorem ErrCode.code_lt (e : ErrCode) : e.code < 10 := by cases e <;> decide

theorem KernelKind.code_lt (k : KernelKind) : k.code < 3 := by cases k <;> decide

section StatusFields

variable (s : State)

theorem statusWord_fields :
    (statusWord s).extractLsb' 0 4 = BitVec.ofNat 4 s.status.err.code ∧ (statusWord s).extractLsb' 4 4 = 0 ∧
      (statusWord s).getLsbD 8 = s.status.busy ∧ (statusWord s).getLsbD 9 = s.status.pf ∧
      (statusWord s).extractLsb' 10 54 = 0 := by
  have herr := s.status.err.code_lt
  have hbusy := Bool.toNat_le s.status.busy
  have hpf := Bool.toNat_le s.status.pf
  unfold statusWord
  exact ⟨extractLsb'_ofNat_eq _ (by decide) (by omega), extractLsb'_ofNat_eq 0 (by decide) (by omega),
    getLsbD_ofNat_eq (by decide) (by omega), getLsbD_ofNat_eq (by decide) (by omega),
    extractLsb'_ofNat_eq 0 (by decide) (by omega)⟩

theorem kinfoWord_fields (h : s.kernel.log2e < 64) :
    (kinfoWord s).extractLsb' 0 2 = BitVec.ofNat 2 s.kernel.kind.code ∧ (kinfoWord s).getLsbD 2 = s.kernel.ifswap ∧
      (kinfoWord s).extractLsb' 3 5 = 0 ∧ (kinfoWord s).extractLsb' 8 6 = BitVec.ofNat 6 s.kernel.log2e ∧
      (kinfoWord s).extractLsb' 14 50 = 0 := by
  have hkind := s.kernel.kind.code_lt
  have hswap := Bool.toNat_le s.kernel.ifswap
  rw [kinfoWord, Nat.mod_eq_of_lt h]
  exact ⟨extractLsb'_ofNat_eq _ (by decide) (by omega), getLsbD_ofNat_eq (by decide) (by omega),
    extractLsb'_ofNat_eq 0 (by decide) (by omega), extractLsb'_ofNat_eq _ (by decide) (by omega),
    extractLsb'_ofNat_eq 0 (by decide) (by omega)⟩

theorem precBit_eq (p : Prec) : precBit p = (decide (p = .binary64)).toNat := by cases p <;> rfl

theorem hwcfgWord_fields (h : s.params.log2Cmax < 64) :
    (hwcfgWord s).getLsbD 0 = decide (s.params.prec = .binary64) ∧ (hwcfgWord s).extractLsb' 1 7 = 0 ∧
      (hwcfgWord s).extractLsb' 8 6 = BitVec.ofNat 6 s.params.log2Cmax ∧ (hwcfgWord s).extractLsb' 14 50 = 0 := by
  have hprec := precBit_eq s.params.prec
  have hle := Bool.toNat_le (decide (s.params.prec = .binary64))
  rw [hwcfgWord, Nat.mod_eq_of_lt h]
  exact ⟨getLsbD_ofNat_eq (by decide) (by omega), extractLsb'_ofNat_eq 0 (by decide) (by omega),
    extractLsb'_ofNat_eq _ (by decide) (by omega), extractLsb'_ofNat_eq 0 (by decide) (by omega)⟩

end StatusFields

/-- Settles O11: the fields of the three words, with the numbers of the two tables. -/
theorem statusAndInfoFields : Obligations.StatusAndInfoFields := by
  intro s hlog2e hlog2Cmax
  obtain ⟨herr, hstatus⟩ := statusWord_fields s
  obtain ⟨hkind, hkinfo⟩ := kinfoWord_fields s hlog2e
  refine ⟨⟨fun c hc hs => ?_, hstatus⟩, ⟨fun c hc hs => ?_, hkinfo⟩, hwcfgWord_fields s hlog2Cmax⟩
  · rw [herr, hs]
    clear hs
    revert c
    decide
  · rw [hkind, hs]
    clear hs
    revert c
    decide

end Sys2Proof.Machine

/-! SUPPORT. Reading host memory, and reading it after a write: numbers as their little-endian bytes, values of `T` and elements
of buffers (R53 to R56). -/

namespace Sys2Proof.Machine

/-! Little-endian access. -/

/-- `MemRead` depends on the bytes it reads alone (R53). -/
theorem memRead_congr {n : Nat} : ∀ {m m' : Memory} {a : Nat},
    (∀ x, a ≤ x → x < a + n → readByte m x = readByte m' x) → memRead m a n = memRead m' a n := by
  induction n with
  | zero => exact fun _ => rfl
  | succ n ih =>
    intro m m' a h
    rw [memRead, memRead, h a (by omega) (by omega), ih fun x h1 h2 => h x (by omega) (by omega)]

/-- `MemRead` is the little-endian sum of its bytes (R53). -/
theorem memRead_eq_sum (m : Memory) (n : Nat) : ∀ a,
    memRead m a n = (Finset.range n).sum (fun j => (readByte m (a + j)).toNat * 2 ^ (8 * j)) := by
  induction n with
  | zero => exact fun _ => rfl
  | succ n ih =>
    intro a
    rw [memRead, ih, Finset.sum_range_succ', Finset.mul_sum, Nat.add_comm]
    refine congrArg₂ (· + ·) (Finset.sum_congr rfl fun j _ => ?_) (by simp)
    rw [Nat.add_assoc, Nat.add_comm 1 j]
    ring

/-- `MemRead` gives back what `MemWrite` wrote (R53). -/
theorem memRead_memWrite {n : Nat} : ∀ {m : Memory} {a v : Nat}, m.wf = true → a + n ≤ 2 ^ 64 →
    memRead (memWrite m a n v) a n = v % 2 ^ (8 * n) := by
  induction n with
  | zero => exact fun _ _ => (Nat.mod_one _).symm
  | succ n ih =>
    intro m a v hm ha
    have hm' : (writeByte m a (BitVec.ofNat 8 v)).wf = true := Memory.wf_writeByte hm (by omega)
    rw [memWrite, memRead, ih hm' (by omega), readByte_memWrite_outside hm' (by omega) (by omega), readByte_writeByte hm,
      if_pos rfl, BitVec.toNat_ofNat, Nat.mul_succ, Nat.add_comm (8 * n), pow_add, Nat.mod_mul]
    rfl

/-- `MemWrite` sets byte `j` to bits `8j+7 .. 8j` of the value (R53). -/
theorem readByte_memWrite_inside {n : Nat} : ∀ {m : Memory} {a v j : Nat}, m.wf = true → a + n ≤ 2 ^ 64 → j < n →
    readByte (memWrite m a n v) (a + j) = BitVec.ofNat 8 (v / 2 ^ (8 * j)) := by
  induction n with
  | zero => exact fun _ _ hj => absurd hj (Nat.not_lt_zero _)
  | succ n ih =>
    intro m a v j hm ha hj
    have hm' : (writeByte m a (BitVec.ofNat 8 v)).wf = true := Memory.wf_writeByte hm (by omega)
    rw [memWrite]
    cases j with
    | zero =>
      rw [readByte_memWrite_outside hm' (by omega) (by omega), readByte_writeByte hm, if_pos (Nat.add_zero a)]
      simp
    | succ j =>
      rw [Nat.add_comm j, ← Nat.add_assoc, ih hm' (by omega) (by omega), Nat.mul_add, pow_add, ← Nat.div_div_eq_div_mul]
      rfl

/-- Settles O50: the sum and the value read back by induction on the bytes. -/
theorem littleEndianAccess : Obligations.LittleEndianAccess :=
  fun m a n _ hm ha => ⟨memRead_eq_sum m n a, memRead_memWrite hm ha, fun _ hj => readByte_memWrite_inside hm ha hj,
    fun _ hb => readByte_memWrite_outside hm ha hb⟩

/-! Values of `T` and elements. -/

/-- A value of `T` reads as the bytes it lies in (R55). -/
theorem readT_congr {p : Prec} {m m' : Memory} {a : Nat}
    (h : ∀ x, a ≤ x → x < a + width p → readByte m x = readByte m' x) : readT p m a = readT p m' a := by
  rw [readT, memRead_congr h, readT]

/-- A complex element reads as its `2W` bytes (R54). -/
theorem readC_congr {p : Prec} {m m' : Memory} {b i : Nat}
    (h : ∀ x, b + 2 * width p * i ≤ x → x < b + 2 * width p * (i + 1) → readByte m x = readByte m' x) :
    readC p m b i = readC p m' b i := by
  rw [Nat.mul_succ] at h
  rw [readC, readC, readT_congr fun x h1 h2 => h x (by omega) (by omega),
    readT_congr fun x h1 h2 => h x (by omega) (by omega)]

/-- A real element reads as its `W` bytes (R56). -/
theorem readR_congr {p : Prec} {m m' : Memory} {b i : Nat}
    (h : ∀ x, b + width p * i ≤ x → x < b + width p * (i + 1) → readByte m x = readByte m' x) :
    readR p m b i = readR p m' b i :=
  readT_congr fun x h1 h2 => h x h1 (by rw [Nat.mul_succ]; omega)

/-- The low `W` bytes of a value are its bits in `T` (R55, R80). -/
theorem ofNat_mod_eq_maskT (p : Prec) (v : FBits) : BitVec.ofNat 64 (v.toNat % 2 ^ (8 * width p)) = maskT p v := by
  apply BitVec.eq_of_toNat_eq
  cases p with
  | binary32 =>
    simp only [maskT, width, BitVec.truncate, BitVec.zeroExtend, BitVec.toNat_setWidth, BitVec.toNat_ofNat]
  | binary64 =>
    have := v.isLt
    simp only [maskT, width, BitVec.toNat_ofNat]
    omega

/-- A value of `T` reads back with its bits (R55). -/
theorem readT_writeT {p : Prec} {m : Memory} {a : Nat} {v : FBits} (hm : m.wf = true) (ha : a + width p ≤ 2 ^ 64) :
    readT p (writeT p m a v) a = maskT p v := by
  rw [readT, writeT, memRead_memWrite hm ha, ofNat_mod_eq_maskT]

/-- Writing a value of `T` leaves every value that shares no byte with it (R55). -/
theorem readT_writeT_of_apart {p : Prec} {m : Memory} {a b : Nat} {v : FBits} (hm : m.wf = true)
    (ha : a + width p ≤ 2 ^ 64) (h : b + width p ≤ a ∨ a + width p ≤ b) :
    readT p (writeT p m a v) b = readT p m b :=
  readT_congr fun _ _ _ => readByte_memWrite_outside hm ha (by omega)

section Elements

variable {p : Prec} {m : Memory} {b i : Nat} (hm : m.wf = true)

include hm

/-- A complex element reads back with its bits (R54). -/
theorem readC_writeC_same {z : Cplx} (h : b + 2 * width p * (i + 1) ≤ 2 ^ 64) :
    readC p (writeC p m b i z) b i = maskC p z := by
  rw [Nat.mul_succ] at h
  have hm' : (writeT p m (b + 2 * width p * i) z.re).wf = true := Memory.wf_writeT hm (by omega)
  rw [readC, writeC, readT_writeT hm' (by omega), readT_writeT_of_apart hm' (by omega) (by omega),
    readT_writeT hm (by omega), maskC]

/-- Writing a complex element leaves every other element of the buffer (R54). -/
theorem readC_writeC_of_ne {j : Nat} {z : Cplx} (h : b + 2 * width p * (i + 1) ≤ 2 ^ 64) (hj : j ≠ i) :
    readC p (writeC p m b i z) b j = readC p m b j := by
  have hapart : 2 * width p * (j + 1) ≤ 2 * width p * i ∨ 2 * width p * (i + 1) ≤ 2 * width p * j := by
    rcases Nat.lt_or_gt_of_ne hj with hlt | hlt
    · exact .inl (Nat.mul_le_mul_left _ hlt)
    · exact .inr (Nat.mul_le_mul_left _ hlt)
  rw [Nat.mul_succ] at h
  rw [Nat.mul_succ, Nat.mul_succ] at hapart
  have hm' : (writeT p m (b + 2 * width p * i) z.re).wf = true := Memory.wf_writeT hm (by omega)
  simp only [readC, writeC]
  rw [readT_writeT_of_apart hm' (by omega) (by omega), readT_writeT_of_apart hm (by omega) (by omega),
    readT_writeT_of_apart hm' (by omega) (by omega), readT_writeT_of_apart hm (by omega) (by omega)]

/-- A real element reads back with its bits (R56). -/
theorem readR_writeR_same {v : FBits} (h : b + width p * (i + 1) ≤ 2 ^ 64) :
    readR p (writeR p m b i v) b i = maskT p v :=
  readT_writeT hm (by rw [Nat.mul_succ] at h; omega)

/-- Writing a real element leaves every other element of the buffer (R56). -/
theorem readR_writeR_of_ne {j : Nat} {v : FBits} (h : b + width p * (i + 1) ≤ 2 ^ 64) (hj : j ≠ i) :
    readR p (writeR p m b i v) b j = readR p m b j := by
  rw [Nat.mul_succ] at h
  refine readT_writeT_of_apart hm (by omega) ?_
  rcases Nat.lt_or_gt_of_ne hj with hlt | hlt
  · have := Nat.mul_le_mul_left (width p) hlt
    rw [Nat.mul_succ] at this
    omega
  · have := Nat.mul_le_mul_left (width p) hlt
    rw [Nat.mul_succ] at this
    omega

end Elements

theorem width_eq (p : Prec) : (if p = .binary64 then 8 else 4) = width p := by cases p <;> rfl

/-- Settles O51: parts of elements are values of `T`, and different elements share no byte. -/
theorem elementLayout : Obligations.ElementLayout := by
  intro p m b i hm
  simp only [width_eq]
  exact ⟨rfl, rfl, fun z h => ⟨readC_writeC_same hm h, fun j hj => readC_writeC_of_ne hm h hj⟩,
    fun v h => ⟨readR_writeR_same hm h, fun j hj => readR_writeR_of_ne hm h hj⟩⟩

end Sys2Proof.Machine

/-! SUPPORT. Memory operations that write only where a predicate allows: each leaves every other byte, and what a byte holds
after it depends on no other byte. Every whole-buffer store of the CORE is one (R62, R63). -/

namespace Sys2Proof.Machine

/-- `f` is a sequence of writes of fixed bytes at fixed addresses, each of which satisfies `S`. -/
inductive WritesOnly (S : Nat → Prop) : (Memory → Memory) → Prop where
  | id : WritesOnly S (fun m => m)
  | byte {a : Nat} (v : Byte) : S a → WritesOnly S (fun m => writeByte m a v)
  | comp {f g : Memory → Memory} : WritesOnly S f → WritesOnly S g → WritesOnly S (fun m => g (f m))

section WritesOnly

variable {S : Nat → Prop} {f : Memory → Memory}

theorem WritesOnly.mono {S' : Nat → Prop} (hf : WritesOnly S f) (h : ∀ a, S a → S' a) : WritesOnly S' f := by
  induction hf with
  | id => exact .id
  | byte v ha => exact .byte v (h _ ha)
  | comp _ _ ihf ihg => exact .comp ihf ihg

section Bounded

variable (hf : WritesOnly S f) (hS : ∀ a, S a → a < 2 ^ 64)

include hf hS

theorem WritesOnly.wf {m : Memory} (hm : m.wf = true) : (f m).wf = true := by
  induction hf generalizing m with
  | id => exact hm
  | byte v ha => exact Memory.wf_writeByte hm (hS _ ha)
  | comp _ _ ihf ihg => exact ihg (ihf hm)

/-- A byte outside `S` stays. -/
theorem WritesOnly.frame {m : Memory} (hm : m.wf = true) {a : Nat} (ha : ¬S a) : readByte (f m) a = readByte m a := by
  induction hf generalizing m with
  | id => rfl
  | byte v hb => rw [readByte_writeByte hm, if_neg (by rintro rfl; exact ha hb)]
  | comp hf _ ihf ihg => rw [ihg (hf.wf hS hm), ihf hm]

/-- A byte that two memories share they share after the writes. -/
theorem WritesOnly.congr {m m' : Memory} (hm : m.wf = true) (hm' : m'.wf = true) {a : Nat}
    (ha : readByte m a = readByte m' a) : readByte (f m) a = readByte (f m') a := by
  induction hf generalizing m m' with
  | id => exact ha
  | byte v hb => rw [readByte_writeByte hm, readByte_writeByte hm', ha]
  | comp hf _ ihf ihg => exact ihg (hf.wf hS hm) (hf.wf hS hm') (ihf hm hm' ha)

end Bounded

/-- A loop over the indices below `n` writes only where each of its turns does. -/
theorem WritesOnly.foldl_range {g : Memory → Nat → Memory} {n : Nat}
    (hg : ∀ i, i < n → WritesOnly S (fun m => g m i)) : WritesOnly S (fun m => (List.range n).foldl g m) := by
  induction n with
  | zero => exact .id
  | succ n ih =>
    simp only [List.range_succ, List.foldl_append]
    exact (ih fun i hi => hg i (by omega)).comp (hg n (by omega))

theorem WritesOnly.memWrite (n : Nat) : ∀ (a v : Nat), (∀ x, a ≤ x → x < a + n → S x) →
    WritesOnly S (fun m => memWrite m a n v) := by
  induction n with
  | zero => exact fun _ _ _ => .id
  | succ n ih =>
    intro a v h
    exact (WritesOnly.byte _ (h a (by omega) (by omega))).comp (ih _ _ fun x h1 h2 => h x (by omega) (by omega))

theorem WritesOnly.writeBytes (bs : List Byte) : ∀ (a : Nat), (∀ x, a ≤ x → x < a + bs.length → S x) →
    WritesOnly S (fun m => writeBytes m a bs) := by
  induction bs with
  | nil => exact fun _ _ => .id
  | cons v bs ih =>
    intro a h
    rw [List.length_cons] at h
    exact (WritesOnly.byte _ (h a (by omega) (by omega))).comp (ih _ fun x h1 h2 => h x (by omega) (by omega))

theorem WritesOnly.writeC {p : Prec} {b i : Nat} (z : Cplx)
    (h : ∀ x, b + 2 * width p * i ≤ x → x < b + 2 * width p * (i + 1) → S x) :
    WritesOnly S (fun m => writeC p m b i z) := by
  rw [Nat.mul_succ] at h
  exact (WritesOnly.memWrite _ _ z.re.toNat fun x h1 h2 => h x (by omega) (by omega)).comp
    (.memWrite _ _ z.im.toNat fun x h1 h2 => h x (by omega) (by omega))

theorem WritesOnly.writeR {p : Prec} {b i : Nat} (v : FBits)
    (h : ∀ x, b + width p * i ≤ x → x < b + width p * (i + 1) → S x) :
    WritesOnly S (fun m => writeR p m b i v) := by
  rw [Nat.mul_succ] at h
  exact .memWrite _ _ v.toNat fun x h1 h2 => h x (by omega) (by omega)

theorem WritesOnly.scramble {keep : Nat → Bool} {d a n : Nat} (h : ∀ x, a ≤ x → x < a + n → S x) :
    WritesOnly S (fun m => scramble keep m d a n) :=
  .foldl_range fun j hj => by
    cases keep (a + j)
    · exact .byte _ (h _ (by omega) (by omega))
    · exact .id

end WritesOnly

/-! Extents. -/

theorem Desc.covers_iff {p : Prec} {d : Desc} {a : Nat} : d.covers p a = true ↔ d.b ≤ a ∧ a < d.b + d.size p := by
  simp [Desc.covers]

/-- The bytes of each element lie in the extent (R56, R57). -/
theorem Desc.covers_of_elem {p : Prec} {d : Desc} {i a : Nat} (hi : i < d.n) (h1 : d.b + elemSize p d.t * i ≤ a)
    (h2 : a < d.b + elemSize p d.t * (i + 1)) : d.covers p a = true := by
  have hle : elemSize p d.t * (i + 1) ≤ d.size p := by
    rw [Desc.size, Nat.mul_comm]
    exact Nat.mul_le_mul_right _ hi
  exact covers_iff.2 ⟨by omega, by omega⟩

theorem Desc.n_pos_of_covers {p : Prec} {d : Desc} {a : Nat} (h : d.covers p a = true) : 0 < d.n := by
  obtain ⟨h1, h2⟩ := covers_iff.1 h
  refine Nat.pos_of_ne_zero fun hn => ?_
  rw [Desc.size, hn, Nat.zero_mul] at h2
  omega

theorem Desc.covers_of_fewer {p : Prec} {d : Desc} {n a : Nat} (hn : n ≤ d.n)
    (h : Desc.covers p { d with n := n } a = true) : d.covers p a = true := by
  obtain ⟨h1, h2⟩ := covers_iff.1 h
  have hle : n * elemSize p d.t ≤ d.size p := Nat.mul_le_mul_right _ hn
  exact covers_iff.2 ⟨h1, lt_of_lt_of_le h2 (Nat.add_le_add_left hle _)⟩

/-- Every byte of an extent that passes its checks exists (R60). -/
theorem Desc.passes.lt_of_covers {P : Params} {d : Desc} {a : Nat} (hd : d.passes P) (h : d.covers P.prec a = true) :
    a < 2 ^ 64 := by
  have := (hd (Desc.n_pos_of_covers h)).2.1
  have := (Desc.covers_iff.1 h).2
  omega

theorem WritesOnly.storeC (p : Prec) {d : Desc} (xb : List Cplx) (ht : d.t = .complex) :
    WritesOnly (d.covers p · = true) (fun m => storeC p m d xb) :=
  .foldl_range fun _ hi => .writeC _ fun _ h1 h2 => Desc.covers_of_elem hi (by rwa [ht]) (by rwa [ht])

theorem WritesOnly.storeR (p : Prec) {d : Desc} (xb : List FBits) (ht : d.t = .real) :
    WritesOnly (d.covers p · = true) (fun m => storeR p m d xb) :=
  .foldl_range fun _ hi => .writeR _ fun _ h1 h2 => Desc.covers_of_elem hi (by rwa [ht]) (by rwa [ht])

end Sys2Proof.Machine

/-! SUPPORT. What memory a command touches, said once of every command: it reads host memory as of acceptance, and writes host
memory, only through descriptors that pass their checks (R51, R62, R63). -/

namespace Sys2Proof.Machine

/-- `s` with host memory `m`, and `am` as that of acceptance where a command is in flight (R63). -/
def State.withMemories (s : State) (m am : Memory) : State :=
  { s with mem := m, latch := s.latch.map (fun l => { l with mem := am }) }

theorem State.withMemories_self (s : State) : s.withMemories s.mem s.accepted = s := by
  unfold State.withMemories
  cases h : s.latch with
  | none => rw [Option.map_none, ← h]
  | some l => rw [Option.map_some, State.accepted_of_latch h, ← h]

theorem State.inFlight_withMemories {s : State} (hl : s.latch.isSome = true) (m am : Memory) :
    (s.withMemories m am).inFlight = { s.inFlight with mem := am } := by
  obtain ⟨l, hl⟩ := Option.isSome_iff_exists.1 hl
  simp [State.inFlight, State.withMemories, hl]

theorem State.accepted_withMemories {s : State} (hl : s.latch.isSome = true) (m am : Memory) :
    (s.withMemories m am).accepted = am := congrArg Latch.mem (State.inFlight_withMemories hl m am)

/-- From `s` with any memories that agree with its own as of acceptance wherever `R` holds, `F` ends in `F s` but for the
memories, with host memory changed by one sequence of writes, only where `W` holds. -/
def Touches (s : State) (R W : Nat → Prop) (F : State → State) : Prop :=
  ∃ f, WritesOnly W f ∧ ∀ m am, (∀ a, R a → readByte am a = readByte s.accepted a) →
    F (s.withMemories m am) = (F s).withMemories (f m) am

section Touches

variable {s : State}

theorem Touches.mono {R R' W W' : Nat → Prop} {F : State → State} (h : Touches s R W F) (hR : ∀ a, R a → R' a)
    (hW : ∀ a, W a → W' a) : Touches s R' W' F := by
  obtain ⟨f, hf, hF⟩ := h
  exact ⟨f, hf.mono hW, fun m am ham => hF m am fun a ha => ham a (hR a ha)⟩

/-- A computation that commutes with replacing the memories touches none. -/
theorem Touches.of_withMemories {R W : Nat → Prop} {F : State → State}
    (h : ∀ m am, F (s.withMemories m am) = (F s).withMemories m am) : Touches s R W F :=
  ⟨fun m => m, .id, fun m am _ => h m am⟩

/-! Working arrays (R63). -/

section Loads

variable (hl : s.latch.isSome = true) {d : Desc} (m : Memory) {am : Memory}
  (ham : ∀ a, d.covers s.params.prec a = true → readByte am a = readByte s.accepted a)

include hl ham

theorem loadC_withMemories (ht : d.t = .complex) : loadC (s.withMemories m am) d = loadC s d := by
  rw [loadC, State.accepted_withMemories hl]
  refine List.map_congr_left fun i hi => readC_congr fun x h1 h2 => ham x ?_
  exact Desc.covers_of_elem (List.mem_range.1 hi) (by rwa [ht]) (by rwa [ht])

theorem loadR_withMemories (ht : d.t = .real) : loadR (s.withMemories m am) d = loadR s d := by
  rw [loadR, State.accepted_withMemories hl]
  refine List.map_congr_left fun i hi => readR_congr fun x h1 h2 => ham x ?_
  exact Desc.covers_of_elem (List.mem_range.1 hi) (by rwa [ht]) (by rwa [ht])

theorem loadPromoted_withMemories : loadPromoted (s.withMemories m am) d = loadPromoted s d := by
  unfold loadPromoted
  split
  · exact loadC_withMemories hl m ham ‹_›
  · rw [loadR_withMemories hl m ham ‹_›]

end Loads

/-! Writing back (R63, R66 (4)). -/

/-- The written extent takes the result or unspecified bytes, and no other byte changes. -/
theorem writeBack_withMemories (d : Desc) {F : Memory → Memory}
    (hF : WritesOnly (d.covers s.params.prec · = true) F) :
    ∃ f, WritesOnly (d.covers s.params.prec · = true) f ∧
      ∀ m am, (s.withMemories m am).writeBack d (F m) = (s.writeBack d (F s.mem)).withMemories (f m) am := by
  cases hraced : s.dstRaced with
  | false =>
    refine ⟨F, hF, fun m am => ?_⟩
    simp [State.writeBack, State.withMemories, hraced, State.withMem]
  | true =>
    refine ⟨fun m => scramble keepNone m s.draws d.b (d.size s.params.prec),
      .scramble fun x h1 h2 => Desc.covers_iff.2 ⟨h1, h2⟩, fun m am => ?_⟩
    simp [State.writeBack, State.withMemories, hraced, State.withMem, State.withDraws]

theorem writeBackC_withMemories {d : Desc} (xb : List Cplx) (ht : d.t = .complex) :
    ∃ f, WritesOnly (d.covers s.params.prec · = true) f ∧
      ∀ m am, (s.withMemories m am).writeBackC d xb = (s.writeBackC d xb).withMemories (f m) am :=
  writeBack_withMemories d (.storeC s.params.prec xb ht)

theorem writeBackR_withMemories {d : Desc} (xb : List FBits) (ht : d.t = .real) :
    ∃ f, WritesOnly (d.covers s.params.prec · = true) f ∧
      ∀ m am, (s.withMemories m am).writeBackR d xb = (s.writeBackR d xb).withMemories (f m) am :=
  writeBack_withMemories d (.storeR s.params.prec xb ht)

/-! Effects. -/

/-- The engine touches no host memory (R63, R190). -/
theorem engine_withMemories (inverse : Bool) (xb : List Cplx) (m am : Memory) :
    engine inverse (s.withMemories m am) xb = ((engine inverse s xb).1, (engine inverse s xb).2.withMemories m am) := by
  cases inverse with
  | true => rfl
  | false =>
    cases hk : s.kernel.kind <;> simp only [engine, engineFwd, State.withMemories, hk] <;> rfl

section Latched

variable (hl : s.latch.isSome = true)

include hl

theorem transformEffect_touches (inverse : Bool) {src dst : Desc} (ht : dst.t = .complex) :
    Touches s (src.covers s.params.prec · = true) (dst.covers s.params.prec · = true)
      (transformEffect inverse src dst) := by
  obtain ⟨f, hf, hF⟩ := writeBackC_withMemories (s := (engine inverse s (loadPromoted s src)).2)
    (engine inverse s (loadPromoted s src)).1 ht
  rw [(engine_same inverse s _).params] at hf
  refine ⟨f, hf, fun m am ham => ?_⟩
  simp only [transformEffect, loadPromoted_withMemories hl m ham, engine_withMemories, hF]

theorem shiftEffect_touches (d : Desc) :
    Touches s (d.covers s.params.prec · = true) (d.covers s.params.prec · = true) (shiftEffect d) := by
  by_cases hn : d.n = 0
  · exact .of_withMemories fun m am => by simp only [shiftEffect, if_pos hn]
  · cases ht : d.t with
    | complex =>
      obtain ⟨f, hf, hF⟩ := writeBackC_withMemories (s := s) (shiftArray (loadC s d)) ht
      refine ⟨f, hf, fun m am ham => ?_⟩
      simp only [shiftEffect, if_neg hn, ht, loadC_withMemories hl m ham ht, hF]
    | real =>
      obtain ⟨f, hf, hF⟩ := writeBackR_withMemories (s := s) (shiftArray (loadR s d)) ht
      refine ⟨f, hf, fun m am ham => ?_⟩
      simp only [shiftEffect, if_neg hn, ht, loadR_withMemories hl m ham ht, hF]

theorem amplEffect_touches {a sp : Desc} (ha : a.t = .real) (hsp : sp.t = .complex) (hn : a.n ≤ sp.n) :
    Touches s (sp.covers s.params.prec · = true) (a.covers s.params.prec · = true) (amplEffect a sp) := by
  by_cases h0 : a.n = 0
  · exact .of_withMemories fun m am => by simp only [amplEffect, if_pos h0]
  · let r := runDraw (amplitudes s.params.prec a.n (loadC s { sp with n := a.n })) s.draws
    obtain ⟨f, hf, hF⟩ := writeBackR_withMemories (s := s.withDraws r.2) r.1 ha
    refine ⟨f, hf, fun m am ham => ?_⟩
    have hload := loadC_withMemories hl m (fun x hx => ham x (Desc.covers_of_fewer hn hx)) hsp
    simp only [amplEffect, if_neg h0, hload]
    exact hF m am

end Latched

theorem freqEffect_touches {d : Desc} (dt : FBits) (ht : d.t = .real) :
    Touches s (fun _ => False) (d.covers s.params.prec · = true) (freqEffect d dt) := by
  by_cases hn : d.n = 0
  · exact .of_withMemories fun m am => by simp only [freqEffect, if_pos hn]
  · let r := runDraw (freqGrid s.params.prec d.n dt) s.draws
    obtain ⟨f, hf, hF⟩ := writeBackR_withMemories (s := s.withDraws r.2) r.1 ht
    refine ⟨f, hf, fun m am _ => ?_⟩
    simp only [freqEffect, if_neg hn]
    exact hF m am

end Touches

/-! Commands. -/

/-- The CORE may read the byte at `a`: it lies in an extent of the command in flight that passes its checks (R51, R62). -/
def State.mayRead (s : State) (a : Nat) : Prop := ∃ b ∈ s.accessibleInFlight, b.d.covers s.params.prec a = true

/-- The CORE may write the byte at `a`: it lies in such an extent that the command writes (R51, R62). -/
def State.mayWrite (s : State) (a : Nat) : Prop :=
  ∃ b ∈ s.accessibleInFlight, b.written = true ∧ b.d.covers s.params.prec a = true

theorem State.mayWrite.lt {s : State} {a : Nat} (h : s.mayWrite a) : a < 2 ^ 64 := by
  obtain ⟨b, hb, -, ha⟩ := h
  exact (passes_of_accessible hb).lt_of_covers ha

theorem buffersInFlight_of_decoded {s : State} {l : Latch} {i : Instr} (hl : s.latch = some l)
    (hi : decode l.v = some i) : s.buffersInFlight = buffersOf s.inFlight i := by
  simp [State.buffersInFlight, State.inFlight, hl, hi]

/-- A buffer of the command in flight that passes its checks may be accessed at every byte it has (R51, R58). -/
theorem accessible_of_covers {s : State} {b : Buffer} {a : Nat} (hb : b ∈ s.buffersInFlight) (hd : b.d.passes s.params)
    (ha : b.d.covers s.params.prec a = true) : b ∈ s.accessibleInFlight := by
  obtain ⟨h1, h2⟩ := passes_iff.1 hd
  exact List.mem_filter.2 ⟨hb, by simp [accessible, Desc.n_pos_of_covers ha, h1, h2]⟩

theorem copyCode_ok_src {s : State} {l : Latch} {t : ElemType} {inverse : Bool} (h : copyCode s l t inverse = .ok) :
    (firstDesc l t).passes s.params := by
  rw [copyCode, firstFailing_eq_ok (by simp [descChecks])] at h
  simp only [List.forall_mem_append, descChecks_pass_iff] at h
  exact h.1.1.2

theorem amplCode_ok_src {s : State} {l : Latch} (h : amplCode s l = .ok) :
    (secondDesc l).passes s.params ∧ (firstDesc l .real).n ≤ (secondDesc l).n := by
  rw [amplCode, firstFailing_eq_ok (by simp [descChecks])] at h
  simp only [List.forall_mem_append, descChecks_pass_iff, List.forall_mem_cons, decide_eq_false_iff_not, not_lt] at h
  exact ⟨h.1.2, h.2.2.1⟩

section InFlight

variable {s : State} {i : Instr} (hb : s.buffersInFlight = buffersOf s.inFlight i)

include hb

theorem mayRead_of_passes {b : Buffer} (hmem : b ∈ buffersOf s.inFlight i) (hd : b.d.passes s.params) :
    ∀ a, b.d.covers s.params.prec a = true → s.mayRead a :=
  fun _ ha => ⟨b, accessible_of_covers (hb ▸ hmem) hd ha, ha⟩

theorem mayWrite_of_passes {b : Buffer} (hmem : b ∈ buffersOf s.inFlight i) (hw : b.written = true)
    (hd : b.d.passes s.params) : ∀ a, b.d.covers s.params.prec a = true → s.mayWrite a :=
  fun _ ha => ⟨b, accessible_of_covers (hb ▸ hmem) hd ha, hw, ha⟩

/-- An effect that touches two buffers of the command that pass their checks touches only what the CORE may. -/
theorem Touches.of_buffers {F : State → State} {src dst : Buffer}
    (h : Touches s (src.d.covers s.params.prec · = true) (dst.d.covers s.params.prec · = true) F)
    (hsrc : src ∈ buffersOf s.inFlight i) (hdst : dst ∈ buffersOf s.inFlight i) (hw : dst.written = true)
    (hps : src.d.passes s.params) (hpd : dst.d.passes s.params) : Touches s s.mayRead s.mayWrite F :=
  h.mono (mayRead_of_passes hb hsrc hps) (mayWrite_of_passes hb hdst hw hpd)

variable (hl : s.latch.isSome = true)

include hl

theorem inPlace_touches {inverse : Bool}
    (hbuf : buffersOf s.inFlight i = [{ d := inPlaceDesc s.inFlight, written := true }])
    (hok : inPlaceCode s s.inFlight inverse = .ok) :
    Touches s s.mayRead s.mayWrite (transformEffect inverse (inPlaceDesc s.inFlight) (inPlaceDesc s.inFlight)) := by
  let x : Buffer := { d := inPlaceDesc s.inFlight, written := true }
  have hd : x.d.passes s.params := (inPlaceCode_ok hok).dst_passes
  have hmem : x ∈ buffersOf s.inFlight i := by simp [hbuf, x]
  exact .of_buffers hb (src := x) (dst := x) (transformEffect_touches hl inverse rfl) hmem hmem rfl hd hd

theorem copy_touches {t : ElemType} {inverse : Bool}
    (hbuf : buffersOf s.inFlight i =
      [{ d := firstDesc s.inFlight t, written := false }, { d := secondDesc s.inFlight, written := true }])
    (hok : copyCode s s.inFlight t inverse = .ok) :
    Touches s s.mayRead s.mayWrite (transformEffect inverse (firstDesc s.inFlight t) (secondDesc s.inFlight)) :=
  .of_buffers hb (src := { d := firstDesc s.inFlight t, written := false })
    (dst := { d := secondDesc s.inFlight, written := true }) (transformEffect_touches hl inverse rfl)
    (by simp [hbuf]) (by simp [hbuf]) rfl (copyCode_ok_src hok) (copyCode_ok hok).dst_passes

theorem shift_touches {t : ElemType} (hbuf : buffersOf s.inFlight i = [{ d := firstDesc s.inFlight t, written := true }])
    (hok : oneBufferCode s s.inFlight t = .ok) :
    Touches s s.mayRead s.mayWrite (shiftEffect (firstDesc s.inFlight t)) := by
  let x : Buffer := { d := firstDesc s.inFlight t, written := true }
  have hd : x.d.passes s.params := oneBufferCode_ok hok
  have hmem : x ∈ buffersOf s.inFlight i := by simp [hbuf, x]
  exact .of_buffers hb (src := x) (dst := x) (shiftEffect_touches hl _) hmem hmem rfl hd hd

end InFlight

/-- The effect of every command with status `OK` reads and writes only what the CORE may (R51, R62, R63). -/
theorem effectOf_touches {s : State} {l : Latch} {i : Instr} (hl : s.latch = some l) (hi : decode l.v = some i)
    (hok : statusCode s s.inFlight i = .ok) : Touches s s.mayRead s.mayWrite (effectOf s i) := by
  have hb := buffersInFlight_of_decoded hl hi
  have hl' : s.latch.isSome = true := by rw [hl]; rfl
  cases i
  case cfgR2 => exact .of_withMemories fun _ _ => rfl
  case cfgBs => exact .of_withMemories fun _ _ => rfl
  case release => exact .of_withMemories fun _ _ => rfl
  case fft => exact inPlace_touches hb hl' rfl hok
  case ifft => exact inPlace_touches hb hl' rfl hok
  case fftCopyC => exact copy_touches hb hl' rfl hok
  case fftCopyR => exact copy_touches hb hl' rfl hok
  case ifftCopyC => exact copy_touches hb hl' rfl hok
  case ifftCopyR => exact copy_touches hb hl' rfl hok
  case fftshiftC => exact shift_touches hb hl' rfl hok
  case fftshiftR => exact shift_touches hb hl' rfl hok
  case fftfreq =>
    exact (freqEffect_touches _ rfl).mono (fun _ h => h.elim)
      (mayWrite_of_passes hb (b := { d := firstDesc s.inFlight .real, written := true }) (by simp [buffersOf]) rfl
        (oneBufferCode_ok hok))
  case fftampl =>
    obtain ⟨hsp, hn⟩ := amplCode_ok_src hok
    exact .of_buffers hb (src := { d := secondDesc s.inFlight, written := false })
      (dst := { d := firstDesc s.inFlight .real, written := true }) (amplEffect_touches hl' rfl rfl hn)
      (by simp [buffersOf]) (by simp [buffersOf]) rfl hsp (amplCode_ok hok)

/-! The CORE's step. -/

/-- A command reads no memory to find its status code. -/
theorem statusCode_withMemories {s : State} (hl : s.latch.isSome = true) (m am : Memory) (i : Instr) :
    statusCode (s.withMemories m am) (s.withMemories m am).inFlight i = statusCode s s.inFlight i := by
  rw [State.inFlight_withMemories hl]
  cases i <;> rfl

theorem effectOf_withMemories {s : State} (hl : s.latch.isSome = true) (m am : Memory) (i : Instr) :
    effectOf (s.withMemories m am) i = effectOf s i := by
  have h := State.inFlight_withMemories hl m am
  cases i <;> simp only [effectOf, h] <;> rfl

/-- The CORE's step makes one sequence of writes to host memory, only where it may write, and makes the same step from all
memories that agree as of acceptance wherever it may read (R51, R62). -/
theorem coreStep_touches {s t : State} (h : coreStep s = .next t) :
    ∃ f, WritesOnly s.mayWrite f ∧ t.mem = f s.mem ∧
      ∀ m am, (∀ a, s.mayRead a → readByte am a = readByte s.accepted a) →
        coreStep (s.withMemories m am) = .next (t.withMem (f m)) := by
  rcases coreStep_cases h with ⟨hl, rfl⟩ | ⟨l, hl, hi, rfl⟩ | ⟨l, i, hl, hi, h⟩
  · exact ⟨fun m => m, .id, rfl, fun m am _ => by simp [coreStep, State.withMemories, State.withMem, hl]⟩
  · refine ⟨fun m => m, .id, rfl, fun m am _ => ?_⟩
    simp [coreStep, State.withMemories, State.withMem, hl, hi, conclude, State.complete]
  · have hl' : s.latch.isSome = true := by rw [hl]; rfl
    have hstep (m am : Memory) : coreStep (s.withMemories m am) = exec i (s.withMemories m am) := by
      simp [coreStep, State.withMemories, hl, hi]
    rcases exec_cases h with ⟨hok, rfl⟩ | ⟨herr, rfl⟩
    · obtain ⟨f, hf, hF⟩ := effectOf_touches hl hi hok
      refine ⟨f, hf, ?_, fun m am ham => ?_⟩
      · have hself := hF s.mem s.accepted fun _ _ => rfl
        rw [State.withMemories_self] at hself
        exact congrArg State.mem hself
      · rw [hstep, exec_of_ok (by rwa [statusCode_withMemories hl']), effectOf_withMemories hl', hF m am ham]
        rfl
    · refine ⟨fun m => m, .id, rfl, fun m am _ => ?_⟩
      rw [hstep, exec_of_error (by rwa [statusCode_withMemories hl']), statusCode_withMemories hl']
      rfl

theorem step_of_core {s : State} (h : s.nextAgent = .core) : step s = coreStep s.tick := by
  simp [step, h]

/-- Settles O52: what the CORE's step does to host memory is a sequence of writes where it may write. -/
theorem coreWritesOnlyItsExtents : Obligations.CoreWritesOnlyItsExtents := by
  intro s t hm hcore h a ha
  rw [step_of_core hcore] at h
  obtain ⟨f, hf, hmem, -⟩ := coreStep_touches h
  rw [hmem]
  refine hf.frame (fun _ => State.mayWrite.lt) hm ?_
  rintro ⟨b, hb, hw, hcov⟩
  exact Bool.false_ne_true ((ha b hb hw).symm.trans hcov)

/-- Settles O53: both runs make one sequence of writes, and writes keep two memories equal where they are. -/
theorem coreReadsOnlyItsExtents : Obligations.CoreReadsOnlyItsExtents := by
  rintro s _ t t' m am hm hm' hcore rfl hagree h h'
  have hcore' : (s.withMemories m am).nextAgent = .core := hcore
  replace h' : step (s.withMemories m am) = .next t' := h'
  rw [step_of_core hcore] at h
  rw [step_of_core hcore'] at h'
  obtain ⟨f, hf, hmem, hrun⟩ := coreStep_touches h
  have hrun := hrun m am fun a ⟨b, hb, ha⟩ => (hagree b hb a ha).2
  obtain rfl : t.withMem (f m) = t' := Host.Outcome.next.inj (hrun.symm.trans h')
  refine ⟨rfl, fun b hb a ha => ?_⟩
  rw [hmem]
  exact hf.congr (fun _ => State.mayWrite.lt) hm' hm (hagree b hb a ha).1

end Sys2Proof.Machine

/-! SUPPORT. Descriptors and their checks (R57 to R61), the step of a decoded command (R65), and the host's loads and stores
of host memory (R66). -/

namespace Sys2Proof.Machine

theorem width_pos (p : Prec) : 0 < width p := by cases p <;> decide

theorem elemSize_pos (p : Prec) (t : ElemType) : 0 < elemSize p t := by
  cases t with
  | complex => exact Nat.mul_pos (by decide) (width_pos p)
  | real => exact width_pos p

/-- An extent is empty exactly when its descriptor has no element (R57). -/
theorem Desc.size_pos_iff {p : Prec} {d : Desc} : 0 < d.size p ↔ 0 < d.n :=
  ⟨fun h => Nat.pos_of_mul_pos_right h, fun h => Nat.mul_pos h (elemSize_pos p d.t)⟩

theorem overlaps_iff {P : Params} {d1 d2 : Desc} :
    overlaps P d1 d2 = true ↔
      0 < d1.n ∧ 0 < d2.n ∧ d1.b < d2.b + d2.size P.prec ∧ d2.b < d1.b + d1.size P.prec := by
  simp [overlaps, and_assoc]

/-- Settles O18: extents that overlap share the larger of their bases. -/
theorem overlapMeansSharedByte : Obligations.OverlapMeansSharedByte := by
  intro P d1 d2
  simp only [overlaps_iff, Desc.covers_iff]
  constructor
  · rintro ⟨hn1, hn2, h1, h2⟩
    have hs1 := Desc.size_pos_iff (p := P.prec).2 hn1
    have hs2 := Desc.size_pos_iff (p := P.prec).2 hn2
    exact ⟨max d1.b d2.b, by omega, by omega⟩
  · rintro ⟨a, h1, h2⟩
    exact ⟨Desc.size_pos_iff.1 (by omega : 0 < d1.size P.prec), Desc.size_pos_iff.1 (by omega : 0 < d2.size P.prec),
      by omega, by omega⟩

/-- The descriptor checks in order: nothing for an empty buffer, then alignment, then range (R58 to R60). -/
theorem firstFailing_descChecks (P : Params) (d : Desc) :
    firstFailing (descChecks P d) =
      if d.n = 0 then .ok
      else if d.b % width P.prec ≠ 0 then .alignError
      else if 2 ^ 64 < d.b + d.size P.prec ∨ hostAdmits P d.b (d.size P.prec) = false then .addressError
      else .ok := by
  rcases Nat.eq_zero_or_pos d.n with hn | hn
  · simp [descChecks, misaligned, unaddressable, hn]
  · simp [descChecks, misaligned, unaddressable, hn, hn.ne']

/-- Settles O17: the code of FFTFREQ is that of its one descriptor's checks. -/
theorem descriptorChecksOfFftfreq : Obligations.DescriptorChecksOfFftfreq := by
  intro s
  obtain ⟨t, ht, hc⟩ := everyCommandCompletes .fftfreq s
  exact ⟨t, ht, hc.err.trans (firstFailing_descChecks s.params (firstDesc s.inFlight .real))⟩

/-- Settles O4: the CORE's step of a latched value that decodes is that command's completion. -/
theorem stepRunsDecodedCommand : Obligations.StepRunsDecodedCommand := by
  intro s l i hcore hl hi _
  rw [step_of_core hcore]
  simp [coreStep, hl, hi]

/-! The host's accesses to host memory. -/

section HostAccess

variable {s : State} {addr : Word} {rest : List HostAct} (hhost : s.nextAgent = .host) (hgo : s.host.stopped = false)

include hhost hgo

/-- A host load that stays in the address space and meets no register is a load of host memory (R50, R66). -/
theorem step_load_memory {n : Nat} (hend : addr.toNat + n ≤ 2 ^ 64)
    (hmeet : rangesMeet addr.toNat n s.params.ubase.toNat blockSize = false)
    (hprog : s.host.program = .load addr n :: rest) :
    step s = .next (hostMemLoad (s.tick.withProgram rest) addr.toNat n) := by
  simp [step, hhost, hostAct, hgo, hprog, hostLoad, route_memory hend hmeet]

/-- A host store that stays in the address space and meets no register is a store to host memory (R50, R66). -/
theorem step_store_memory {bytes : List Byte} (hend : addr.toNat + bytes.length ≤ 2 ^ 64)
    (hmeet : rangesMeet addr.toNat bytes.length s.params.ubase.toNat blockSize = false)
    (hprog : s.host.program = .store addr bytes :: rest) :
    step s = .next (hostMemStore (s.tick.withProgram rest) addr.toNat bytes) := by
  simp [step, hhost, hostAct, hgo, hprog, hostStore, route_memory hend hmeet]

end HostAccess

/-- Settles O54: the load's record is the list of the bytes `hostByte` gives. -/
theorem hostLoadReturnsMemory : Obligations.HostLoadReturnsMemory := by
  intro s addr n rest hhost hgo hend hmeet hprog
  let u := s.tick.withProgram rest
  refine ⟨hostMemLoad u addr.toNat n, (List.range n).map fun j => hostByte u (addr.toNat + j),
    step_load_memory hhost hgo hend hmeet hprog, by simp, ?_, fun hl => ?_, fun j hj => ?_⟩
  · unfold hostMemLoad
    split <;> rfl
  · simp [hostMemLoad, u, hl]
  · rw [List.getElem?_map, List.getElem?_range hj]
    rfl

/-! Stores. -/

/-- Storing bytes leaves every byte outside them. -/
theorem readByte_writeBytes_outside {m : Memory} {a x : Nat} {bs : List Byte} (hm : m.wf = true)
    (ha : a + bs.length ≤ 2 ^ 64) (hx : x < a ∨ a + bs.length ≤ x) : readByte (writeBytes m a bs) x = readByte m x :=
  (WritesOnly.writeBytes (S := fun x => a ≤ x ∧ x < a + bs.length) bs a fun _ h1 h2 => ⟨h1, h2⟩).frame
    (fun _ h => by omega) hm (by omega)

/-- Each byte stored reads back. -/
theorem readByte_writeBytes_inside {bs : List Byte} : ∀ {m : Memory} {a j : Nat}, m.wf = true →
    a + bs.length ≤ 2 ^ 64 → j < bs.length → some (readByte (writeBytes m a bs) (a + j)) = bs[j]? := by
  induction bs with
  | nil => exact fun _ _ hj => absurd hj (Nat.not_lt_zero _)
  | cons v bs ih =>
    intro m a j hm ha hj
    rw [List.length_cons] at ha hj
    have hm' : (writeByte m a v).wf = true := Memory.wf_writeByte hm (by omega)
    rw [writeBytes]
    cases j with
    | zero =>
      rw [readByte_writeBytes_outside hm' (by omega) (by omega), readByte_writeByte hm, if_pos (Nat.add_zero a),
        List.getElem?_cons_zero]
    | succ j =>
      rw [Nat.add_comm j, ← Nat.add_assoc, ih hm' (by omega) (by omega), Nat.add_comm 1 j, List.getElem?_cons_succ]

/-- Outside the extents a host store meets, host memory is as the bytes stored leave it (R66 (4)). -/
theorem readByte_hostMemStore {s : State} {a x : Nat} {bytes : List Byte} (hm : s.mem.wf = true)
    (ha : a + bytes.length ≤ 2 ^ 64) (hx : ∀ b ∈ s.racedBuffers a bytes.length, b.d.covers s.params.prec x = false) :
    readByte (hostMemStore s a bytes).mem x = readByte (writeBytes s.mem a bytes) x := by
  unfold hostMemStore
  split
  · rfl
  · exact readByte_scrambleAll_of_kept (Memory.wf_writeBytes hm ha) (.inr hx)

theorem mem_racedBuffers {s : State} {a n : Nat} {b : Buffer} :
    b ∈ s.racedBuffers a n ↔ b ∈ s.buffersInFlight ∧ rangesMeet a n b.d.b (b.d.size s.params.prec) = true :=
  List.mem_filter

/-- A host store to host memory touches no register of the CORE. -/
theorem hostMemStore_operands (s : State) (a : Nat) (bytes : List Byte) :
    (hostMemStore s a bytes).a0 = s.a0 ∧ (hostMemStore s a bytes).a1 = s.a1 ∧ (hostMemStore s a bytes).a2 = s.a2 ∧
      (hostMemStore s a bytes).a3 = s.a3 := by
  unfold hostMemStore
  split <;> exact ⟨rfl, rfl, rfl, rfl⟩

/-- Settles O55: outside the extents hit memory is as the store leaves it, and the extents hit are the raced buffers. -/
theorem hostStoreAndRace : Obligations.HostStoreAndRace := by
  intro s addr bytes rest hm hhost hgo hend hmeet hprog hit
  let u := s.tick.withProgram rest
  obtain ⟨h0, h1, h2, h3⟩ := hostMemStore_operands u addr.toNat bytes
  have hread (x : Nat) (hx : ¬hit x) :
      readByte (hostMemStore u addr.toNat bytes).mem x = readByte (writeBytes s.mem addr.toNat bytes) x := by
    refine readByte_hostMemStore (s := u) hm hend fun b hb => Bool.eq_false_iff.2 fun hcov => hx ?_
    obtain ⟨hb, hmeets⟩ := mem_racedBuffers.1 hb
    exact ⟨b, hb, hmeets, hcov⟩
  refine ⟨_, step_store_memory hhost hgo hend hmeet hprog, hostMemStore_status .., hostMemStore_latch ..,
    hostMemStore_kernel .., h0, h1, h2, h3, hostMemStore_params .., fun j hj hx => ?_, fun a ha hx => ?_, ?_⟩
  · rw [hread _ hx]
    exact readByte_writeBytes_inside hm hend hj
  · rw [hread a hx]
    exact readByte_writeBytes_outside hm hend ha
  · rw [hostMemStore_dstRaced, Bool.or_eq_true, List.any_eq_true]
    refine or_congr_right (exists_congr fun b => ?_)
    rw [mem_racedBuffers, and_assoc, and_comm (a := b.written = true)]
    rfl

end Sys2Proof.Machine

/-! SUPPORT. The decoder by the fields of a value: which fields decode to a command (R81, R83), and that a value is its
fields (R76). -/

namespace Sys2Proof

/-- Every command has its row of the opcode table (R84). -/
theorem tableWord (i : Instr) : Laws.TableWord.Statement i := by
  cases i
  exacts [Laws.TableWord.cfgR2, Laws.TableWord.cfgBs, Laws.TableWord.release, Laws.TableWord.fft, Laws.TableWord.ifft,
    Laws.TableWord.fftCopyC, Laws.TableWord.fftCopyR, Laws.TableWord.ifftCopyC, Laws.TableWord.ifftCopyR,
    Laws.TableWord.fftshiftC, Laws.TableWord.fftshiftR, Laws.TableWord.fftfreq, Laws.TableWord.fftampl]

theorem encode_eq_row (i : Instr) : encode i = Laws.TableWord.row i := (tableWord i).1

theorem fieldsOf_encode (i : Instr) : fieldsOf (encode i) = i.fields := by
  obtain ⟨hword, hfields, -⟩ := tableWord i
  rw [hword, hfields]

theorem Instr.wf_eq_true (i : Instr) : i.wf = true := (tableWord i).2.2

/-- The four fields of R76 are all 64 bits of a value. -/
theorem fieldsOf_injective : Function.Injective fieldsOf := by
  intro v w h
  simp only [fieldsOf, CmdFields.mk.injEq] at h
  obtain ⟨hop, het, hrsv, hhi⟩ := h
  have hbit : v.toNat / 2 ^ 8 % 2 = w.toNat / 2 ^ 8 % 2 := by
    clear hop hrsv hhi
    simp only [BitVec.getLsbD, Nat.testBit_eq_decide_div_mod_eq, decide_eq_decide] at het
    omega
  replace hop := congrArg BitVec.toNat hop
  replace hrsv := congrArg BitVec.toNat hrsv
  replace hhi := congrArg BitVec.toNat hhi
  simp only [BitVec.extractLsb'_toNat, Nat.shiftRight_eq_div_pow, pow_zero, Nat.div_one] at hop hrsv hhi
  apply BitVec.eq_of_toNat_eq
  rw [← Nat.mod_eq_of_lt v.isLt, ← Nat.mod_eq_of_lt w.isLt, show 2 ^ 64 = 2 ^ 8 * 2 * 2 ^ 23 * 2 ^ 32 from rfl]
  simp only [Nat.mod_mul, hop, hbit]
  rw [show 2 ^ 8 * 2 = 2 ^ 9 from rfl, show 2 ^ 9 * 2 ^ 23 = 2 ^ 32 from rfl, hrsv, hhi]

/-- An unlisted opcode has no command (R79, R81). -/
theorem instrOf_of_unlisted {op : BitVec 8} {et : Bool} (h : op ∉ listedOps) : instrOf op et = none := by
  simp only [listedOps, List.mem_cons, List.not_mem_nil, or_false, not_or] at h
  simp only [instrOf, h, if_false]

/-- The command of a listed opcode has that opcode and `ET` (R79, R84). -/
theorem instrOf_of_listed : ∀ op ∈ listedOps, ∀ et, ∀ i ∈ instrOf op et, op = i.op ∧ et = i.et := by
  decide

/-- An opcode and `ET` are those of one command at most (R79, R84). -/
theorem instrOf_eq_some_iff {op : BitVec 8} {et : Bool} {i : Instr} :
    instrOf op et = some i ↔ op = i.op ∧ et = i.et := by
  constructor
  · intro h
    by_cases hop : op ∈ listedOps
    · exact instrOf_of_listed op hop et i h
    · cases (instrOf_of_unlisted hop).symm.trans h
  · rintro ⟨rfl, rfl⟩
    cases i <;> rfl

/-- A value decodes to the command whose fields it has (R83). -/
theorem decode_eq_some_iff_fields {v : Word} {i : Instr} : decode v = some i ↔ fieldsOf v = i.fields := by
  rw [decode, Option.ite_none_right_eq_some, instrOf_eq_some_iff]
  generalize fieldsOf v = f
  obtain ⟨op, et, rsv, hi⟩ := f
  rw [Instr.fields, CmdFields.mk.injEq]
  tauto

theorem decode_eq_some_iff {v : Word} {i : Instr} : decode v = some i ↔ v = encode i := by
  rw [decode_eq_some_iff_fields, ← fieldsOf_encode]
  exact fieldsOf_injective.eq_iff

theorem decode_encode (i : Instr) : decode (encode i) = some i := decode_eq_some_iff.2 rfl

/-- Settles O1: a value is its fields, and a value decodes to a command exactly when it has the command's fields. -/
theorem decodeAndEncodeAgree : Obligations.DecodeAndEncodeAgree := fun _ _ _ => decode_eq_some_iff

/-- Settles O3: the thirteen words are the encodings of their commands. -/
theorem tableWordsDecode : Obligations.TableWordsDecode := by
  have hrow (i : Instr) : decode (Laws.TableWord.row i) = some i := decode_eq_some_iff.2 (encode_eq_row i).symm
  exact ⟨hrow .cfgR2, hrow .cfgBs, hrow .release, hrow .fft, hrow .ifft, hrow .fftCopyC, hrow .fftCopyR,
    hrow .ifftCopyC, hrow .ifftCopyR, hrow .fftshiftC, hrow .fftshiftR, hrow .fftfreq, hrow .fftampl,
    by decide, by decide⟩

/-! Lines. -/

theorem Instr.arity_le (i : Instr) : i.arity ≤ 4 := by cases i <;> decide

/-- A well-formed line has an operand register for each operand (R22, R84). -/
theorem Line.length_operands_le {l : Line} (h : l.wf = true) : l.operands.length ≤ 4 := by
  simp only [Line.wf, Bool.and_eq_true, beq_iff_eq] at h
  obtain ⟨-, harity⟩ := h
  exact harity ▸ l.instr.arity_le

/-! Illegal values. -/

theorem CmdFields.wf_iff {f : CmdFields} :
    f.wf = true ↔ f.hi = 0 ∧ f.rsv = 0 ∧ f.op ∈ listedOps ∧ (f.et = true → f.op ∈ typedOps) := by
  simp [CmdFields.wf, and_assoc, imp_iff_not_or]

/-- A listed opcode with an `ET` that is defined for it has a command (R79, R81). -/
theorem exists_instrOf : ∀ op ∈ listedOps, ∀ et, (et = true → op ∈ typedOps) → (instrOf op et).isSome = true := by
  decide

/-- The values that decode are those with legal fields (R81). -/
theorem decode_isSome_iff {v : Word} : (decode v).isSome = true ↔ (fieldsOf v).wf = true := by
  constructor
  · intro h
    obtain ⟨i, hi⟩ := Option.isSome_iff_exists.1 h
    rw [decode_eq_some_iff_fields.1 hi]
    exact i.wf_eq_true
  · intro h
    obtain ⟨hhi, hrsv, hop, het⟩ := CmdFields.wf_iff.1 h
    rw [decode, if_pos ⟨hhi, hrsv⟩]
    exact exists_instrOf _ hop _ het

/-- The values that do not decode are those with one of the four conditions of R81. -/
theorem decode_eq_none_iff {v : Word} :
    decode v = none ↔ (fieldsOf v).hi ≠ 0 ∨ (fieldsOf v).rsv ≠ 0 ∨ (fieldsOf v).op ∉ listedOps ∨
      ((fieldsOf v).et = true ∧ (fieldsOf v).op ∉ typedOps) := by
  rw [← Option.not_isSome_iff_eq_none, decode_isSome_iff, CmdFields.wf_iff]
  tauto

end Sys2Proof

namespace Sys2Proof.Machine

/-- The CORE's step of an illegal value (R81). -/
theorem step_illegal {s : State} {l : Latch} (hcore : s.nextAgent = .core) (hl : s.latch = some l)
    (hill : decode l.v = none) : step s = .next (s.tick.complete .illegalCommand) := by
  rw [step_of_core hcore]
  simp [coreStep, hl, hill, conclude_error]

/-- Settles O2: the four conditions are those of a value that does not decode. -/
theorem illegalCommandsExactly : Obligations.IllegalCommandsExactly := by
  intro s l hcore hl
  split_ifs with hill
  · exact ⟨_, step_illegal hcore hl (decode_eq_none_iff.2 hill), (SameOutside.refl _).completes _, rfl, rfl⟩
  · obtain ⟨i, hi⟩ := Option.ne_none_iff_exists'.1 (mt decode_eq_none_iff.1 hill)
    exact ⟨i, hi, stepRunsDecodedCommand s l i hcore hl hi i.wf_eq_true⟩

end Sys2Proof.Machine

/-! SUPPORT. The host's other steps: register loads (R22 to R33, R75), malformed accesses (R77), and the pseudo-instructions
(R86). -/

namespace Sys2Proof.Machine

theorem step_of_host {s : State} (h : s.nextAgent = .host) : step s = hostAct s.tick := by
  simp [step, h]

section HostActions

variable {s : State} {rest : List HostAct} (hgo : s.host.stopped = false)

include hgo

theorem hostAct_store {addr : Word} {bytes : List Byte} (hprog : s.host.program = .store addr bytes :: rest) :
    hostAct s = hostStore (s.withProgram rest) addr bytes := by
  simp [hostAct, hgo, hprog]

theorem hostAct_load {addr : Word} {n : Nat} (hprog : s.host.program = .load addr n :: rest) :
    hostAct s = hostLoad (s.withProgram rest) addr n := by
  simp [hostAct, hgo, hprog]

/-- A poll with `BUSY = 1` leaves the program at the poll (R86). -/
theorem hostAct_poll_of_busy {a : HostAct} (ha : a = .wait ∨ a = .check) (hprog : s.host.program = a :: rest)
    (hb : s.status.busy = true) : hostAct s = .next s := by
  rcases ha with rfl | rfl <;> simp [hostAct, hgo, hprog, hb]

theorem hostAct_wait_of_idle (hprog : s.host.program = .wait :: rest) (hb : s.status.busy = false) :
    hostAct s = .next (s.withProgram rest) := by
  simp [hostAct, hgo, hprog, hb]

theorem hostAct_check_of_error (hprog : s.host.program = .check :: rest) (hb : s.status.busy = false)
    (herr : s.status.err ≠ .ok ∨ s.status.pf = true) : hostAct s = .next (s.withProgram rest).stopHost := by
  simp [hostAct, hgo, hprog, hb, herr]

theorem hostAct_check_of_ok (hprog : s.host.program = .check :: rest) (hb : s.status.busy = false)
    (hok : ¬(s.status.err ≠ .ok ∨ s.status.pf = true)) : hostAct s = .next (s.withProgram rest) := by
  simp [hostAct, hgo, hprog, hb, hok]

end HostActions

/-- Settles O13: a poll with `BUSY = 1` stays; with `BUSY = 0` `wait` is over, and `check` is by the two fields it reads. -/
theorem waitAndCheck : Obligations.WaitAndCheck := by
  intro s rest hhost hgo
  rw [step_of_host hhost]
  refine ⟨fun hprog => ?_, fun hprog hb => hostAct_poll_of_busy (s := s.tick) hgo (.inr rfl) hprog hb,
    fun hprog hb => ?_⟩
  · cases hb : s.status.busy
    · exact hostAct_wait_of_idle (s := s.tick) hgo hprog hb
    · exact hostAct_poll_of_busy (s := s.tick) hgo (.inl rfl) hprog hb
  · by_cases herr : s.status.err ≠ .ok ∨ s.status.pf = true
    · exact ⟨_, hostAct_check_of_error (s := s.tick) hgo hprog hb herr, rfl, rfl, iff_of_true rfl herr⟩
    · exact ⟨_, hostAct_check_of_ok (s := s.tick) hgo hprog hb herr, rfl, rfl, iff_of_false (by simp [hgo]) herr⟩

/-! Register loads. -/

theorem readReg_tick_withProgram (s : State) (p : List HostAct) (r : Reg) :
    readReg (s.tick.withProgram p) r = readReg s r := by
  cases r <;> rfl

/-- The offsets past `ID` are reserved (R33, R75). -/
theorem regAt_reserved {off : Nat} (h : 0x58 ≤ off) : regAt off = .reserved := by
  have hne (k : Nat) (hk : k < 0x58) : off ≠ k := by omega
  simp [regAt, hne]

/-- Settles O10: an aligned 64-bit load is routed to the register of its offset and records what `readReg` gives. -/
theorem registerReads : Obligations.RegisterReads := by
  intro s off rest hP hhost hgo h8 hoff hprog
  refine ⟨readReg s (regAt off), ?_, ?_⟩
  · simp only [step_of_host hhost, hostAct_load (s := s.tick) hgo hprog, hostLoad, State.withProgram_params,
      State.tick_params, route_register hP h8 hoff, readReg_tick_withProgram]
  · have hread (k : Nat) (hk : off = k) : readReg s (regAt off) = readReg s (regAt k) := by rw [hk]
    exact ⟨hread 0x00, hread 0x08, hread 0x10, hread 0x18, hread 0x20, hread 0x28, hread 0x30, hread 0x38, hread 0x40,
      hread 0x48, hread 0x50, fun h => by rw [regAt_reserved h]; rfl⟩

/-- Only offset 0 is that of `CMD` (R75). -/
theorem regAt_ne_cmd {off : Nat} (h : 0 < off) : regAt off ≠ .cmd := by
  simp [regAt, h.ne', ite_eq_iff]

/-! Malformed accesses. -/

theorem Params.wf_ubase_aligned {P : Params} (h : P.wf = true) : P.ubase.toNat % 0x100 = 0 := by
  simp only [Params.wf, Bool.and_eq_true, decide_eq_true_eq] at h
  obtain ⟨⟨-, haligned⟩, -⟩ := h
  exact haligned

/-- An access that meets the register block and is of another width or alignment goes to no register (R77). -/
theorem route_malformed {P : Params} {a n : Nat} (hP : P.wf = true) (hend : a + n ≤ 2 ^ 64)
    (hmeet : rangesMeet a n P.ubase.toNat blockSize = true) (hbad : n ≠ 8 ∨ a % 8 ≠ 0) : route P a n = .malformed := by
  have hu := Params.wf_ubase_aligned hP
  simp only [route]
  rw [if_neg (by omega), if_pos hmeet, if_neg]
  rintro ⟨hn, hle, h8, -⟩
  omega

/-- Settles O12: a store and a load of such an access are refused by their route. -/
theorem malformedRegisterAccessRefused : Obligations.MalformedRegisterAccessRefused := by
  intro s addr bytes rest hP hhost hgo hend hmeet hbad
  have hroute : route (s.tick.withProgram rest).params addr.toNat bytes.length = .malformed :=
    route_malformed hP hend hmeet hbad
  rw [step_of_host hhost]
  refine ⟨fun hprog => ?_, fun hprog => ?_⟩
  · rw [hostAct_store (s := s.tick) hgo hprog, hostStore, hroute]
  · rw [hostAct_load (s := s.tick) hgo hprog, hostLoad, hroute]

end Sys2Proof.Machine

/-! SUPPORT. The run of an assembler line's expansion (R85): each operand store writes the next operand register, and the
store to `CMD` is acceptance (R22, R23). -/

namespace Sys2Proof.Machine

/-- The host moves, and a register write takes effect (R22, R27): the schedule is the default one, the host is not stopped and
no command is in flight. -/
structure State.HostReady (s : State) : Prop where
  params : s.params.wf = true
  agenda : s.agenda = []
  running : s.host.stopped = false
  idle : s.status.busy = false

theorem State.tick_of_agenda_nil {s : State} (h : s.agenda = []) : s.tick = s := by
  cases s
  cases h
  rfl

theorem Reg.idleWrite_withProgram (s : State) (p : List HostAct) (v : Word) (r : Reg) :
    r.idleWrite (s.withProgram p) v = (r.idleWrite s v).withProgram p := by
  cases r <;> rfl

@[simp] theorem Reg.idleWrite_params (s : State) (v : Word) (r : Reg) : (r.idleWrite s v).params = s.params := by
  cases r <;> rfl

/-- Every register write but that of `CMD` leaves the host ready for the next. -/
theorem State.HostReady.idleWrite {s : State} (h : s.HostReady) {r : Reg} (hr : r ≠ .cmd) (v : Word) :
    (r.idleWrite s v).HostReady := by
  obtain ⟨hP, ha, hgo, hb⟩ := h
  cases r
  case cmd => exact absurd rfl hr
  all_goals exact ⟨hP, ha, hgo, hb⟩

/-- One register store of a ready host. -/
theorem State.HostReady.step_store {s : State} (h : s.HostReady) {off : Nat} {v : Word} {rest : List HostAct}
    (h8 : off % 8 = 0) (hoff : off < 0x100) :
    step (s.withProgram (regStore s.params off v :: rest)) = .next (((regAt off).idleWrite s v).withProgram rest) := by
  obtain ⟨hP, ha, hgo, hb⟩ := h
  let u := s.withProgram (regStore s.params off v :: rest)
  have hhost : u.nextAgent = .host := by simp [State.nextAgent, u, ha, hb]
  have htick : u.tick = u := State.tick_of_agenda_nil ha
  rw [step_regStore (s := u) hP hhost hgo h8 hoff rfl, htick, writeReg_of_idle (s := u.withProgram rest) hb]
  exact congrArg _ (Reg.idleWrite_withProgram s rest v _)

theorem run_succ_of_step {M : Host.Core} {s t : M.State} (h : M.step s = .next t) (k : Nat) :
    M.run (k + 1) s = M.run k t := by
  rw [Host.Core.run, h]

/-- The registers from offset `off` on take the operands in order. -/
def State.writeOperands (s : State) : Nat → List Word → State
  | _, [] => s
  | off, v :: rest => ((regAt off).idleWrite s v).writeOperands (off + 8) rest

theorem State.writeOperands_params (ops : List Word) : ∀ (s : State) (off : Nat),
    (s.writeOperands off ops).params = s.params := by
  induction ops with
  | nil => exact fun _ _ => rfl
  | cons v ops ih => exact fun s off => (ih _ _).trans (Reg.idleWrite_params ..)

theorem State.HostReady.writeOperands {ops : List Word} : ∀ {s : State} {off : Nat}, s.HostReady → 0 < off →
    (s.writeOperands off ops).HostReady := by
  induction ops with
  | nil => exact fun h _ => h
  | cons v ops ih => exact fun h hpos => ih (h.idleWrite (regAt_ne_cmd hpos) v) (by omega)

/-- A ready host runs operand stores in as many steps (R85). -/
theorem run_operandStores {ops : List Word} {rest : List HostAct} {k : Nat} : ∀ {s : State} {off : Nat}, s.HostReady →
    off % 8 = 0 → 0 < off → off + 8 * ops.length ≤ 0x100 →
    Host.Core.run Sys2Proof.core (ops.length + k) (s.withProgram (operandStores s.params off ops ++ rest)) =
      Host.Core.run Sys2Proof.core k ((s.writeOperands off ops).withProgram rest) := by
  induction ops with
  | nil => exact fun _ _ _ _ => by rw [List.length_nil, Nat.zero_add]; rfl
  | cons v ops ih =>
    intro s off h h8 hpos hoff
    rw [List.length_cons] at hoff
    rw [List.length_cons, Nat.add_right_comm, operandStores, List.cons_append,
      run_succ_of_step (M := Sys2Proof.core) (h.step_store h8 (by omega)), ← Reg.idleWrite_params s v (regAt off),
      ih (h.idleWrite (regAt_ne_cmd hpos) v) (by omega) (by omega) (by omega)]
    rfl

/-- Up to four operands go to `A0`, `A1`, … and leave the registers beyond them (R84, R85). -/
theorem writeOperands_eq (s : State) {ops : List Word} (h : ops.length ≤ 4) :
    s.writeOperands 0x08 ops =
      { s with a0 := ops.getD 0 s.a0, a1 := ops.getD 1 s.a1, a2 := ops.getD 2 s.a2, a3 := ops.getD 3 s.a3 } := by
  match ops, h with
  | [], _ => rfl
  | [_], _ => rfl
  | [_, _], _ => rfl
  | [_, _, _], _ => rfl
  | [_, _, _, _], _ => rfl

/-- A ready host that runs a command line's stores has its command accepted with the operands (R23, R85). -/
theorem run_expandLine {s : State} {l : Line} {rest : List HostAct} (h : s.HostReady) (hl : l.operands.length ≤ 4) :
    Host.Core.run Sys2Proof.core (l.operands.length + 1) (s.withProgram (expandLine s.params l ++ rest)) =
      .next (((s.writeOperands 0x08 l.operands).accept (encode l.instr)).withProgram (.wait :: rest)) := by
  have hcmd := (h.writeOperands (ops := l.operands) (off := 0x08) (by decide)).step_store (off := 0x00)
    (v := encode l.instr) (rest := .wait :: rest) rfl (by decide)
  rw [State.writeOperands_params] at hcmd
  rw [expandLine, List.append_assoc, run_operandStores h rfl (by decide) (by omega)]
  exact run_succ_of_step (M := Sys2Proof.core) hcmd 0

/-- The step after acceptance is the command's (R65). -/
theorem State.HostReady.step_accept {s : State} (h : s.HostReady) (i : Instr) (p : List HostAct) :
    step ((s.accept (encode i)).withProgram p) = exec i ((s.accept (encode i)).withProgram p) := by
  let u := (s.accept (encode i)).withProgram p
  have hcore : u.nextAgent = .core := by simp [State.nextAgent, u, h.agenda]
  have hstep := stepRunsDecodedCommand u (s.capture (encode i)) i hcore rfl (decode_encode i) i.wf_eq_true
  rwa [State.tick_of_agenda_nil (s := u) h.agenda] at hstep

/-- Settles O14: the operands are written, the command is accepted, and the CORE's next step is the command's. -/
theorem commandLineRuns : Obligations.CommandLineRuns := by
  intro s l rest hP hwf hagenda hgo hbusy hprog
  have hready : s.HostReady := ⟨hP, hagenda, hgo, hbusy⟩
  have hl := Line.length_operands_le hwf
  have hrun := run_expandLine (rest := rest) hready hl
  have hstep := (hready.writeOperands (ops := l.operands) (off := 0x08) (by decide)).step_accept l.instr (.wait :: rest)
  rw [← hprog] at hrun
  rw [writeOperands_eq s hl] at hrun hstep
  exact ⟨_, hrun, rfl, hstep⟩

end Sys2Proof.Machine

/-! SUPPORT. The values of `T` as bit patterns (R55, R100, R103): packing and unpacking, the sign operations, and the finite
magnitudes as a strictly rising sequence of multiples of the smallest subnormal. -/

namespace Sys2Proof.Machine

theorem fracBits_pos (p : Prec) : 0 < fracBits p := by cases p <;> decide

theorem infMag_lt_two_pow (p : Prec) : infMag p < 2 ^ signPos p := by cases p <;> decide

theorem infMag_pos (p : Prec) : 0 < infMag p := by cases p <;> decide

/-! Packing and unpacking. -/

section Packing

variable {p : Prec} {mag : Nat}

theorem toNat_packMag (h : mag < 2 ^ signPos p) (s : Bool) :
    (packMag p s mag).toNat = (if s then 2 ^ signPos p else 0) + mag := by
  have h64 : 2 ^ signPos p + 2 ^ signPos p ≤ 2 ^ 64 := by cases p <;> decide
  rw [packMag, BitVec.toNat_ofNat, Nat.mod_eq_of_lt]
  split_ifs <;> omega

theorem magOf_packMag (h : mag < 2 ^ signPos p) (s : Bool) : magOf p (packMag p s mag) = mag := by
  rw [magOf, toNat_packMag h]
  cases s with
  | true => rw [if_pos rfl, Nat.add_mod_left, Nat.mod_eq_of_lt h]
  | false => simp [Nat.mod_eq_of_lt h]

theorem signOf_packMag (h : mag < 2 ^ signPos p) (s : Bool) : signOf p (packMag p s mag) = s := by
  rw [signOf, BitVec.getLsbD, toNat_packMag h]
  have hlow := Nat.testBit_lt_two_pow h
  cases s with
  | true => rw [if_pos rfl, Nat.testBit_two_pow_add_eq, hlow, Bool.not_false]
  | false => simpa using hlow

theorem unpack_packMag_of_lt (h : mag < infMag p) (s : Bool) : unpack p (packMag p s mag) = .fin s (unitsOf p mag) := by
  have hlt := h.trans (infMag_lt_two_pow p)
  rw [unpack, isNaN, magOf_packMag hlt, signOf_packMag hlt, if_neg (by simpa using h.le), if_neg h.ne]

theorem unpack_packMag_infMag (s : Bool) : unpack p (packMag p s (infMag p)) = .inf s := by
  have hlt := infMag_lt_two_pow p
  rw [unpack, isNaN, magOf_packMag hlt, signOf_packMag hlt, if_neg (by simp), if_pos rfl]

end Packing

theorem isNaN_iff {p : Prec} {v : FBits} : isNaN p v = true ↔ infMag p < magOf p v := by rw [isNaN, decide_eq_true_eq]

theorem unpack_of_isNaN {p : Prec} {v : FBits} (h : isNaN p v = true) : unpack p v = .nan := if_pos h

theorem unpack_of_magOf_eq {p : Prec} {v : FBits} (h : magOf p v = infMag p) : unpack p v = .inf (signOf p v) := by
  rw [unpack, if_neg (by simp [isNaN, h]), if_pos h]

theorem unpack_of_magOf_lt {p : Prec} {v : FBits} (h : magOf p v < infMag p) :
    unpack p v = .fin (signOf p v) (unitsOf p (magOf p v)) := by
  rw [unpack, if_neg (by simpa [isNaN] using h.le), if_neg h.ne]

/-- The magnitude bits of a finite value lie below those of an infinity. -/
theorem exists_of_unpack_fin {p : Prec} {v : FBits} {s : Bool} {x : Nat} (h : unpack p v = .fin s x) :
    magOf p v < infMag p ∧ signOf p v = s ∧ unitsOf p (magOf p v) = x := by
  rcases lt_trichotomy (magOf p v) (infMag p) with hlt | heq | hgt
  · rw [unpack_of_magOf_lt hlt] at h
    simpa [hlt] using h
  · simp [unpack_of_magOf_eq heq] at h
  · simp [unpack_of_isNaN (isNaN_iff.2 hgt)] at h

/-! The sign operations. -/

/-- A value of `T` has no bit above its sign bit. -/
theorem getLsbD_of_signPos_lt {p : Prec} {a : FBits} (h : maskT p a = a) {j : Nat} (hj : signPos p < j) :
    a.getLsbD j = false := by
  cases p with
  | binary32 =>
    rw [signPos] at hj
    rw [← h, maskT, BitVec.truncate, BitVec.zeroExtend, BitVec.getLsbD_setWidth, BitVec.getLsbD_setWidth]
    simp [show ¬j < 32 by omega]
  | binary64 => exact BitVec.getLsbD_of_ge a j hj

theorem signPos_lt (p : Prec) : signPos p < 64 := by cases p <;> decide

/-- `fneg` flips the sign bit alone (R103). -/
theorem getLsbD_fneg (p : Prec) (a : FBits) (j : Nat) :
    (fneg p a).getLsbD j = if j = signPos p then !a.getLsbD j else a.getLsbD j := by
  have := signPos_lt p
  rw [fneg, BitVec.getLsbD_xor, BitVec.getLsbD_ofNat, Nat.testBit_two_pow]
  by_cases hj : j = signPos p
  · simp [hj, this]
  · simp [hj, Ne.symm hj]

/-- `fabs` keeps the bits below the sign bit (R103). -/
theorem getLsbD_fabs (p : Prec) (a : FBits) (j : Nat) :
    (fabs p a).getLsbD j = (decide (j < signPos p) && a.getLsbD j) := by
  have := signPos_lt p
  rw [fabs, BitVec.getLsbD_ofNat, magOf, Nat.testBit_mod_two_pow, BitVec.testBit_toNat]
  by_cases hj : j < signPos p
  · simp [hj, hj.trans this]
  · simp [hj]

/-- Settles O34, at, below and above the sign bit. -/
theorem negAndAbsAreExact : Obligations.NegAndAbsAreExact := by
  intro p a j ha
  refine ⟨getLsbD_fneg p a j, ?_⟩
  rw [getLsbD_fabs]
  rcases lt_trichotomy j (signPos p) with hlt | heq | hgt
  · simp [hlt, hlt.ne]
  · simp [heq]
  · simp [hgt.not_gt, hgt.ne', getLsbD_of_signPos_lt ha hgt]

theorem magOf_fneg (p : Prec) (a : FBits) : magOf p (fneg p a) = magOf p a := by
  refine Nat.eq_of_testBit_eq fun j => ?_
  rw [magOf, magOf, Nat.testBit_mod_two_pow, Nat.testBit_mod_two_pow, BitVec.testBit_toNat, BitVec.testBit_toNat,
    getLsbD_fneg]
  by_cases hj : j < signPos p
  · simp [hj, hj.ne]
  · simp [hj]

theorem signOf_fneg (p : Prec) (a : FBits) : signOf p (fneg p a) = !signOf p a := by
  rw [signOf, getLsbD_fneg, if_pos rfl, signOf]

theorem isNaN_fneg (p : Prec) (a : FBits) : isNaN p (fneg p a) = isNaN p a := by rw [isNaN, magOf_fneg, isNaN]

/-- The number a bit pattern stands for, with the other sign (R103). -/
def FVal.neg : FVal → FVal
  | .nan => .nan
  | .inf s => .inf (!s)
  | .fin s x => .fin (!s) x

theorem unpack_fneg (p : Prec) (a : FBits) : unpack p (fneg p a) = (unpack p a).neg := by
  rw [unpack, unpack, isNaN_fneg, magOf_fneg, signOf_fneg]
  split_ifs <;> rfl

/-- `fabs` as the value packed from the magnitude bits (R103). -/
theorem fabs_eq_packMag (p : Prec) (a : FBits) : fabs p a = packMag p false (magOf p a) := by
  rw [fabs, packMag, if_neg Bool.false_ne_true, Nat.zero_add]

theorem magOf_lt (p : Prec) (a : FBits) : magOf p a < 2 ^ signPos p := Nat.mod_lt _ (Nat.two_pow_pos _)

/-! The finite magnitudes in units of the smallest subnormal. -/

/-- A magnitude by its binade and its significand; the significand one past the last gives the next binade's first value. -/
theorem unitsOf_binade {p : Prec} {sh t : Nat} (h : sh = 0 ∨ 2 ^ fracBits p ≤ t) (ht : t ≤ 2 ^ (fracBits p + 1)) :
    unitsOf p (sh <<< fracBits p + t) = t * 2 ^ sh := by
  have hB := Nat.two_pow_pos (fracBits p)
  rw [pow_succ] at ht
  rw [unitsOf, Nat.shiftRight_eq_div_pow, Nat.shiftLeft_eq, Nat.mul_comm sh]
  simp only [Nat.mul_add_div hB, Nat.mul_add_mod, Nat.shiftLeft_eq]
  generalize 2 ^ fracBits p = B at *
  rcases Nat.lt_or_ge t B with hlt | hge
  · obtain rfl : sh = 0 := h.resolve_right (by omega)
    simp [Nat.div_eq_of_lt hlt]
  · rcases Nat.lt_or_ge t (2 * B) with hlt | hge2
    · have hdiv : t / B = 1 := (Nat.div_eq_iff hB).2 (by omega)
      have hmod : t % B = t - B := by rw [Nat.mod_eq_sub_mod hge, Nat.mod_eq_of_lt (by omega)]
      rw [hdiv, hmod, if_neg (by omega), Nat.sub_add_cancel hge, Nat.add_sub_cancel]
    · obtain rfl : t = 2 * B := by omega
      rw [Nat.mul_div_cancel _ hB, Nat.mul_mod_left, if_neg (by omega), Nat.zero_add, Nat.add_sub_assoc (by decide),
        pow_succ]
      ring

/-- Every magnitude lies in a binade: its significand is normalised, or the binade is the subnormals' (R100). -/
theorem exists_binade (p : Prec) (m : Nat) :
    ∃ sh t, m = sh <<< fracBits p + t ∧ (sh = 0 ∨ 2 ^ fracBits p ≤ t) ∧ t < 2 ^ (fracBits p + 1) := by
  have hB := Nat.two_pow_pos (fracBits p)
  have hdiv := Nat.div_add_mod m (2 ^ fracBits p)
  have hmod := Nat.mod_lt m hB
  simp only [Nat.shiftLeft_eq, pow_succ]
  generalize 2 ^ fracBits p = B at *
  rcases Nat.eq_zero_or_pos (m / B) with h0 | hpos
  · refine ⟨0, m, by simp, .inl rfl, ?_⟩
    rw [h0] at hdiv
    omega
  · refine ⟨m / B - 1, m % B + B, ?_, .inr (by omega), by omega⟩
    obtain ⟨k, hk⟩ := Nat.exists_eq_add_of_lt hpos
    rw [hk] at hdiv ⊢
    rw [Nat.zero_add, Nat.add_sub_cancel]
    linarith [hdiv, Nat.mul_comm B k]

/-- Larger magnitude bits stand for larger values. -/
theorem unitsOf_strictMono (p : Prec) : StrictMono (unitsOf p) := by
  refine strictMono_nat_of_lt_succ fun m => ?_
  obtain ⟨sh, t, rfl, h, ht⟩ := exists_binade p m
  rw [Nat.add_assoc, unitsOf_binade h ht.le, unitsOf_binade (h.imp_right (by omega)) ht]
  exact Nat.mul_lt_mul_of_pos_right (Nat.lt_succ_self t) (Nat.two_pow_pos sh)

@[simp] theorem unitsOf_zero (p : Prec) : unitsOf p 0 = 0 := by simp [unitsOf]

/-- A number with at most one bit more than the fraction has, scaled by a power of two, is a magnitude (R100). -/
theorem exists_unitsOf_eq (p : Prec) (sh : Nat) : ∀ t ≤ 2 ^ (fracBits p + 1), ∃ m, unitsOf p m = t * 2 ^ sh := by
  induction sh with
  | zero => exact fun t ht => ⟨_, unitsOf_binade (.inl rfl) ht⟩
  | succ sh ih =>
    intro t ht
    by_cases hnorm : 2 ^ fracBits p ≤ t
    · exact ⟨_, unitsOf_binade (.inr hnorm) ht⟩
    · obtain ⟨m, hm⟩ := ih (t * 2) (by rw [pow_succ]; omega)
      exact ⟨m, by rw [hm, pow_succ']; ring⟩

end Sys2Proof.Machine

/-! SUPPORT. The one rounding (R101, R104): what it is to round a non-negative real to nearest, ties to even, among all
magnitudes with no largest one, when that reaches infinity, and that `roundQuot` and `roundRoot` do so. -/

namespace Sys2Proof.Machine

/-! Midpoints. -/

/-- Twice the midpoint between the magnitudes `m` and `m + 1`, in units of the smallest subnormal. -/
def midUnits (p : Prec) (m : Nat) : Nat := unitsOf p m + unitsOf p (m + 1)

theorem midUnits_strictMono (p : Prec) : StrictMono (midUnits p) := fun _ _ h =>
  Nat.add_lt_add (unitsOf_strictMono p h) (unitsOf_strictMono p (Nat.succ_lt_succ h))

theorem two_mul_unitsOf_lt_midUnits (p : Prec) (m : Nat) : 2 * unitsOf p m < midUnits p m := by
  have := unitsOf_strictMono p (lt_add_one m)
  rw [midUnits]
  omega

theorem midUnits_lt_two_mul_unitsOf (p : Prec) (m : Nat) : midUnits p m < 2 * unitsOf p (m + 1) := by
  have := unitsOf_strictMono p (lt_add_one m)
  rw [midUnits]
  omega

/-- The largest finite magnitude is odd, so its midpoint rounds up to infinity. -/
theorem exists_infMag_eq_succ (p : Prec) : ∃ m, infMag p = m + 1 ∧ m % 2 = 1 ∧ overflowUnits p = midUnits p m := by
  have hB := Nat.two_pow_pos (fracBits p + 1)
  have hE : 2 ≤ expMax p := by cases p <;> decide
  have hsplit : infMag p = (expMax p - 2) <<< fracBits p + 2 ^ (fracBits p + 1) := by
    rw [infMag, Nat.shiftLeft_eq, Nat.shiftLeft_eq, pow_succ, Nat.mul_comm _ 2, ← Nat.add_mul, Nat.sub_add_cancel hE]
  have hsucc : (expMax p - 2) <<< fracBits p + (2 ^ (fracBits p + 1) - 1) + 1 = infMag p := by rw [hsplit]; omega
  refine ⟨(expMax p - 2) <<< fracBits p + (2 ^ (fracBits p + 1) - 1), hsucc.symm, by cases p <;> decide, ?_⟩
  rw [midUnits, hsucc, hsplit, unitsOf_binade (.inr (by rw [pow_succ] at hB ⊢; omega)) (by omega),
    unitsOf_binade (.inr (by rw [pow_succ]; omega)) le_rfl, ← Nat.add_mul, overflowUnits, pow_succ _ (fracBits p + 1)]
  congr 1
  omega

/-! Rounding with no largest value. -/

/-- `m` is the non-negative real `e`, in units of the smallest subnormal, rounded to nearest, ties to even, in the format
continued beyond its largest finite value: `e` lies between the midpoints on both sides of `m`, on one only if `m` is
even. -/
def RoundsTo (p : Prec) (e : ℝ) (m : Nat) : Prop :=
  (∀ k, k + 1 = m → (midUnits p k : ℝ) < 2 * e ∨ (midUnits p k : ℝ) = 2 * e ∧ m % 2 = 0) ∧
  (2 * e < midUnits p m ∨ 2 * e = midUnits p m ∧ m % 2 = 0)

section RoundsTo

variable {p : Prec} {e : ℝ} {m : Nat}

theorem RoundsTo.midUnits_le (h : RoundsTo p e m) {k : Nat} (hk : k < m) : (midUnits p k : ℝ) ≤ 2 * e := by
  obtain ⟨j, rfl⟩ : ∃ j, m = j + 1 := ⟨m - 1, by omega⟩
  have hmono : (midUnits p k : ℝ) ≤ midUnits p j := by
    exact_mod_cast (midUnits_strictMono p).monotone (Nat.le_of_lt_succ hk)
  exact hmono.trans ((h.1 j rfl).elim le_of_lt fun heq => heq.1.le)

theorem RoundsTo.le_midUnits (h : RoundsTo p e m) {k : Nat} (hk : m ≤ k) : 2 * e ≤ midUnits p k := by
  have hmono : (midUnits p m : ℝ) ≤ midUnits p k := by exact_mod_cast (midUnits_strictMono p).monotone hk
  exact (h.2.elim le_of_lt fun heq => heq.1.le).trans hmono

/-- A larger magnitude is not nearer to the exact number. -/
theorem RoundsTo.above (h : RoundsTo p e m) {m' : Nat} (hlt : m < m') :
    2 * e < unitsOf p m + unitsOf p m' ∨ 2 * e = unitsOf p m + unitsOf p m' ∧ m % 2 = 0 := by
  have hle : (midUnits p m : ℝ) ≤ unitsOf p m + unitsOf p m' := by
    exact_mod_cast Nat.add_le_add_left ((unitsOf_strictMono p).monotone hlt) _
  rcases h.2 with hmid | ⟨hmid, heven⟩
  · exact .inl (hmid.trans_le hle)
  · exact (hmid.trans_le hle).lt_or_eq.imp_right fun heq => ⟨heq, heven⟩

/-- A smaller magnitude is not nearer to the exact number. -/
theorem RoundsTo.below (h : RoundsTo p e m) {m' : Nat} (hlt : m' < m) :
    (unitsOf p m + unitsOf p m' : ℝ) < 2 * e ∨ (unitsOf p m + unitsOf p m' : ℝ) = 2 * e ∧ m % 2 = 0 := by
  obtain ⟨k, rfl⟩ : ∃ k, m = k + 1 := ⟨m - 1, by omega⟩
  have hle : (unitsOf p (k + 1) + unitsOf p m' : ℝ) ≤ midUnits p k := by
    rw [add_comm]
    exact_mod_cast Nat.add_le_add_right ((unitsOf_strictMono p).monotone (Nat.le_of_lt_succ hlt)) _
  rcases h.1 k rfl with hmid | ⟨hmid, heven⟩
  · exact .inl (hle.trans_lt hmid)
  · exact (hle.trans_eq hmid).lt_or_eq.imp_right fun heq => ⟨heq, heven⟩

/-- Distances compared without absolute values: the sign of a product says which of two numbers is nearer. -/
theorem abs_sub_le_abs_sub_iff {a b c : ℝ} : |a - c| ≤ |b - c| ↔ 0 ≤ (b - a) * (a + b - 2 * c) := by
  rw [← sq_le_sq, ← sub_nonneg]
  ring_nf

/-- No magnitude is nearer to the exact number than the rounded one, and one as near leaves the rounded one even. -/
theorem RoundsTo.nearest (h : RoundsTo p e m) (m' : Nat) :
    |(unitsOf p m : ℝ) - e| ≤ |(unitsOf p m' : ℝ) - e| ∧
      (m' ≠ m → |(unitsOf p m : ℝ) - e| = |(unitsOf p m' : ℝ) - e| → m % 2 = 0) := by
  have htie : ∀ {a b : ℝ}, a ≠ b → |a - e| = |b - e| → a + b = 2 * e := fun hne heq =>
    (abs_eq_abs.1 heq).elim (fun h => absurd (sub_left_inj.1 h) hne) fun h => by linarith
  rw [abs_sub_le_abs_sub_iff]
  rcases lt_trichotomy m' m with hlt | rfl | hgt
  · have hlt' : (unitsOf p m' : ℝ) < unitsOf p m := Nat.cast_lt.2 (unitsOf_strictMono p hlt)
    have hbelow := h.below hlt
    refine ⟨mul_nonneg_of_nonpos_of_nonpos (by linarith) ?_, fun _ heq => ?_⟩
    · rcases hbelow with hmid | ⟨hmid, -⟩ <;> linarith
    · exact (hbelow.resolve_left (htie hlt'.ne' heq).not_lt).2
  · exact ⟨by simp, fun hne => absurd rfl hne⟩
  · have hgt' : (unitsOf p m : ℝ) < unitsOf p m' := Nat.cast_lt.2 (unitsOf_strictMono p hgt)
    have habove := h.above hgt
    refine ⟨mul_nonneg (by linarith) ?_, fun _ heq => ?_⟩
    · rcases habove with hmid | ⟨hmid, -⟩ <;> linarith
    · exact (habove.resolve_left (htie hgt'.ne heq).not_gt).2

/-- Rounding reaches the magnitude bits of infinity exactly from the midpoint above the largest finite value on. -/
theorem RoundsTo.infMag_le_iff (h : RoundsTo p e m) : infMag p ≤ m ↔ (overflowUnits p : ℝ) ≤ 2 * e := by
  obtain ⟨k, hk, hodd, hmid⟩ := exists_infMag_eq_succ p
  rw [hk, hmid]
  refine ⟨fun hle => h.midUnits_le hle, fun hle => ?_⟩
  by_contra hlt
  obtain rfl : m = k := by
    have : (midUnits p k : ℝ) ≤ midUnits p m := hle.trans (h.le_midUnits le_rfl)
    have := (midUnits_strictMono p).le_iff_le.1 (Nat.cast_le.1 this)
    omega
  exact h.2.elim (fun hlt => hlt.not_ge hle) fun heq => by omega

theorem RoundsTo.lt_infMag_iff (h : RoundsTo p e m) : m < infMag p ↔ 2 * e < overflowUnits p := by
  rw [← not_le, h.infMag_le_iff, not_le]

/-- A magnitude rounds to itself. -/
theorem RoundsTo.eq_of_exact (h : RoundsTo p e m) {m' : Nat} (he : e = unitsOf p m') : m = m' := by
  have hle := (h.nearest m').1
  rw [he, sub_self, abs_zero, abs_nonpos_iff, sub_eq_zero] at hle
  exact (unitsOf_strictMono p).injective (by exact_mod_cast hle)

theorem roundsTo_zero (p : Prec) : RoundsTo p 0 0 := by
  refine ⟨fun k hk => absurd hk (Nat.succ_ne_zero k), .inl ?_⟩
  have := two_mul_unitsOf_lt_midUnits p 0
  simpa using this

/-- Rounding by the significand `t` of the binade below the exact number and the comparison with the midpoint. -/
theorem roundsTo_binade {sh t : Nat} {up : Bool} (hnorm : sh = 0 ∨ 2 ^ fracBits p ≤ t) (ht : t < 2 ^ (fracBits p + 1))
    (hlo : (t * 2 ^ sh : ℝ) ≤ e) (hhi : e < (t + 1) * 2 ^ sh)
    (hup : up = true ↔ ((2 * t + 1) * 2 ^ sh : ℝ) < 2 * e ∨ ((2 * t + 1) * 2 ^ sh : ℝ) = 2 * e ∧ t % 2 = 1) :
    RoundsTo p e (sh <<< fracBits p + t + if up then 1 else 0) := by
  have hlow : (unitsOf p (sh <<< fracBits p + t) : ℝ) = t * 2 ^ sh := by rw [unitsOf_binade hnorm ht.le]; norm_cast
  have hhigh : (unitsOf p (sh <<< fracBits p + t + 1) : ℝ) = (t + 1) * 2 ^ sh := by
    rw [Nat.add_assoc, unitsOf_binade (hnorm.imp_right (by omega)) ht]; norm_cast
  have hpar : (sh <<< fracBits p + t) % 2 = t % 2 := by
    rw [Nat.shiftLeft_eq, ← Nat.sub_add_cancel (fracBits_pos p), pow_succ, ← Nat.mul_assoc]
    omega
  generalize sh <<< fracBits p + t = m at *
  have hmid : (midUnits p m : ℝ) = (2 * t + 1) * 2 ^ sh := by
    rw [midUnits, Nat.cast_add, hlow, hhigh]
    ring
  rw [← hmid, ← hpar] at hup
  cases up with
  | true =>
    refine ⟨fun k hk => ?_, .inl ?_⟩
    · obtain rfl : k = m := by simpa using hk
      exact (hup.1 rfl).imp_right fun heq => ⟨heq.1, by simp; omega⟩
    · have : (2 * unitsOf p (m + 1) : ℝ) < midUnits p (m + 1) := by exact_mod_cast two_mul_unitsOf_lt_midUnits p (m + 1)
      rw [if_pos rfl]
      linarith
  | false =>
    have hle := not_or.1 fun h => Bool.false_ne_true (hup.2 h)
    refine ⟨fun k hk => .inl ?_, ?_⟩
    · obtain rfl : m = k + 1 := by simpa using hk.symm
      have : (midUnits p k : ℝ) < 2 * unitsOf p (k + 1) := by exact_mod_cast midUnits_lt_two_mul_unitsOf p k
      linarith
    · rcases (not_lt.1 hle.1).lt_or_eq with hlt | heq
      · exact .inl hlt
      · exact .inr ⟨heq, by simpa using fun hodd => hle.2 ⟨heq.symm, hodd⟩⟩

end RoundsTo

/-! The model's two roundings. -/

/-- The binade of a positive number by its binary logarithm: its leading bits make a normalised significand. -/
theorem shiftRight_log2_sub {F g : Nat} :
    (Nat.log2 g - F = 0 ∨ 2 ^ F ≤ g / 2 ^ (Nat.log2 g - F)) ∧ g / 2 ^ (Nat.log2 g - F) < 2 ^ (F + 1) := by
  constructor
  · rcases Nat.eq_zero_or_pos (Nat.log2 g - F) with h | h
    · exact .inl h
    · have hg : g ≠ 0 := by rintro rfl; simp at h
      refine .inr ((Nat.le_div_iff_mul_le (Nat.two_pow_pos _)).2 ?_)
      rw [← pow_add, Nat.add_sub_of_le (by omega)]
      exact Nat.log2_self_le hg
  · rw [Nat.div_lt_iff_lt_mul (Nat.two_pow_pos _), ← pow_add]
    exact Nat.lt_log2_self.trans_le (Nat.pow_le_pow_right (by decide) (by omega))

/-- The significand `num / (den · 2^sh)` lies below the quotient by less than one place, and `roundsUp` compares the
quotient with the midpoint of the two. -/
theorem div_shiftLeft_binade (num sh : Nat) {den : Nat} (hden : 0 < den) :
    ((num / den <<< sh : Nat) * 2 ^ sh : ℝ) ≤ num / den ∧
      (num / den : ℝ) < ((num / den <<< sh : Nat) + 1) * 2 ^ sh ∧
      (roundsUp (num / den <<< sh) (num % den <<< sh) (den <<< sh) = true ↔
        ((2 * (num / den <<< sh : Nat) + 1) * 2 ^ sh : ℝ) < 2 * (num / den) ∨
        ((2 * (num / den <<< sh : Nat) + 1) * 2 ^ sh : ℝ) = 2 * (num / den) ∧ num / den <<< sh % 2 = 1) := by
  have hden' : (0 : ℝ) < den := Nat.cast_pos.2 hden
  have hd : 0 < den <<< sh := Nat.shiftLeft_eq den sh ▸ Nat.mul_pos hden (Nat.two_pow_pos sh)
  have hdm := Nat.div_add_mod num (den <<< sh)
  have hmod := Nat.mod_lt num hd
  have hmul : ∀ a : Nat, a * 2 ^ sh * den = den <<< sh * a := fun a => by rw [Nat.shiftLeft_eq]; ring
  generalize num / den <<< sh = t at *
  generalize num % den <<< sh = r at *
  rw [← mul_div_assoc, le_div_iff₀ hden', div_lt_iff₀ hden', lt_div_iff₀ hden', eq_div_iff hden'.ne', roundsUp]
  norm_cast
  simp only [hmul, Nat.mul_succ, Nat.mul_left_comm _ 2, Bool.or_eq_true, Bool.and_eq_true, decide_eq_true_eq]
  omega

/-- `roundQuot` rounds the quotient and holds the result to infinity (R101, R104). -/
theorem exists_roundsTo_roundQuot (p : Prec) (num : Nat) {den : Nat} (hden : 0 < den) :
    ∃ m, RoundsTo p (num / den) m ∧ roundQuot p num den = min m (infMag p) := by
  obtain ⟨hnorm, ht⟩ := shiftRight_log2_sub (F := fracBits p) (g := num / den)
  rw [Nat.div_div_eq_div_mul, ← Nat.shiftLeft_eq] at hnorm ht
  obtain ⟨hlo, hhi, hup⟩ := div_shiftLeft_binade num (Nat.log2 (num / den) - fracBits p) hden
  exact ⟨_, roundsTo_binade hnorm ht hlo hhi hup, rfl⟩

/-! The square root. -/

/-- Each turn halves the interval the root lies in. -/
theorem isqrtAux_spec {n : Nat} : ∀ {bits root : Nat}, root ^ 2 ≤ n → n < (root + 2 ^ bits) ^ 2 →
    isqrtAux n bits root ^ 2 ≤ n ∧ n < (isqrtAux n bits root + 1) ^ 2
  | 0, root, hlo, hhi => ⟨hlo, by simpa [isqrtAux] using hhi⟩
  | bits + 1, root, hlo, hhi => by
    rw [isqrtAux]
    split
    · next h =>
      exact isqrtAux_spec (by rwa [pow_two]) (by rwa [Nat.add_assoc, ← Nat.two_mul, ← pow_succ'])
    · next h =>
      exact isqrtAux_spec hlo (by rw [pow_two]; omega)

theorem isqrt_spec (n : Nat) : isqrt n ^ 2 ≤ n ∧ n < (isqrt n + 1) ^ 2 := by
  refine isqrtAux_spec (by simp) ?_
  rw [Nat.zero_add, ← pow_mul]
  exact Nat.lt_log2_self.trans_le (Nat.pow_le_pow_right (by decide) (by omega))

/-- The significand of the integer root lies below the exact root by less than one place. -/
theorem isqrt_shiftRight_binade (n sh : Nat) :
    ((isqrt n >>> sh : Nat) * 2 ^ sh : ℝ) ≤ √n ∧ √n < ((isqrt n >>> sh : Nat) + 1) * 2 ^ sh := by
  obtain ⟨hlo, hhi⟩ := isqrt_spec n
  have hdm := Nat.div_add_mod (isqrt n) (2 ^ sh)
  have hmod := Nat.mod_lt (isqrt n) (Nat.two_pow_pos sh)
  rw [← Nat.shiftRight_eq_div_pow] at hdm
  constructor
  · refine Real.le_sqrt_of_sq_le ?_
    norm_cast
    exact le_trans (Nat.pow_le_pow_left (by rw [Nat.mul_comm]; omega) 2) hlo
  · rw [Real.sqrt_lt' (by positivity)]
    norm_cast
    exact hhi.trans_le (Nat.pow_le_pow_left (by rw [Nat.mul_comm, Nat.mul_succ]; omega) 2)

/-- An integer compares with twice a root as its square with four times the radicand. -/
theorem compare_two_mul_sqrt (a n : Nat) :
    ((a : ℝ) < 2 * √n ↔ a * a < 4 * n) ∧ ((a : ℝ) = 2 * √n ↔ a * a = 4 * n) := by
  have htwo : 2 * √(n : ℝ) = √(4 * n) := by
    rw [Real.sqrt_mul (by norm_num), show (4 : ℝ) = 2 ^ 2 by norm_num, Real.sqrt_sq (by norm_num)]
  rw [htwo, Real.lt_sqrt (by positivity), eq_comm (a := (a : ℝ)),
    Real.sqrt_eq_iff_mul_self_eq (by positivity) (by positivity), pow_two]
  norm_cast
  exact ⟨Iff.rfl, eq_comm⟩

/-- `roundRoot` rounds the square root and holds the result to infinity (R101, R102). -/
theorem exists_roundsTo_roundRoot (p : Prec) (n : Nat) :
    ∃ m, RoundsTo p √n m ∧ roundRoot p n = min m (infMag p) := by
  obtain ⟨hnorm, ht⟩ := shiftRight_log2_sub (F := fracBits p) (g := isqrt n)
  rw [← Nat.shiftRight_eq_div_pow] at hnorm ht
  obtain ⟨hlo, hhi⟩ := isqrt_shiftRight_binade n (Nat.log2 (isqrt n) - fracBits p)
  refine ⟨_, roundsTo_binade hnorm ht hlo hhi ?_, rfl⟩
  obtain ⟨hlt, heq⟩ := compare_two_mul_sqrt ((2 * isqrt n >>> (Nat.log2 (isqrt n) - fracBits p) + 1) <<<
    (Nat.log2 (isqrt n) - fracBits p)) n
  rw [Bool.or_eq_true, Bool.and_eq_true, decide_eq_true_eq, decide_eq_true_eq, decide_eq_true_eq, ← hlt, ← heq,
    Nat.shiftLeft_eq]
  push_cast
  rfl

end Sys2Proof.Machine

/-! SUPPORT. The operations of `T` on finite values (R101, R102, R104): each packs the sign and the rounded magnitude of its
exact result. -/

namespace Sys2Proof.Machine

/-! `roundQuot`. -/

/-- The quotient reaches infinity from the overflow midpoint on. -/
theorem roundQuot_eq_infMag_iff {p : Prec} {num den : Nat} (hden : 0 < den) :
    roundQuot p num den = infMag p ↔ overflowUnits p * den ≤ 2 * num := by
  obtain ⟨m, h, hm⟩ := exists_roundsTo_roundQuot p num hden
  rw [hm, min_eq_right_iff, h.infMag_le_iff, ← mul_div_assoc, le_div_iff₀ (Nat.cast_pos.2 hden)]
  norm_cast

/-- Settles O30: `roundQuot` is the rounding with no largest value, held to infinity; distances are compared as reals. -/
theorem roundingIsNearestEven : Obligations.RoundingIsNearestEven := by
  intro p num den hden
  refine ⟨roundQuot_eq_infMag_iff hden, fun hlt m' _ => ?_⟩
  obtain ⟨m, h, hm⟩ := exists_roundsTo_roundQuot p num hden
  have hden' : (0 : ℝ) < den := Nat.cast_pos.2 hden
  have hdist : ∀ k : Nat, (((num : Int) - unitsOf p k * den).natAbs : ℝ) = den * |(unitsOf p k : ℝ) - num / den| := by
    intro k
    rw [Nat.cast_natAbs, ← abs_of_pos hden', ← abs_mul, abs_of_pos hden', abs_sub_comm]
    push_cast
    rw [mul_sub, mul_div_cancel₀ _ hden'.ne', mul_comm]
  rw [hm, min_eq_left (by omega)]
  obtain ⟨hle, htie⟩ := h.nearest m'
  refine ⟨?_, fun hne heq => htie hne ?_⟩
  · rw [← Nat.cast_le (α := ℝ), hdist, hdist]
    exact mul_le_mul_of_nonneg_left hle hden'.le
  · rw [← Nat.cast_inj (R := ℝ), hdist, hdist] at heq
    exact mul_left_cancel₀ hden'.ne' heq

/-! Signs. -/

/-- The factor of a sign. -/
def signFactor (s : Bool) : ℝ := if s then -1 else 1

@[simp] theorem signFactor_false : signFactor false = 1 := rfl

@[simp] theorem signFactor_true : signFactor true = -1 := rfl

theorem cast_signed (s : Bool) (x : Nat) : ((signed s x : Int) : ℝ) = signFactor s * x := by
  cases s <;> simp [signed, signFactor]

theorem signFactor_mul (s t : Bool) : signFactor s * signFactor t = signFactor (s ^^ t) := by
  cases s <;> cases t <;> simp

theorem inv_signFactor (s : Bool) : (signFactor s)⁻¹ = signFactor s := by cases s <;> norm_num [signFactor]

theorem signed_not (s : Bool) (x : Nat) : signed (!s) x = -signed s x := by cases s <;> simp [signed]

theorem abs_signFactor_mul (s : Bool) (x : ℝ) : |signFactor s * x| = |x| := by cases s <;> simp

theorem signFactor_mul_neg_iff {s : Bool} {x : ℝ} (hx : 0 < x) : signFactor s * x < 0 ↔ s = true := by
  cases s <;> simp [hx, hx.le]

theorem signed_decide_natAbs (z : Int) : signed (decide (z < 0)) z.natAbs = z := by
  simp only [signed, decide_eq_true_eq]
  split_ifs <;> omega

/-- Bringing a sign from one side of a distance to the other. -/
theorem abs_signFactor_sub (s t : Bool) (x y : ℝ) :
    |signFactor t * x - signFactor s * y| = |signFactor (s ^^ t) * x - y| := by
  rw [← abs_signFactor_mul s, mul_sub, ← mul_assoc, ← mul_assoc, signFactor_mul, signFactor_mul]
  simp

/-! A sign and a rounded magnitude. -/

theorem overflowUnits_pos (p : Prec) : 0 < overflowUnits p := by
  obtain ⟨k, -, -, hk⟩ := exists_infMag_eq_succ p
  have := two_mul_unitsOf_lt_midUnits p k
  omega

/-- No value of either sign is nearer to the exact number than the rounded magnitude, and one as near leaves it even. -/
theorem RoundsTo.nearest_signed {p : Prec} {e : ℝ} {m : Nat} (h : RoundsTo p e m) (he : 0 ≤ e) (s : Bool) (m' : Nat) :
    |(unitsOf p m : ℝ) - e| ≤ |signFactor s * unitsOf p m' - e| ∧
      (signFactor s * unitsOf p m' ≠ unitsOf p m →
        |(unitsOf p m : ℝ) - e| = |signFactor s * unitsOf p m' - e| → m % 2 = 0) := by
  cases s with
  | false =>
    rw [signFactor_false, one_mul]
    exact (h.nearest m').imp_right fun htie hne => htie fun heq => hne (by rw [heq])
  | true =>
    obtain ⟨hzero, htie⟩ := h.nearest 0
    have hm' : (0 : ℝ) ≤ unitsOf p m' := Nat.cast_nonneg _
    rw [unitsOf_zero, Nat.cast_zero, zero_sub, abs_neg, abs_of_nonneg he] at hzero htie
    have hfar : |signFactor true * (unitsOf p m' : ℝ) - e| = unitsOf p m' + e := by
      rw [signFactor_true, neg_one_mul, ← neg_add', abs_neg, abs_of_nonneg (by linarith)]
    rw [hfar]
    refine ⟨by linarith, fun hne heq => htie (fun hm => hne ?_) (by linarith)⟩
    have hzero' : (unitsOf p m' : ℝ) = 0 := by linarith
    simp [hzero', ← hm]

/-- A value packed from the sign of the exact result and its rounded magnitude is the exact result rounded (R101). -/
theorem RoundsTo.isRounded {p : Prec} {e : ℝ} {m : Nat} (h : RoundsTo p e m) (he : 0 ≤ e) (s : Bool) :
    IsRounded p (packMag p s (min m (infMag p))) (signFactor s * e) := by
  rw [IsRounded, abs_signFactor_mul, abs_of_nonneg he, ← h.infMag_le_iff, ← h.lt_infMag_iff]
  constructor
  · intro hinf
    have hpos : 0 < e := by
      have hover := h.infMag_le_iff.1 hinf
      have : (0 : ℝ) < overflowUnits p := Nat.cast_pos.2 (overflowUnits_pos p)
      linarith
    rw [min_eq_right hinf]
    exact ⟨s, unpack_packMag_infMag s, (signFactor_mul_neg_iff hpos).symm⟩
  · intro hfin
    rw [min_eq_left hfin.le, magOf_packMag (hfin.trans (infMag_lt_two_pow p))]
    refine ⟨s, unpack_packMag_of_lt hfin s, fun t m' _ => ?_⟩
    obtain ⟨hle, htie⟩ := h.nearest_signed he (s ^^ t) m'
    simp only [cast_signed, abs_signFactor_sub, Bool.xor_self, signFactor_false, one_mul]
    refine ⟨hle, fun hne heq => htie (fun hsame => hne ?_) heq⟩
    rw [← hsame, ← mul_assoc, signFactor_mul, ← Bool.xor_assoc, Bool.xor_self, Bool.false_xor]

theorem isRounded_roundQuot (p : Prec) (s : Bool) (num : Nat) {den : Nat} (hden : 0 < den) :
    IsRounded p (packMag p s (roundQuot p num den)) (signFactor s * (num / den)) := by
  obtain ⟨m, h, hm⟩ := exists_roundsTo_roundQuot p num hden
  rw [hm]
  exact h.isRounded (by positivity) s

/-- A sum is rounded once; an exact zero is a zero of either sign (R102). -/
theorem isRounded_roundSum (p : Prec) (zeroNeg : Bool) (z : Int) : IsRounded p (roundSum p zeroNeg z) z := by
  rw [roundSum]
  split
  · next hz =>
    have hzero := (roundsTo_zero p).isRounded le_rfl zeroNeg
    rwa [Nat.zero_min, mul_zero, ← Int.cast_zero, ← hz] at hzero
  · have hround := isRounded_roundQuot p (decide (z < 0)) z.natAbs Nat.one_pos
    rwa [Nat.cast_one, div_one, ← cast_signed, signed_decide_natAbs] at hround

/-! The operations. -/

section Operations

variable {p : Prec} {a b : FBits} {s t : Bool} {x y : Nat} (ha : unpack p a = .fin s x) (hb : unpack p b = .fin t y)
include ha hb

theorem fadd_of_fin : fadd p a b = pure (roundSum p (s && t) (signed s x + signed t y)) := by simp only [fadd, ha, hb]

theorem fsub_of_fin : fsub p a b = pure (roundSum p (s && !t) (signed s x - signed t y)) := by
  have hneg : unpack p (fneg p b) = .fin (!t) y := by rw [unpack_fneg, hb, FVal.neg]
  rw [fsub, fadd_of_fin ha hneg, signed_not, Int.sub_eq_add_neg]

theorem fmul_of_fin : fmul p a b = pure (packMag p (s ^^ t) (roundQuot p (x * y) (2 ^ unitLog p))) := by
  simp only [fmul, ha, hb]

theorem fdiv_of_fin (hy : y ≠ 0) : fdiv p a b = pure (packMag p (s ^^ t) (roundQuot p (x * 2 ^ unitLog p) y)) := by
  simp only [fdiv, ha, hb, if_neg hy, Nat.shiftLeft_eq]

end Operations

/-- Settles O31: each operation packs the sign and the rounded magnitude of its exact result. -/
theorem arithmeticCorrectlyRounded : Obligations.ArithmeticCorrectlyRounded := by
  intro p a b d x y s t ha hb
  refine ⟨?_, ?_, ?_, fun hy => ?_⟩
  · rw [fadd_of_fin ha hb, runDraw_pure, ← Int.cast_add]
    exact isRounded_roundSum p _ _
  · rw [fsub_of_fin ha hb, runDraw_pure, ← Int.cast_sub]
    exact isRounded_roundSum p _ _
  · have hprod := isRounded_roundQuot p (s ^^ t) (x * y) (Nat.two_pow_pos (unitLog p))
    rw [← signFactor_mul] at hprod
    rw [fmul_of_fin ha hb, runDraw_pure, cast_signed, cast_signed]
    convert hprod using 1
    push_cast
    ring
  · have hquot := isRounded_roundQuot p (s ^^ t) (x * 2 ^ unitLog p) (Nat.pos_of_ne_zero hy)
    rw [← signFactor_mul] at hquot
    rw [fdiv_of_fin ha hb hy, runDraw_pure, cast_signed, cast_signed, div_eq_mul_inv, mul_inv, inv_signFactor]
    convert hquot using 1
    push_cast
    ring

/-! The square root. -/

theorem unitsOf_infMag (p : Prec) : unitsOf p (infMag p) = 2 ^ (fracBits p + expMax p - 1) := by
  have hE : 1 ≤ expMax p := by cases p <;> decide
  have hsplit : infMag p = (expMax p - 1) <<< fracBits p + 2 ^ fracBits p := by
    rw [infMag, Nat.shiftLeft_eq, Nat.shiftLeft_eq, ← Nat.succ_mul, Nat.succ_eq_add_one, Nat.sub_add_cancel hE]
  rw [hsplit, unitsOf_binade (.inr le_rfl) (Nat.pow_le_pow_right (by decide) (by omega)), ← pow_add,
    ← Nat.add_sub_assoc hE]

theorem unitsOf_infMag_le_overflowUnits (p : Prec) : unitsOf p (infMag p) ≤ overflowUnits p := by
  obtain ⟨k, hk, -, hover⟩ := exists_infMag_eq_succ p
  rw [hover, hk, midUnits]
  exact Nat.le_add_left _ _

/-- Far below overflow: the root of a finite value is finite. -/
theorem two_mul_sqrt_lt_overflowUnits {p : Prec} {x : Nat} (hx : x < unitsOf p (infMag p)) :
    2 * √(x * 2 ^ unitLog p : ℝ) < overflowUnits p := by
  have hexp : unitLog p + 2 ≤ fracBits p + expMax p - 1 := by cases p <;> decide
  have hover : (unitsOf p (infMag p) : ℝ) ≤ overflowUnits p := Nat.cast_le.2 (unitsOf_infMag_le_overflowUnits p)
  have hpos : 0 < unitsOf p (infMag p) := by omega
  have hlt : x * 2 ^ unitLog p * 4 < unitsOf p (infMag p) ^ 2 := by
    calc x * 2 ^ unitLog p * 4 = x * 2 ^ (unitLog p + 2) := by ring
      _ ≤ x * unitsOf p (infMag p) := by
        rw [unitsOf_infMag]; exact Nat.mul_le_mul_left x (Nat.pow_le_pow_right (by decide) hexp)
      _ < unitsOf p (infMag p) ^ 2 := by rw [pow_two]; exact Nat.mul_lt_mul_of_pos_right hx hpos
  refine lt_of_lt_of_le ?_ hover
  rw [← lt_div_iff₀' two_pos, Real.sqrt_lt' (by positivity), div_pow, lt_div_iff₀ (by norm_num)]
  norm_num
  exact_mod_cast hlt

theorem fsqrt_of_pos {p : Prec} {a : FBits} {x : Nat} (ha : unpack p a = .fin false x) (hx : 0 < x) :
    fsqrt p a = pure (packMag p false (roundRoot p (x * 2 ^ unitLog p))) := by
  simp [fsqrt, ha, hx.ne', Nat.shiftLeft_eq]

theorem fsqrt_of_zero {p : Prec} {a : FBits} {s : Bool} (ha : unpack p a = .fin s 0) :
    fsqrt p a = pure (packMag p s 0) := by
  simp [fsqrt, ha]

theorem fsqrt_of_neg {p : Prec} {a : FBits} {x : Nat} (ha : unpack p a = .fin true x) (hx : 0 < x) :
    fsqrt p a = drawNaN p := by
  simp [fsqrt, ha, hx.ne']

/-! NaNs. -/

/-- Setting bits of a magnitude does not lower it below them. -/
theorem le_magOf_or (p : Prec) (a : FBits) {c : FBits} (hc : c.toNat < 2 ^ signPos p) : c.toNat ≤ magOf p (a ||| c) := by
  rw [magOf, BitVec.toNat_or, Nat.or_mod_two_pow, Nat.mod_eq_of_lt hc]
  exact Nat.right_le_or

theorem quiet_of_or {p : Prec} (a : FBits) {c : FBits} (hinf : infMag p < c.toNat) (hc : c.toNat < 2 ^ signPos p)
    (hbit : c.getLsbD (fracBits p - 1) = true) :
    isNaN p (a ||| c) = true ∧ (a ||| c).getLsbD (fracBits p - 1) = true := by
  rw [isNaN_iff, BitVec.getLsbD_or, hbit, Bool.or_true]
  exact ⟨hinf.trans_le (le_magOf_or p a hc), rfl⟩

/-- A drawn NaN is a NaN, and quiet (R106). -/
theorem quietNaN_quiet (p : Prec) (raw : BitVec 64) :
    isNaN p (quietNaN p raw) = true ∧ (quietNaN p raw).getLsbD (fracBits p - 1) = true := by
  cases p with
  | binary32 => exact quiet_of_or _ (by decide) (by decide) (by decide)
  | binary64 => exact quiet_of_or _ (by decide) (by decide) (by decide)

@[simp] theorem runDraw_drawNaN (p : Prec) (d : Nat) : runDraw (drawNaN p) d = (quietNaN p (Config.nanDraw d), d + 1) := rfl

/-- Settles O32: the root rounds among all magnitudes and stays far below overflow. -/
theorem squareRootCorrectlyRounded : Obligations.SquareRootCorrectlyRounded := by
  rintro p a c d x z s u ha hc
  refine ⟨?_, ?_, ?_⟩
  · rintro hx rfl
    obtain ⟨ham, -, rfl⟩ := exists_of_unpack_fin ha
    obtain ⟨hcm, -, rfl⟩ := exists_of_unpack_fin hc
    obtain ⟨m, h, hm⟩ := exists_roundsTo_roundRoot p (unitsOf p (magOf p a) * 2 ^ unitLog p)
    push_cast at h
    have hfin := h.lt_infMag_iff.2 (two_mul_sqrt_lt_overflowUnits (unitsOf_strictMono p ham))
    rw [fsqrt_of_pos ha hx, runDraw_pure, hm, min_eq_left hfin.le]
    refine ⟨_, unpack_packMag_of_lt hfin false, ?_⟩
    rw [cast_signed]
    exact (h.nearest_signed (Real.sqrt_nonneg _) u _).1
  · rintro rfl
    rw [fsqrt_of_zero ha, runDraw_pure, unpack_packMag_of_lt (infMag_pos p), unitsOf_zero]
  · rintro hx rfl
    rw [fsqrt_of_neg ha hx, runDraw_drawNaN]
    exact (quietNaN_quiet p _).1

/-! Integers. -/

/-- Settles O35: a scaled integer within the fraction's bits is a magnitude, and a magnitude rounds to itself. -/
theorem integerConversionExact : Obligations.IntegerConversionExact := by
  intro p n hn
  obtain ⟨m', hm'⟩ := exists_unitsOf_eq p (unitLog p) n.natAbs hn
  obtain ⟨m, h, hm⟩ := exists_roundsTo_roundQuot p (n.natAbs * 2 ^ unitLog p) Nat.one_pos
  obtain rfl : m = m' := h.eq_of_exact (by rw [hm', Nat.cast_one, div_one])
  have hfin : m < infMag p := by
    refine (unitsOf_strictMono p).lt_iff_lt.1 ?_
    rw [hm', unitsOf_infMag]
    calc n.natAbs * 2 ^ unitLog p ≤ 2 ^ (fracBits p + 1) * 2 ^ unitLog p := Nat.mul_le_mul_right _ hn
      _ = 2 ^ (fracBits p + 1 + unitLog p) := (pow_add ..).symm
      _ < 2 ^ (fracBits p + expMax p - 1) := Nat.pow_lt_pow_right (by decide) (by cases p <;> decide)
  rw [toT, Nat.shiftLeft_eq, hm, min_eq_left hfin.le, unpack_packMag_of_lt hfin, hm']

end Sys2Proof.Machine

/-! SUPPORT. NaNs and infinities through the operations of `T` (R102, R105, R106), the hypotenuse (R122), and the cascade of
`pwr2` (R116). -/

namespace Sys2Proof.Machine

/-! Operations on special values. -/

section Special

variable {p : Prec} {a b : FBits}

theorem fadd_of_nan (h : unpack p a = .nan ∨ unpack p b = .nan) : fadd p a b = drawNaN p := by
  rcases h with h | h
  · simp only [fadd, h]
  · cases ha : unpack p a <;> simp only [fadd, ha, h]

theorem fsub_of_nan (h : unpack p a = .nan ∨ unpack p b = .nan) : fsub p a b = drawNaN p := by
  refine fadd_of_nan (h.imp_right fun h => ?_)
  rw [unpack_fneg, h, FVal.neg]

theorem fmul_of_nan (h : unpack p a = .nan ∨ unpack p b = .nan) : fmul p a b = drawNaN p := by
  rcases h with h | h
  · simp only [fmul, h]
  · cases ha : unpack p a <;> simp only [fmul, ha, h]

theorem fdiv_of_nan (h : unpack p a = .nan ∨ unpack p b = .nan) : fdiv p a b = drawNaN p := by
  rcases h with h | h
  · simp only [fdiv, h]
  · cases ha : unpack p a <;> simp only [fdiv, ha, h]

theorem fsqrt_of_nan (h : unpack p a = .nan) : fsqrt p a = drawNaN p := by rw [fsqrt, h]

theorem fsqrt_of_neg_inf (h : unpack p a = .inf true) : fsqrt p a = drawNaN p := by simp [fsqrt, h]

theorem fadd_of_opposite_inf {s : Bool} (ha : unpack p a = .inf s) (hb : unpack p b = .inf (!s)) :
    fadd p a b = drawNaN p := by
  simp [fadd, ha, hb]

theorem fsub_of_same_inf {s : Bool} (ha : unpack p a = .inf s) (hb : unpack p b = .inf s) : fsub p a b = drawNaN p :=
  fadd_of_opposite_inf ha (by rw [unpack_fneg, hb, FVal.neg])

theorem fdiv_of_inf {s t : Bool} (ha : unpack p a = .inf s) (hb : unpack p b = .inf t) : fdiv p a b = drawNaN p := by
  simp only [fdiv, ha, hb]

theorem fdiv_zero_zero {s t : Bool} (ha : unpack p a = .fin s 0) (hb : unpack p b = .fin t 0) : fdiv p a b = drawNaN p := by
  simp [fdiv, ha, hb]

theorem fdiv_of_zero {s t : Bool} {x : Nat} (ha : unpack p a = .fin s x) (hx : 0 < x) (hb : unpack p b = .fin t 0) :
    fdiv p a b = pure (packMag p (s ^^ t) (infMag p)) := by
  simp [fdiv, ha, hb, hx.ne']

theorem fmul_inf_zero {s t : Bool} (ha : unpack p a = .inf s) (hb : unpack p b = .fin t 0) : fmul p a b = drawNaN p := by
  simp [fmul, ha, hb]

theorem fmul_zero_inf {s t : Bool} (ha : unpack p a = .fin s 0) (hb : unpack p b = .inf t) : fmul p a b = drawNaN p := by
  simp [fmul, ha, hb]

end Special

/-! Overflow. -/

theorem signed_add_signed (s : Bool) (x y : Nat) : signed s x + signed s y = signed s (x + y) := by
  cases s <;> simp [signed]; ring

/-- A sum that is not zero has the sign of the exact sum (R102). -/
theorem roundSum_signed {p : Prec} {zeroNeg s : Bool} {x : Nat} (hx : 0 < x) :
    roundSum p zeroNeg (signed s x) = packMag p s (roundQuot p x 1) := by
  have hz : signed s x ≠ 0 := by cases s <;> simp [signed, hx.ne']
  have hneg : decide (signed s x < 0) = s := by cases s <;> simp [signed, hx]
  have habs : (signed s x).natAbs = x := by cases s <;> simp [signed]
  rw [roundSum, if_neg hz, hneg, habs]

/-- A sum of operands of one sign from the overflow midpoint on is an infinity of that sign. -/
theorem unpack_roundSum_of_overflow {p : Prec} {zeroNeg s : Bool} {x : Nat} (h : overflowUnits p ≤ 2 * x) :
    unpack p (roundSum p zeroNeg (signed s x)) = .inf s := by
  have hpos := overflowUnits_pos p
  rw [roundSum_signed (by omega), (roundQuot_eq_infMag_iff Nat.one_pos).2 (by omega), unpack_packMag_infMag]

/-- Settles O33: each clause is one branch of the operation it speaks of. -/
theorem specialValues : Obligations.SpecialValues := by
  intro p a b d s t x y
  have hquiet : ∀ f : Draw FBits, f = drawNaN p →
      isNaN p (runDraw f d).1 = true ∧ (runDraw f d).1.getLsbD (fracBits p - 1) = true := by
    rintro f rfl
    exact quietNaN_quiet p _
  refine ⟨fun h => ⟨hquiet _ (fadd_of_nan h), hquiet _ (fsub_of_nan h), hquiet _ (fmul_of_nan h),
    hquiet _ (fdiv_of_nan h)⟩, ?_, fun ha hb => hquiet _ (fsub_of_same_inf ha hb),
    fun ha hb => hquiet _ (fadd_of_opposite_inf ha hb), fun ha hb => hquiet _ (fdiv_of_inf ha hb),
    fun ha hb => hquiet _ (fmul_inf_zero ha hb), fun ha hb => hquiet _ (fmul_zero_inf ha hb),
    fun ha hb => hquiet _ (fdiv_zero_zero ha hb), ?_, ?_, ?_, ?_, ?_, ?_, ?_⟩
  · rintro (ha | ha | ⟨ha, hx⟩)
    · exact hquiet _ (fsqrt_of_nan ha)
    · exact hquiet _ (fsqrt_of_neg_inf ha)
    · exact hquiet _ (fsqrt_of_neg ha hx)
  · intro ha hx hb
    rw [fdiv_of_zero ha hx hb, runDraw_pure, unpack_packMag_infMag]
  · intro ha hb
    rw [fadd_of_fin ha hb, runDraw_pure, signed_not, add_neg_cancel, roundSum, if_pos rfl, Bool.and_not_self,
      unpack_packMag_of_lt (infMag_pos p), unitsOf_zero]
  · intro ha hb
    rw [fadd_of_fin ha hb, runDraw_pure, roundSum, if_pos (by simp [signed]), Bool.and_self,
      unpack_packMag_of_lt (infMag_pos p), unitsOf_zero]
  · intro ha hb hover
    rw [fadd_of_fin ha hb, runDraw_pure, signed_add_signed, unpack_roundSum_of_overflow hover]
  · intro ha hb hover
    rw [fsub_of_fin ha hb, runDraw_pure, signed_not, sub_neg_eq_add, signed_add_signed, unpack_roundSum_of_overflow hover]
  · intro ha hb hover
    rw [fmul_of_fin ha hb, runDraw_pure, (roundQuot_eq_infMag_iff (Nat.two_pow_pos _)).2 hover, unpack_packMag_infMag]
  · intro ha hb hy hover
    rw [fdiv_of_fin ha hb hy.ne', runDraw_pure, (roundQuot_eq_infMag_iff hy).2 hover, unpack_packMag_infMag]

/-! The hypotenuse. -/

theorem magOf_fabs (p : Prec) (a : FBits) : magOf p (fabs p a) = magOf p a := by
  rw [fabs_eq_packMag, magOf_packMag (magOf_lt p a)]

section Hypot

variable {p : Prec} {x y : FBits}

/-- On magnitudes that are no NaN the numeric order is the order of the magnitude bits (R105). -/
theorem magLe_fabs_iff (hx : magOf p x ≤ infMag p) (hy : magOf p y ≤ infMag p) :
    magLe p (fabs p x) (fabs p y) = true ↔ magOf p x ≤ magOf p y := by
  rw [magLe]
  rcases hy.lt_or_eq with hylt | hyinf
  · rw [unpack_of_magOf_lt (v := fabs p y) (by rwa [magOf_fabs]), magOf_fabs]
    rcases hx.lt_or_eq with hxlt | hxinf
    · rw [unpack_of_magOf_lt (v := fabs p x) (by rwa [magOf_fabs]), magOf_fabs]
      simp [(unitsOf_strictMono p).le_iff_le]
    · rw [unpack_of_magOf_eq (v := fabs p x) (by rwa [magOf_fabs])]
      simp [hxinf, hylt]
  · rw [unpack_of_magOf_eq (v := fabs p y) (by rwa [magOf_fabs])]
    simpa [hyinf] using hx

theorem isNaN_eq_false_iff : isNaN p x = false ↔ magOf p x ≤ infMag p := by simp [isNaN]

theorem fmax_fmin_of_le (hx : magOf p x ≤ infMag p) (hy : magOf p y ≤ infMag p) (h : magOf p x ≤ magOf p y) :
    fmax p (fabs p x) (fabs p y) = fabs p y ∧ fmin p (fabs p x) (fabs p y) = fabs p x := by
  rw [fmax, fmin, if_pos ((magLe_fabs_iff hx hy).2 h), if_pos ((magLe_fabs_iff hx hy).2 h)]
  exact ⟨rfl, rfl⟩

theorem fmax_fmin_of_ge (hx : magOf p x ≤ infMag p) (h : magOf p y ≤ magOf p x) :
    fmax p (fabs p x) (fabs p y) = fabs p x ∧ fmin p (fabs p x) (fabs p y) = fabs p y := by
  rcases h.lt_or_eq with hlt | heq
  · have hnot := mt (magLe_fabs_iff hx (h.trans hx)).1 hlt.not_ge
    rw [fmax, fmin, if_neg hnot, if_neg hnot]
    exact ⟨rfl, rfl⟩
  · have hsame : fabs p x = fabs p y := by rw [fabs, ← heq, fabs]
    simp [fmax, fmin, hsame]

/-- The last line of R122. -/
def hypotOf (p : Prec) (w z : FBits) : Draw FBits := do
  let q ← fdiv p z w
  let qq ← fmul p q q
  let one ← fadd p (fOne p) qq
  let r ← fsqrt p one
  fmul p w r

theorem isHypot_hypotOf (w z : FBits) (d : Nat) : IsHypot p w z (runDraw (hypotOf p w z) d).1 := by
  simp only [hypotOf, runDraw_bind]
  exact ⟨_, _, _, _, Gives.of_run _ _, Gives.of_run _ _, Gives.of_run _ _, Gives.of_run _ _, Gives.of_run _ _⟩

/-- The quotient of two infinities is a NaN, and every later operation hands it on (R122). -/
theorem isNaN_hypotOf_of_inf {w z : FBits} {s t : Bool} (hw : unpack p w = .inf s) (hz : unpack p z = .inf t) (d : Nat) :
    isNaN p (runDraw (hypotOf p w z) d).1 = true := by
  have hnan : ∀ raw, unpack p (quietNaN p raw) = .nan := fun raw => unpack_of_isNaN (quietNaN_quiet p raw).1
  simp only [hypotOf, runDraw_bind, fdiv_of_inf hz hw, runDraw_drawNaN, fmul_of_nan (.inl (hnan _)),
    fadd_of_nan (.inr (hnan _)), fsqrt_of_nan (hnan _), fmul_of_nan (.inr (hnan _)), (quietNaN_quiet p _).1]

/-- `apy2` of operands that are no NaN, by the larger magnitude `w` and the smaller `z` (R122). -/
theorem apy2_of_max_min (hx : isNaN p x = false) (hy : isNaN p y = false) {w z : FBits}
    (h : fmax p (fabs p x) (fabs p y) = fabs p w ∧ fmin p (fabs p x) (fabs p y) = fabs p z) :
    apy2 p x y = if magOf p z = 0 then pure (fabs p w) else hypotOf p (fabs p w) (fabs p z) := by
  obtain ⟨hmax, hmin⟩ := h
  rw [apy2, if_neg (by simp [hx]), if_neg (by simp [hy]), hmax, hmin]
  simp only [isZero, magOf_fabs, decide_eq_true_eq]
  rfl

theorem apy2_of_ge (hx : isNaN p x = false) (h : magOf p y ≤ magOf p x) :
    apy2 p x y = if magOf p y = 0 then pure (fabs p x) else hypotOf p (fabs p x) (fabs p y) :=
  have hx' := isNaN_eq_false_iff.1 hx
  apy2_of_max_min hx (isNaN_eq_false_iff.2 (h.trans hx')) (fmax_fmin_of_ge hx' h)

theorem apy2_of_le (hy : isNaN p y = false) (h : magOf p x ≤ magOf p y) :
    apy2 p x y = if magOf p x = 0 then pure (fabs p y) else hypotOf p (fabs p y) (fabs p x) :=
  have hy' := isNaN_eq_false_iff.1 hy
  apy2_of_max_min (isNaN_eq_false_iff.2 (h.trans hy')) hy (fmax_fmin_of_le (h.trans hy') hy' h)

end Hypot

/-- Settles O37: the order of the magnitudes picks the larger and the smaller operand. -/
theorem hypotByCases : Obligations.HypotByCases := by
  intro p x y d _ _
  refine ⟨fun hx => ?_, fun hx hy => ?_, fun hx hy0 => ?_, fun hy hx0 => ?_,
    fun hx hy hx0 hy0 => ⟨fun hle => ?_, fun hle => ?_⟩, fun hx hy => ?_⟩
  · rw [apy2, if_pos hx, runDraw_pure]
  · rw [apy2, if_neg (by simp [hx]), if_pos hy, runDraw_pure]
  · rw [apy2_of_ge hx (by omega), if_pos hy0, runDraw_pure]
  · rw [apy2_of_le hy (by omega), if_pos hx0, runDraw_pure]
  · rw [apy2_of_ge hx hle, if_neg hy0]
    exact isHypot_hypotOf _ _ d
  · rw [apy2_of_le hy hle, if_neg hx0]
    exact isHypot_hypotOf _ _ d
  · have hinf : ∀ v, magOf p v = infMag p → unpack p (fabs p v) = .inf (signOf p (fabs p v)) := fun v hv =>
      unpack_of_magOf_eq (by rw [magOf_fabs, hv])
    rw [apy2_of_ge (isNaN_eq_false_iff.2 hx.le) (by omega), if_neg (by have := infMag_pos p; omega)]
    exact isNaN_hypotOf_of_inf (hinf x hx) (hinf y hy) d

/-! The cascade of `pwr2`. -/

/-- The cascade so far: `v` is `x` shifted by the result `r`, not zero, and has at most `w` bits. -/
def CascadeInv (x w : Nat) (rv : Nat × Nat) : Prop := rv.2 = x >>> rv.1 ∧ 0 < rv.2 ∧ rv.2 < 2 ^ w

/-- One turn of the cascade halves the number of bits left (R116). -/
theorem CascadeInv.step {x w : Nat} {rv : Nat × Nat} (h : CascadeInv x (2 * w) rv) :
    CascadeInv x w (if 2 ^ w ≤ rv.2 then (rv.1 + w, rv.2 >>> w) else rv) := by
  obtain ⟨hshift, hpos, hlt⟩ := h
  split
  · next hle =>
    refine ⟨by rw [hshift, Nat.shiftRight_add], ?_, ?_⟩
    · rw [Nat.shiftRight_eq_div_pow]
      exact Nat.div_pos hle (Nat.two_pow_pos w)
    · rwa [Nat.shiftRight_eq_div_pow, Nat.div_lt_iff_lt_mul (Nat.two_pow_pos w), ← pow_add, ← Nat.two_mul]
  · next hnot => exact ⟨hshift, hpos, Nat.lt_of_not_le hnot⟩

/-- `pwr2` is the floor of the binary logarithm on 64 bits (R116). -/
theorem pwr2Cascade_spec {x : Nat} (hx : 0 < x) (h64 : x < 2 ^ 64) :
    2 ^ pwr2Cascade x ≤ x ∧ x < 2 ^ (pwr2Cascade x + 1) := by
  have hstart : CascadeInv x (2 * 32) (0, x) := ⟨rfl, hx, h64⟩
  obtain ⟨rv, hrv, hshift, hpos, hlt⟩ : ∃ rv, pwr2Cascade x = rv.1 ∧ CascadeInv x 1 rv :=
    ⟨_, rfl, hstart.step |>.step (w := 16) |>.step (w := 8) |>.step (w := 4) |>.step (w := 2) |>.step (w := 1)⟩
  have hone : x / 2 ^ rv.1 = 1 := by
    rw [← Nat.shiftRight_eq_div_pow, ← hshift]
    omega
  rw [Nat.div_eq_iff (Nat.two_pow_pos _)] at hone
  rw [hrv, pow_succ]
  omega

/-- Settles O36: the cascade's invariant, the bit-smear's and the exponent. -/
theorem integerUnits : Obligations.IntegerUnits := by
  refine ⟨fun x hx h64 => ⟨pwr2Cascade x, ?_, pwr2Cascade_spec hx h64⟩, fun x hx => if_pos hx, rfl, rfl,
    fun x h2 h64 => clp2_eq_two_pow h2 h64, fun n => ispow2_iff⟩
  rw [pwr2, if_neg (by omega), Int.toNat_natCast]

end Sys2Proof.Machine

/-! SUPPORT. The table generators (R130 to R145): the turns of TWGEN's recurrence as one sequence of pairs, where each turn
places its pair, and what the loops of both generators leave alone. -/

namespace Sys2Proof.Machine

/-! The twiddle recurrence (R135, R136). -/

/-- One turn of the recurrence on the pair `(C, S)` and the draws made so far. -/
def twTurn (p : Prec) (cs : Cplx) (r : (FBits × FBits) × Nat) : (FBits × FBits) × Nat :=
  runDraw (twStep p cs r.1.1 r.1.2) r.2

/-- The pair `(C, S)` after `k` turns from the pair `(1, 0)`. -/
def twPair (P : Params) (H d k : Nat) : FBits × FBits := ((twTurn P.prec (twSeed P H))^[k] ((fOne P.prec, fZero), d)).1

/-- The four symmetric placements of a pair at `k` (R136). -/
structure TwPlaced (p : Prec) (H k : Nat) (cs : FBits × FBits) (tw : List Cplx) : Prop where
  first : tw[k]? = some { re := cs.1, im := cs.2 }
  second : tw[H / 2 - k]? = some { re := fneg p cs.2, im := fneg p cs.1 }
  third : tw[H / 2 + k]? = some { re := cs.2, im := fneg p cs.1 }
  fourth : tw[H - k]? = some { re := fneg p cs.1, im := cs.2 }

/-- The index `j` is one of the four that the turn at `k` writes. -/
def IsTwPlace (H k j : Nat) : Prop := j = k ∨ j = H / 2 - k ∨ j = H / 2 + k ∨ j = H - k

section TwLoop

variable {p : Prec} {cs : Cplx} {H : Nat}

@[simp] theorem length_twPlace (k : Nat) (C S : FBits) (tw : List Cplx) : (twPlace p H k C S tw).length = tw.length := by
  simp [twPlace]

theorem getElem?_twPlace_of_not {k j : Nat} (h : ¬IsTwPlace H k j) (C S : FBits) (tw : List Cplx) :
    (twPlace p H k C S tw)[j]? = tw[j]? := by
  simp only [IsTwPlace, not_or] at h
  obtain ⟨h1, h2, h3, h4⟩ := h
  rw [twPlace, List.getElem?_set_ne (Ne.symm h4), List.getElem?_set_ne (Ne.symm h3), List.getElem?_set_ne (Ne.symm h2),
    List.getElem?_set_ne (Ne.symm h1)]

/-- The four indices of a turn are distinct and in the table. -/
theorem twPlaced_twPlace (hH : 4 ∣ H) {k : Nat} (h1 : 1 ≤ k) (hk : k < H / 4) (C S : FBits) {tw : List Cplx}
    (hlen : tw.length = H) : TwPlaced p H k (C, S) (twPlace p H k C S tw) := by
  constructor <;> simp only [twPlace, List.getElem?_set, List.length_set, hlen, ↓reduceIte]
  · rw [if_neg (by omega), if_neg (by omega), if_neg (by omega), if_pos (by omega)]
  · rw [if_neg (by omega), if_neg (by omega), if_pos (by omega)]
  · rw [if_neg (by omega), if_pos (by omega)]
  · rw [if_pos (by omega)]

/-- Placements depend on the four places alone. -/
theorem TwPlaced.congr {k : Nat} {c : FBits × FBits} {tw tw' : List Cplx} (h : TwPlaced p H k c tw)
    (hkeep : ∀ j, IsTwPlace H k j → tw'[j]? = tw[j]?) : TwPlaced p H k c tw' where
  first := (hkeep _ (.inl rfl)).trans h.first
  second := (hkeep _ (.inr (.inl rfl))).trans h.second
  third := (hkeep _ (.inr (.inr (.inl rfl)))).trans h.third
  fourth := (hkeep _ (.inr (.inr (.inr rfl)))).trans h.fourth

theorem runDraw_twLoop_succ (n k : Nat) (r : (FBits × FBits) × Nat) (tw : List Cplx) :
    runDraw (twLoop p cs H (n + 1) k r.1.1 r.1.2 tw) r.2 =
      runDraw (twLoop p cs H n (k + 1) (twTurn p cs r).1.1 (twTurn p cs r).1.2
        (twPlace p H k (twTurn p cs r).1.1 (twTurn p cs r).1.2 tw)) (twTurn p cs r).2 := rfl

@[simp] theorem length_twLoop : ∀ (n k : Nat) (r : (FBits × FBits) × Nat) (tw : List Cplx),
    (runDraw (twLoop p cs H n k r.1.1 r.1.2 tw) r.2).1.length = tw.length
  | 0, _, _, _ => rfl
  | n + 1, k, r, tw => by rw [runDraw_twLoop_succ, length_twLoop n, length_twPlace]

theorem getElem?_twLoop_of_not {j : Nat} : ∀ (n k : Nat) (r : (FBits × FBits) × Nat) (tw : List Cplx),
    (∀ i, k ≤ i → i < k + n → ¬IsTwPlace H i j) →
      (runDraw (twLoop p cs H n k r.1.1 r.1.2 tw) r.2).1[j]? = tw[j]?
  | 0, _, _, _, _ => rfl
  | n + 1, k, r, tw, h => by
    rw [runDraw_twLoop_succ, getElem?_twLoop_of_not n (k + 1) _ _ fun i hi hn => h i (by omega) (by omega),
      getElem?_twPlace_of_not (h k le_rfl (by omega))]

/-- Turn `i` of the loop places the pair after `i + 1` turns, and no later turn writes its places. -/
theorem twPlaced_twLoop (hH : 4 ∣ H) : ∀ (n k i : Nat) (r : (FBits × FBits) × Nat) (tw : List Cplx), tw.length = H →
    1 ≤ k → k + n ≤ H / 4 → i < n →
      TwPlaced p H (k + i) ((twTurn p cs)^[i + 1] r).1 (runDraw (twLoop p cs H n k r.1.1 r.1.2 tw) r.2).1
  | n + 1, k, 0, r, tw, hlen, h1, hn, _ => by
    refine (twPlaced_twPlace hH h1 (by omega) _ _ hlen).congr fun j hj => ?_
    rw [runDraw_twLoop_succ, getElem?_twLoop_of_not]
    · rfl
    · intro i hi hin
      simp only [IsTwPlace] at hj ⊢
      omega
  | n + 1, k, i + 1, r, tw, hlen, h1, hn, hi => by
    rw [runDraw_twLoop_succ, Function.iterate_succ_apply, ← Nat.add_assoc, Nat.add_right_comm]
    exact twPlaced_twLoop hH n (k + 1) i _ _ (by simpa using hlen) (by omega) (by omega) (by omega)

end TwLoop

/-! The twiddle table (R131, R133, R134, R139). -/

/-- The table before step 3 (R133, R134). -/
def twStart (P : Params) (H : Nat) : List Cplx :=
  ((List.replicate H cZero).set 0 (cOne P.prec)).set (H / 2) (cMinusI P.prec)

/-- The table after step 3. -/
def twTurned (P : Params) (H d : Nat) : List Cplx :=
  (runDraw (twLoop P.prec (twSeed P H) H (H / 4 - 1) 1 (fOne P.prec) fZero (twStart P H)) d).1

theorem twgen_of_four_le (P : Params) {H : Nat} (d : Nat) (h : 4 ≤ H) :
    (runDraw (twgen P H) d).1 = twExact P.prec H (twTurned P H d) := by
  rw [twgen, if_neg (by omega), if_neg (by omega), if_neg (by omega)]
  rfl

@[simp] theorem length_twTurned (P : Params) (H d : Nat) : (twTurned P H d).length = H :=
  (length_twLoop _ _ ((fOne P.prec, fZero), d) _).trans (by simp [twStart])

theorem getElem?_twTurned_of_not (P : Params) {H d j : Nat} (h : ∀ i, 1 ≤ i → i < H / 4 → ¬IsTwPlace H i j) :
    (twTurned P H d)[j]? = (twStart P H)[j]? :=
  getElem?_twLoop_of_not _ _ ((fOne P.prec, fZero), d) _ fun i h1 hi => h i h1 (by omega)

theorem getElem?_twExact_of_ne {p : Prec} {H j : Nat} {tw : List Cplx} (h1 : j ≠ H / 4) (h3 : j ≠ 3 * H / 4) :
    (twExact p H tw)[j]? = tw[j]? := by
  rw [twExact, List.getElem?_set_ne h3.symm, List.getElem?_set_ne h1.symm]

@[simp] theorem length_twExact {p : Prec} {H : Nat} (tw : List Cplx) : (twExact p H tw).length = tw.length := by
  simp [twExact]

/-- From `k = 1` the table holds the four placements of the pair after `k` turns. -/
theorem twPlaced_twgen (P : Params) {H k : Nat} (d : Nat) (hH : 4 ∣ H) (h1 : 1 ≤ k) (hk : k < H / 4) :
    TwPlaced P.prec H k (twPair P H d k) (runDraw (twgen P H) d).1 := by
  rw [twgen_of_four_le P d (by omega)]
  have hplaced : TwPlaced P.prec H k (twPair P H d k) (twTurned P H d) := by
    obtain ⟨i, rfl⟩ := Nat.exists_eq_add_of_le' h1
    have hturn := twPlaced_twLoop (p := P.prec) (cs := twSeed P H) hH (H / 4 - 1) 1 i ((fOne P.prec, fZero), d)
      (twStart P H) (by simp [twStart]) le_rfl (by omega) (by omega)
    rwa [Nat.add_comm 1 i] at hturn
  refine hplaced.congr fun j hj => getElem?_twExact_of_ne ?_ ?_
  all_goals
    simp only [IsTwPlace] at hj
    omega

/-- What one turn of the recurrence computes: four products, one sum and one difference, each rounded (R135, R138). -/
theorem gives_twStep {p : Prec} {cs : Cplx} {C S Cn Sn : FBits} (h : Gives (twStep p cs C S) (Cn, Sn)) :
    ∃ m1 m2 m3 m4 : FBits, Gives (fmul p C cs.re) m1 ∧ Gives (fmul p S cs.im) m2 ∧ Gives (fadd p m1 m2) Cn ∧
      Gives (fmul p S cs.re) m3 ∧ Gives (fmul p C cs.im) m4 ∧ Gives (fsub p m3 m4) Sn := by
  obtain ⟨d, h⟩ := h
  simp only [twStep, runDraw_bind, runDraw_pure, Prod.mk.injEq] at h
  obtain ⟨rfl, rfl⟩ := h
  exact ⟨_, _, _, _, .of_run _ _, .of_run _ _, .of_run _ _, .of_run _ _, .of_run _ _, .of_run _ _⟩

theorem gives_twPair_succ (P : Params) (H d k : Nat) :
    Gives (twStep P.prec (twSeed P H) (twPair P H d k).1 (twPair P H d k).2) (twPair P H d (k + 1)) := by
  rw [twPair, twPair, Function.iterate_succ_apply']
  exact .of_run _ _

theorem four_dvd_two_pow_of_le {m : Nat} (h : 4 ≤ 2 ^ m) : 4 ∣ 2 ^ m :=
  pow_dvd_pow 2 ((Nat.pow_le_pow_iff_right (a := 2) (n := 2) (by decide)).1 h)

/-- Settles O26, by the pair after `k` turns. -/
theorem twiddleSymmetricPlacements : Obligations.TwiddleSymmetricPlacements := by
  intro P m d k H tw h1 hk
  have h := twPlaced_twgen P d (four_dvd_two_pow_of_le (by omega)) h1 hk
  exact ⟨_, _, h.first, h.second, h.third, h.fourth⟩

/-- Settles O27: element `k` is the pair after `k` turns, and so is element `k - 1` from `k = 2`. -/
theorem twiddleRecurrence : Obligations.TwiddleRecurrence := by
  intro P m d k H p tw c s h1 hk C S
  have hH : 4 ∣ H := four_dvd_two_pow_of_le (by omega)
  obtain ⟨i, rfl⟩ := Nat.exists_eq_add_of_le' h1
  have hold : C = (twPair P H d i).1 ∧ S = (twPair P H d i).2 := by
    rcases Nat.eq_zero_or_pos i with rfl | hi
    · exact ⟨if_pos rfl, if_pos rfl⟩
    · have helem : elem tw i = { re := (twPair P H d i).1, im := (twPair P H d i).2 } := by
        rw [elem, List.getD_eq_getElem?_getD, (twPlaced_twgen P d hH hi (by omega)).first, Option.getD_some]
      exact ⟨(if_neg (by omega)).trans (congrArg Cplx.re helem), (if_neg (by omega)).trans (congrArg Cplx.im helem)⟩
  obtain ⟨m1, m2, m3, m4, hC1, hS1, hCn, hS2, hC2, hSn⟩ := gives_twStep (gives_twPair_succ P H d i)
  rw [hold.1, hold.2]
  exact ⟨m1, m2, m3, m4, _, _, hC1, hS1, hCn, hS2, hC2, hSn, (twPlaced_twgen P d hH h1 hk).first⟩

/-- The exact slots are no place of a turn (R136). -/
theorem not_isTwPlace_exact {H i : Nat} (hH : 4 ∣ H) (h1 : 1 ≤ i) (hi : i < H / 4) :
    ¬IsTwPlace H i 0 ∧ ¬IsTwPlace H i (H / 2) := by
  simp only [IsTwPlace]
  omega

theorem getElem?_twStart (P : Params) {H : Nat} (h : 2 ≤ H) :
    (twStart P H)[0]? = some (cOne P.prec) ∧ (twStart P H)[H / 2]? = some (cMinusI P.prec) := by
  constructor
  · rw [twStart, List.getElem?_set_ne (by omega), List.getElem?_set_self (by simp; omega)]
  · rw [twStart, List.getElem?_set_self (by simp; omega)]

/-- The slots of steps 1 and 2 (R133, R134). -/
theorem getElem?_twgen_exact (P : Params) {H : Nat} (d : Nat) (hH : 4 ∣ H) (h4 : 4 ≤ H) :
    (runDraw (twgen P H) d).1[0]? = some (cOne P.prec) ∧ (runDraw (twgen P H) d).1[H / 2]? = some (cMinusI P.prec) := by
  obtain ⟨hzero, hhalf⟩ := getElem?_twStart P (H := H) (by omega)
  rw [twgen_of_four_le P d h4, getElem?_twExact_of_ne (by omega) (by omega), getElem?_twExact_of_ne (by omega) (by omega),
    getElem?_twTurned_of_not P fun i h1 hi => (not_isTwPlace_exact hH h1 hi).1,
    getElem?_twTurned_of_not P fun i h1 hi => (not_isTwPlace_exact hH h1 hi).2]
  exact ⟨hzero, hhalf⟩

/-- The slots of step 4 (R139). -/
theorem getElem?_twExact {p : Prec} {H : Nat} {tw : List Cplx} (hlen : tw.length = H) (h4 : 4 ≤ H) :
    (twExact p H tw)[H / 4]? = some { re := halfRoot2 p, im := fneg p (halfRoot2 p) } ∧
      (twExact p H tw)[3 * H / 4]? = some { re := fneg p (halfRoot2 p), im := fneg p (halfRoot2 p) } := by
  constructor
  · rw [twExact, List.getElem?_set_ne (by omega), List.getElem?_set_self (by omega)]
  · rw [twExact, List.getElem?_set_self (by simp; omega)]

/-- The literal of R139 and the `1` of R107 in each precision. -/
theorem halfRoot2_fOne_values : (halfRoot2 .binary64 = 0x3FE6A09E667F3BCD ∧ fOne .binary64 = 0x3FF0000000000000) ∧
    halfRoot2 .binary32 = 0x3F3504F3 ∧ fOne .binary32 = 0x3F800000 := by decide +kernel

theorem twgen_one (P : Params) (d : Nat) : (runDraw (twgen P 1) d).1 = [cOne P.prec] := rfl

theorem twgen_two (P : Params) (d : Nat) : (runDraw (twgen P 2) d).1 = [cOne P.prec, cMinusI P.prec] := rfl

/-- Settles O25: the tables of one and of two elements, and those step 4 applies to. -/
theorem twiddleExactSlots : Obligations.TwiddleExactSlots := by
  intro P m d H tw one r
  obtain ⟨hdouble, hsingle⟩ := halfRoot2_fOne_values
  have hvalues : (P.prec = .binary64 → r = 0x3FE6A09E667F3BCD ∧ one = 0x3FF0000000000000) ∧
      (P.prec = .binary32 → r = 0x3F3504F3 ∧ one = 0x3F800000) := by
    constructor <;> intro hp
    · rw [← hp] at hdouble
      exact hdouble
    · rw [← hp] at hsingle
      exact hsingle
  rcases m with _ | _ | m
  · have htw : tw = [cOne P.prec] := twgen_one P d
    rw [htw]
    exact ⟨rfl, rfl, nofun, nofun, hvalues⟩
  · have htw : tw = [cOne P.prec, cMinusI P.prec] := twgen_two P d
    rw [htw]
    have hH : H / 2 = 1 := by norm_num [H]
    rw [hH]
    exact ⟨rfl, rfl, fun _ => rfl, by omega, hvalues⟩
  · have h4 : 4 ≤ H := Nat.pow_le_pow_right (n := 2) (show 0 < 2 by decide) (show 2 ≤ m + 2 by omega)
    obtain ⟨hzero, hhalf⟩ := getElem?_twgen_exact P d (four_dvd_two_pow_of_le h4) h4
    have htw : tw = twExact P.prec H (twTurned P H d) := twgen_of_four_le P d h4
    refine ⟨?_, hzero, fun _ => hhalf, fun _ => ?_, hvalues⟩
    · rw [htw, length_twExact, length_twTurned]
    · rw [htw]
      exact getElem?_twExact (length_twTurned P H d) h4

/-! The chirp table (R143, R144). -/

section Foldl

variable {α ι : Type} {f : List α → ι → List α} {j : Nat}

/-- A place no turn of a loop writes keeps its element. -/
theorem getElem?_foldl_of_keeps {l : List ι} (hf : ∀ i ∈ l, ∀ x, (f x i)[j]? = x[j]?) :
    ∀ x, (l.foldl f x)[j]? = x[j]? := by
  induction l with
  | nil => exact fun _ => rfl
  | cons a l ih => exact fun x => (ih (fun i hi => hf i (by simp [hi])) _).trans (hf a (by simp) x)

/-- A place that one turn of a loop sets and every other turn keeps holds what that turn sets. -/
theorem getElem?_foldl_of_mem {n : Nat} {i : ι} {v : α} {l : List ι} (hi : i ∈ l)
    (hlen : ∀ x i, (f x i).length = x.length) (hset : ∀ x, x.length = n → (f x i)[j]? = some v)
    (hkeep : ∀ i' ∈ l, i' ≠ i → ∀ x, (f x i')[j]? = x[j]?) : ∀ x, x.length = n → (l.foldl f x)[j]? = some v := by
  induction l with
  | nil => simp at hi
  | cons a l ih =>
    intro x hx
    by_cases hmem : i ∈ l
    · exact ih hmem (fun i' hi' => hkeep i' (by simp [hi'])) _ ((hlen x a).trans hx)
    · obtain rfl : i = a := by simpa [hmem] using hi
      rw [List.foldl_cons, getElem?_foldl_of_keeps fun i' hi' =>
        hkeep i' (by simp [hi']) (by rintro rfl; exact hmem hi'), hset x hx]

end Foldl

section Chgen

variable {P : Params} {N M : Nat}

@[simp] theorem length_chPlace (ca : List Cplx) (i : Nat) : (chPlace P N M ca i).length = ca.length := by simp [chPlace]

theorem getElem?_chPlace_of_ne {i j : Nat} (h : j ≠ i) (h' : j ≠ M - i) (ca : List Cplx) :
    (chPlace P N M ca i)[j]? = ca[j]? := by
  rw [chPlace, List.getElem?_set_ne h'.symm, List.getElem?_set_ne h.symm]

/-- One turn sets both its places to `χ(i)`, which is one place when `2i = M`. -/
theorem getElem?_chPlace {i j : Nat} {ca : List Cplx} (hi : i < M) (h1 : 1 ≤ i) (hlen : ca.length = M)
    (hj : j = i ∨ j = M - i) : (chPlace P N M ca i)[j]? = some (chirpVal P i N) := by
  rw [chPlace]
  by_cases hlast : j = M - i
  · rw [hlast, List.getElem?_set_self (by simp; omega)]
  · rw [List.getElem?_set_ne (Ne.symm hlast), hj.resolve_right hlast, List.getElem?_set_self (by omega)]

/-- The table before its zero range is written (R143). -/
def chTurned (P : Params) (N M : Nat) : List Cplx :=
  (List.range' 1 (N - 1)).foldl (chPlace P N M) ((List.replicate M cZero).set 0 (cOne P.prec))

theorem chgen_eq (P : Params) (N M : Nat) :
    chgen P N M = (List.range' N (M - N + 1 - N)).foldl (fun ca i => ca.set i cZero) (chTurned P N M) := rfl

/-- Outside the zero range the table is as the first loop leaves it. -/
theorem getElem?_chgen_of_not {j : Nat} (h : j < N ∨ M - N < j) : (chgen P N M)[j]? = (chTurned P N M)[j]? := by
  rw [chgen_eq]
  refine getElem?_foldl_of_keeps (fun i hi ca => ?_) _
  obtain ⟨hN, hM⟩ := List.mem_range'_1.1 hi
  exact List.getElem?_set_ne (by omega)

theorem getElem?_chTurned {i j : Nat} (hM : 2 * N - 2 ≤ M) (h1 : 1 ≤ i) (hi : i < N) (hj : j = i ∨ j = M - i) :
    (chTurned P N M)[j]? = some (chirpVal P i N) := by
  refine getElem?_foldl_of_mem (i := i) (List.mem_range'_1.2 (by omega)) (fun x i => length_chPlace x i)
    (fun ca hlen => getElem?_chPlace (by omega) h1 hlen hj) (fun i' hi' hne ca => ?_) _ (by simp)
  obtain ⟨h1', hi'⟩ := List.mem_range'_1.1 hi'
  exact getElem?_chPlace_of_ne (by omega) (by omega) ca

theorem length_chTurned : (chTurned P N M).length = M := by
  rw [chTurned, length_foldl_of_keeps length_chPlace]
  simp

theorem getElem?_chgen_zero {i : Nat} (hpos : 0 < N) (hN : N ≤ i) (hM : i ≤ M - N) : (chgen P N M)[i]? = some cZero := by
  rw [chgen_eq]
  refine getElem?_foldl_of_mem (i := i) (List.mem_range'_1.2 (by omega)) (fun _ _ => List.length_set)
    (fun x hlen => ?_) (fun i' _ hne x => List.getElem?_set_ne hne) _ length_chTurned
  exact List.getElem?_set_self (by omega)

end Chgen

/-- Settles O28: no two turns of a loop share a place, and the loops share none. -/
theorem chirpTableLayout : Obligations.ChirpTableLayout := by
  intro P N M hN hM ca
  refine ⟨length_chgen P N M, ?_, fun i h1 hi => ⟨?_, ?_⟩, fun i hNi hi => ?_⟩
  · rw [getElem?_chgen_of_not (.inl (by omega)), chTurned, getElem?_foldl_of_keeps fun i hi x => ?_]
    · exact List.getElem?_set_self (by simp; omega)
    · obtain ⟨h1, hi⟩ := List.mem_range'_1.1 hi
      exact getElem?_chPlace_of_ne (by omega) (by omega) x
  · rw [getElem?_chgen_of_not (.inl hi), getElem?_chTurned hM h1 hi (.inl rfl)]
  · rw [getElem?_chgen_of_not (by omega), getElem?_chTurned hM h1 hi (.inr rfl)]
  · exact getElem?_chgen_zero (by omega) hNi hi

end Sys2Proof.Machine

/-! SUPPORT. The enclosures of cosines and sines (R137, R142; log entry 9): each operation keeps the real number it encloses,
the two Taylor sums and Machin's formula enclose their functions, and a rounding both ends agree on is that of the number. -/

namespace Sys2Proof.Machine

/-! Alternating series. -/

/-- The partial sums of an alternating series. -/
def altSum (f : Nat → ℝ) (n : Nat) : ℝ := ∑ i ∈ Finset.range n, (-1) ^ i * f i

theorem altSum_succ (f : Nat → ℝ) (n : Nat) : altSum f (n + 1) = altSum f n + (-1) ^ n * f n := Finset.sum_range_succ _ n

/-- The remainder of an alternating series is at most its first term, when the terms fall from there on. -/
theorem abs_sub_altSum_le {f : Nat → ℝ} {v : ℝ} {n : Nat} (hsum : HasSum (fun i => (-1) ^ i * f i) v)
    (hfall : ∀ k, n ≤ k → f (k + 1) ≤ f k) : |v - altSum f n| ≤ f n := by
  have htail : HasSum (fun i => (-1) ^ i * f (i + n)) ((-1) ^ n * (v - altSum f n)) := by
    have h := ((hasSum_nat_add_iff' n).2 hsum).mul_left ((-1) ^ n)
    have hterm : ∀ i, (-1 : ℝ) ^ n * ((-1) ^ (i + n) * f (i + n)) = (-1) ^ i * f (i + n) := fun i => by
      rw [← mul_assoc, pow_add, mul_left_comm, ← pow_add, Even.neg_one_pow ⟨n, rfl⟩, mul_one]
    simpa only [hterm, altSum] using h
  have hanti : Antitone fun i => f (i + n) := antitone_nat_of_succ_le fun i => by
    rw [Nat.add_right_comm]
    exact hfall _ (Nat.le_add_left _ _)
  have hlo := hanti.alternating_series_le_tendsto htail.tendsto_sum_nat 0
  have hhi := hanti.tendsto_le_alternating_series htail.tendsto_sum_nat 0
  simp only [Nat.mul_zero, Finset.range_zero, Finset.sum_empty, Nat.zero_add, Finset.range_one, Finset.sum_singleton,
    pow_zero, one_mul] at hlo hhi
  calc |v - altSum f n| = |(-1) ^ n * (v - altSum f n)| := by rw [abs_mul, abs_neg_one_pow, one_mul]
    _ ≤ f n := by rwa [abs_of_nonneg hlo]

/-! Enclosures. -/

namespace Encl

/-- `e` encloses the real number `v` at precision `w`. -/
structure Holds (w : Nat) (e : Encl) (v : ℝ) : Prop where
  lo_le : (e.lo : ℝ) ≤ v * 2 ^ w
  le_hi : v * 2 ^ w ≤ e.hi

section Holds

variable {w : Nat} {a b : Encl} {x y : ℝ}

theorem Holds.nonneg (h : a.Holds w x) : 0 ≤ x :=
  nonneg_of_mul_nonneg_left ((Nat.cast_nonneg a.lo).trans h.lo_le) (by positivity)

theorem holds_zero (w : Nat) : Encl.Holds w { lo := 0, hi := 0 } 0 := ⟨by simp, by simp⟩

theorem Holds.add (ha : a.Holds w x) (hb : b.Holds w y) : (a.add b).Holds w (x + y) := by
  obtain ⟨hal, hah⟩ := ha
  obtain ⟨hbl, hbh⟩ := hb
  constructor <;> simp only [Encl.add, Nat.cast_add, add_mul] <;> linarith

/-- A truncated difference is below a number that is not negative and not below the difference. -/
theorem cast_tsub_le {m n : Nat} {v : ℝ} (hv : 0 ≤ v) (h : (m : ℝ) ≤ v + n) : ((m - n : Nat) : ℝ) ≤ v := by
  rcases Nat.le_total m n with hle | hle
  · rwa [Nat.sub_eq_zero_of_le hle, Nat.cast_zero]
  · rw [Nat.cast_sub hle]
    linarith

/-- A number within `r` of a difference, widened by `r`; the difference itself may be negative, the number may not. -/
theorem Holds.sub_widen (ha : a.Holds w x) (hb : b.Holds w y) {v ρ : ℝ} {r : Nat} (hv : 0 ≤ v)
    (hρ : |v - (x - y)| ≤ ρ) (hr : ρ * 2 ^ w ≤ r) : ((a.sub b).widen r).Holds w v := by
  obtain ⟨hlo, hhi⟩ := abs_le.1 hρ
  have hw : (0 : ℝ) < 2 ^ w := by positivity
  have hv' : 0 ≤ v * 2 ^ w := by positivity
  have hlo' := mul_le_mul_of_nonneg_right hlo hw.le
  have hhi' := mul_le_mul_of_nonneg_right hhi hw.le
  obtain ⟨hal, hah⟩ := ha
  obtain ⟨hbl, hbh⟩ := hb
  constructor
  · refine cast_tsub_le hv' (cast_tsub_le (by positivity) ?_)
    linarith
  · have hsub : (a.hi : ℝ) ≤ ((a.hi - b.lo : Nat) : ℝ) + b.lo := by exact_mod_cast le_tsub_add
    simp only [Encl.widen, Encl.sub, Nat.cast_add]
    linarith

theorem Holds.sub (ha : a.Holds w x) (hb : b.Holds w y) (h : 0 ≤ x - y) : (a.sub b).Holds w (x - y) :=
  ha.sub_widen hb (ρ := 0) (r := 0) h (by simp) (by simp)

/-- The floor of a quotient and the number after it enclose it. -/
theorem holds_div {v : ℝ} {lo hi d : Nat} (hlo : (lo : ℝ) / d ≤ v * 2 ^ w) (hhi : v * 2 ^ w ≤ (hi : ℝ) / d) :
    Encl.Holds w { lo := lo / d, hi := hi / d + 1 } v := by
  have hfloor := (Nat.lt_floor_add_one ((hi : ℝ) / d)).le
  rw [Nat.floor_div_eq_div] at hfloor
  exact ⟨Nat.cast_div_le.trans hlo, hhi.trans (by exact_mod_cast hfloor)⟩

theorem Holds.mul (ha : a.Holds w x) (hb : b.Holds w y) : (Encl.mul w a b).Holds w (x * y) := by
  have hx := ha.nonneg
  have hy := hb.nonneg
  have hw : (0 : ℝ) < 2 ^ w := by positivity
  simp only [Encl.mul, Nat.shiftRight_eq_div_pow]
  have hprod : x * y * 2 ^ w = (x * 2 ^ w) * (y * 2 ^ w) / (2 ^ w : Nat) := by push_cast; field_simp
  refine holds_div ?_ ?_ <;> rw [hprod] <;> push_cast
  · gcongr
    exacts [ha.lo_le, hb.lo_le]
  · gcongr
    exacts [ha.le_hi, hb.le_hi]

theorem Holds.scale (ha : a.Holds w x) (num den : Nat) : (a.scale num den).Holds w (x * num / den) := by
  have hprod : x * num / den * 2 ^ w = (x * 2 ^ w) * num / den := by ring
  refine holds_div ?_ ?_ <;> rw [hprod] <;> push_cast
  · gcongr
    exact ha.lo_le
  · gcongr
    exact ha.le_hi

end Holds

end Encl

theorem holds_enclInv (w d : Nat) : (enclInv w d).Holds w (1 / d) :=
  Encl.holds_div (by push_cast; exact (one_div_mul_eq_div _ _).ge) (by push_cast; exact (one_div_mul_eq_div _ _).le)

/-- The sums of the terms added and subtracted enclose two numbers whose difference is `s`. -/
def EnclDiff (w : Nat) (acc : Encl × Encl) (s : ℝ) : Prop :=
  ∃ x y : ℝ, acc.1.Holds w x ∧ acc.2.Holds w y ∧ x - y = s

theorem EnclDiff.start (w : Nat) (f : Nat → ℝ) : EnclDiff w ({ lo := 0, hi := 0 }, { lo := 0, hi := 0 }) (altSum f 0) :=
  ⟨0, 0, Encl.holds_zero w, Encl.holds_zero w, by simp [altSum]⟩

/-- One more term of an alternating sum. -/
theorem EnclDiff.next {w k : Nat} {plus minus term : Encl} {f : Nat → ℝ} (h : EnclDiff w (plus, minus) (altSum f k))
    (ht : term.Holds w (f k)) :
    EnclDiff w (if k % 2 = 0 then (plus.add term, minus) else (plus, minus.add term)) (altSum f (k + 1)) := by
  obtain ⟨x, y, hx, hy, hs⟩ := h
  rw [altSum_succ]
  split
  · next heven =>
    rw [(Nat.even_iff.2 heven).neg_one_pow]
    exact ⟨_, y, hx.add ht, hy, by rw [← hs]; ring⟩
  · next hodd =>
    rw [(Nat.odd_iff.2 (by omega)).neg_one_pow]
    exact ⟨x, _, hx, hy.add ht, by rw [← hs]; ring⟩

theorem enclDiff_alternating {w : Nat} {t : Nat → Encl} {f : Nat → ℝ} (ht : ∀ k, (t k).Holds w (f k)) :
    ∀ n k acc, EnclDiff w acc (altSum f k) → EnclDiff w (alternating t n k acc) (altSum f (k + n))
  | 0, _, _, h => h
  | n + 1, k, (plus, minus), h => by
    rw [alternating, Nat.add_comm n, ← Nat.add_assoc]
    exact enclDiff_alternating ht n (k + 1) _ (h.next (ht k))

/-- A sum of alternating terms widened by its next term, for a number the sum is within that term of. -/
theorem EnclDiff.widen {w n : Nat} {acc : Encl × Encl} {term : Encl} {f : Nat → ℝ} {v : ℝ}
    (h : EnclDiff w acc (altSum f n)) (ht : term.Holds w (f n)) (hv : 0 ≤ v) (hrem : |v - altSum f n| ≤ f n) :
    ((acc.1.sub acc.2).widen term.hi).Holds w v := by
  obtain ⟨x, y, hx, hy, hs⟩ := h
  exact hx.sub_widen hy hv (hs ▸ hrem) ht.le_hi

/-! `π` by Machin's formula. -/

/-- The terms of the series of `atan(1/x)`. -/
noncomputable def atanTerm (x k : Nat) : ℝ := 1 / ((x ^ (2 * k + 1) * (2 * k + 1) : Nat) : ℝ)

theorem atanTerm_succ_le {x : Nat} (hx : 2 ≤ x) (k : Nat) : atanTerm x (k + 1) ≤ atanTerm x k := by
  have hpos : 0 < x := by omega
  unfold atanTerm
  gcongr <;> omega

theorem hasSum_atanTerm {x : Nat} (hx : 2 ≤ x) : HasSum (fun k => (-1) ^ k * atanTerm x k) (Real.arctan (x : ℝ)⁻¹) := by
  have hx' : ‖(x : ℝ)⁻¹‖ < 1 := by
    have : (1 : ℝ) < x := by exact_mod_cast hx
    rw [norm_inv, RCLike.norm_natCast]
    exact inv_lt_one_of_one_lt₀ this
  convert Real.hasSum_arctan hx' using 2 with k
  rw [atanTerm]
  push_cast
  rw [inv_pow]
  field_simp

theorem holds_enclAtanInv (w n : Nat) {x : Nat} (hx : 2 ≤ x) : (enclAtanInv w n x).Holds w (Real.arctan (x : ℝ)⁻¹) := by
  have ht : ∀ k, (enclInv w (x ^ (2 * k + 1) * (2 * k + 1))).Holds w (atanTerm x k) := fun k => holds_enclInv w _
  have hsum := enclDiff_alternating ht n 0 _ (EnclDiff.start w (atanTerm x))
  rw [Nat.zero_add] at hsum
  exact hsum.widen (ht n) (Real.arctan_nonneg.2 (by positivity))
    (abs_sub_altSum_le (hasSum_atanTerm hx) fun k _ => atanTerm_succ_le hx k)

theorem holds_enclPi (w n : Nat) : (enclPi w n).Holds w Real.pi := by
  have hmachin : Real.arctan ((5 : Nat) : ℝ)⁻¹ * (16 : Nat) / (1 : Nat) -
      Real.arctan ((239 : Nat) : ℝ)⁻¹ * (4 : Nat) / (1 : Nat) = Real.pi := by
    have := Real.four_mul_arctan_inv_5_sub_arctan_inv_239
    push_cast
    linarith
  have h := ((holds_enclAtanInv w n (x := 5) (by decide)).scale 16 1).sub
    ((holds_enclAtanInv w n (x := 239) (by decide)).scale 4 1) (hmachin ▸ Real.pi_pos.le)
  rwa [hmachin] at h

/-! The Taylor sums. -/

/-- A Taylor sum encloses a number that is within its next term of it. -/
theorem holds_taylor {w : Nat} {x2 : Encl} {y v : ℝ} {div : Nat → Nat} {f : Nat → ℝ} (hx2 : x2.Holds w y)
    (hf : ∀ k, f (k + 1) = f k * y * (1 : Nat) / div k) (hv : 0 ≤ v) :
    ∀ n k term acc, term.Holds w (f k) → EnclDiff w acc (altSum f k) → |v - altSum f (k + n)| ≤ f (k + n) →
      (taylor w x2 div n k term acc).Holds w v
  | 0, _, _, (_, _), ht, hacc, hrem => hacc.widen ht hv hrem
  | n + 1, k, term, (plus, minus), ht, hacc, hrem => by
    rw [Nat.add_comm n, ← Nat.add_assoc] at hrem
    exact holds_taylor hx2 hf hv n (k + 1) _ _ (hf k ▸ (ht.mul hx2).scale 1 (div k)) (hacc.next ht) hrem

/-- The real function. -/
noncomputable def TrigFn.real : TrigFn → ℝ → ℝ
  | .cos => Real.cos
  | .sin => Real.sin

/-- The exponent of the `k`-th Taylor term. -/
def TrigFn.degree : TrigFn → Nat → Nat
  | .cos, k => 2 * k
  | .sin, k => 2 * k + 1

/-- The `k`-th Taylor term at `x`, without its sign. -/
noncomputable def TrigFn.term (f : TrigFn) (x : ℝ) (k : Nat) : ℝ := x ^ f.degree k / (f.degree k).factorial

theorem TrigFn.degree_succ (f : TrigFn) (k : Nat) : f.degree (k + 1) = f.degree k + 2 := by cases f <;> rfl

theorem TrigFn.hasSum_term (f : TrigFn) (x : ℝ) : HasSum (fun k => (-1) ^ k * f.term x k) (f.real x) := by
  cases f with
  | cos => simpa only [mul_div_assoc, TrigFn.term, TrigFn.degree, TrigFn.real] using Real.hasSum_cos x
  | sin => simpa only [mul_div_assoc, TrigFn.term, TrigFn.degree, TrigFn.real] using Real.hasSum_sin x

/-- Each term is the one before times `x²` over the next two numbers. -/
theorem TrigFn.term_succ (f : TrigFn) (x : ℝ) (k : Nat) :
    f.term x (k + 1) = f.term x k * (x * x) * (1 : Nat) / ((f.degree k + 1) * (f.degree k + 2) : Nat) := by
  rw [TrigFn.term, TrigFn.term, f.degree_succ, Nat.factorial_succ, Nat.factorial_succ]
  push_cast
  field_simp
  ring

/-- From the second term on the terms fall, for angles up to `π/2`. -/
theorem TrigFn.term_succ_le (f : TrigFn) {x : ℝ} (h0 : 0 ≤ x) (hx : x ≤ Real.pi / 2) {k : Nat} (hk : 1 ≤ k) :
    f.term x (k + 1) ≤ f.term x k := by
  have hterm : 0 ≤ f.term x k := by unfold TrigFn.term; positivity
  have hdeg : 2 ≤ f.degree k := by cases f <;> simp only [TrigFn.degree] <;> omega
  have hsq : x * x ≤ (f.degree k + 1) * (f.degree k + 2) := by
    have hx2 : x ≤ 2 := hx.trans (by linarith [Real.pi_le_four])
    have hdeg' : (2 : ℝ) ≤ f.degree k := by exact_mod_cast hdeg
    nlinarith
  rw [f.term_succ, Nat.cast_one, mul_one, mul_div_assoc]
  push_cast
  exact mul_le_of_le_one_right hterm (div_le_one_of_le₀ hsq (by positivity))

/-- From the first term on the remainder is at most the next term. -/
theorem TrigFn.abs_real_sub_altSum_le (f : TrigFn) {x : ℝ} (h0 : 0 ≤ x) (hx : x ≤ Real.pi / 2) {n : Nat} (hn : 1 ≤ n) :
    |f.real x - altSum (f.term x) n| ≤ f.term x n :=
  abs_sub_altSum_le (f.hasSum_term x) fun _ hk => f.term_succ_le h0 hx (hn.trans hk)

theorem TrigFn.real_nonneg (f : TrigFn) {x : ℝ} (h0 : 0 ≤ x) (hx : x ≤ Real.pi / 2) : 0 ≤ f.real x := by
  cases f with
  | cos => exact Real.cos_nonneg_of_neg_pi_div_two_le_of_le (by linarith) hx
  | sin => exact Real.sin_nonneg_of_nonneg_of_le_pi h0 (by linarith)

theorem TrigFn.real_le_one (f : TrigFn) (x : ℝ) : f.real x ≤ 1 := by
  cases f with
  | cos => exact Real.cos_le_one x
  | sin => exact Real.sin_le_one x

/-- The angle `π·a/b`. -/
noncomputable def angle (a b : Nat) : ℝ := Real.pi * a / b

theorem angle_nonneg (a b : Nat) : 0 ≤ angle a b := by unfold angle; positivity

theorem angle_le {a b : Nat} (hb : 0 < b) (hab : 2 * a ≤ b) : angle a b ≤ Real.pi / 2 := by
  have hab' : (2 * a : ℝ) ≤ b := by exact_mod_cast hab
  rw [angle, div_le_div_iff₀ (by exact_mod_cast hb) two_pos, mul_assoc, mul_comm (a : ℝ)]
  exact mul_le_mul_of_nonneg_left hab' Real.pi_pos.le

theorem angle_eq_pi_div_two {a b : Nat} (hb : 0 < b) (hab : 2 * a = b) : angle a b = Real.pi / 2 := by
  have ha : (a : ℝ) ≠ 0 := Nat.cast_ne_zero.2 (by omega)
  rw [angle, ← hab]
  push_cast
  field_simp

/-- Both Taylor sums, from a first term: their divisors are the next two numbers. -/
theorem holds_enclTrig (f : TrigFn) (w : Nat) {a b : Nat} (hb : 0 < b) (hab : 2 * a ≤ b) :
    (enclTrig f w a b).Holds w (f.real (angle a b)) := by
  have h0 := angle_nonneg a b
  have hx := angle_le hb hab
  have hangle : ((enclPi w (w / 4 + 2)).scale a b).Holds w (angle a b) := (holds_enclPi w _).scale a b
  have hrem := f.abs_real_sub_altSum_le h0 hx (n := 0 + (w / 4 + 2)) (by omega)
  cases f with
  | cos =>
    refine holds_taylor (hangle.mul hangle) (TrigFn.cos.term_succ _) (TrigFn.cos.real_nonneg h0 hx) _ 0 _ _ ?_
      (EnclDiff.start w _) hrem
    constructor <;> simp [TrigFn.term, TrigFn.degree]
  | sin =>
    refine holds_taylor (hangle.mul hangle) (TrigFn.sin.term_succ _) (TrigFn.sin.real_nonneg h0 hx) _ 0 _ _ ?_
      (EnclDiff.start w _) hrem
    simpa [TrigFn.term, TrigFn.degree] using hangle

end Sys2Proof.Machine

/-! SUPPORT. The seeds and the chirp values (R137, R142): what an enclosure decides is the correctly rounded value, and the
angle reduction of `cosSin` keeps the cosine and the sine but for their signs. -/

namespace Sys2Proof.Machine

/-! Rounding. -/

/-- What two numbers round to is what every number between them rounds to. -/
theorem RoundsTo.of_between {p : Prec} {m : Nat} {lo hi e : ℝ} (hlo : RoundsTo p lo m) (hhi : RoundsTo p hi m)
    (hle : lo ≤ e) (hge : e ≤ hi) : RoundsTo p e m := by
  refine ⟨fun k hk => ?_, ?_⟩
  · rcases hlo.1 k hk with hlt | ⟨heq, heven⟩
    · exact .inl (by linarith)
    · exact (heq.trans_le (by linarith)).lt_or_eq.imp_right fun h => ⟨h, heven⟩
  · rcases hhi.2 with hlt | ⟨heq, heven⟩
    · exact .inl (by linarith)
    · exact (show 2 * e ≤ midUnits p m by linarith).lt_or_eq.imp_right fun h => ⟨h, heven⟩

/-- A number of at most one is far below overflow. -/
theorem two_mul_unit_lt_overflowUnits {p : Prec} {v : ℝ} (hv : v ≤ 1) : 2 * (v * 2 ^ unitLog p) < overflowUnits p := by
  have hexp : unitLog p + 1 < fracBits p + expMax p - 1 := by cases p <;> decide
  have hlt : 2 ^ (unitLog p + 1) < overflowUnits p :=
    (Nat.pow_lt_pow_right (by decide) hexp).trans_le (unitsOf_infMag p ▸ unitsOf_infMag_le_overflowUnits p)
  calc 2 * (v * 2 ^ unitLog p) ≤ 2 * (1 * 2 ^ unitLog p) := by gcongr
    _ = ((2 ^ (unitLog p + 1) : Nat) : ℝ) := by push_cast; ring
    _ < overflowUnits p := Nat.cast_lt.2 hlt

/-- What both ends of an enclosure round to is what the number rounds to. -/
theorem roundsTo_of_enclRound {p : Prec} {w m : Nat} {e : Encl} {v : ℝ} (he : e.Holds w v) (hv : v ≤ 1)
    (h : enclRound p w e = some m) : RoundsTo p (v * 2 ^ unitLog p) m := by
  have hend : ∀ x : Nat, ((x <<< unitLog p : Nat) : ℝ) / ((2 ^ w : Nat) : ℝ) = x / 2 ^ w * 2 ^ unitLog p := fun x => by
    rw [Nat.shiftLeft_eq]
    push_cast
    ring
  have hw : (0 : ℝ) < 2 ^ w := by positivity
  have hlo : (e.lo / 2 ^ w * 2 ^ unitLog p : ℝ) ≤ v * 2 ^ unitLog p := by
    gcongr
    exact (div_le_iff₀ hw).2 he.lo_le
  have hhi : (v * 2 ^ unitLog p : ℝ) ≤ e.hi / 2 ^ w * 2 ^ unitLog p := by
    gcongr
    exact (le_div_iff₀ hw).2 he.le_hi
  obtain ⟨m₁, h₁, hm₁⟩ := exists_roundsTo_roundQuot p (e.lo <<< unitLog p) (Nat.two_pow_pos w)
  obtain ⟨m₂, h₂, hm₂⟩ := exists_roundsTo_roundQuot p (e.hi <<< unitLog p) (Nat.two_pow_pos w)
  rw [hend] at h₁ h₂
  have hfin : m₁ < infMag p := h₁.lt_infMag_iff.2 (by linarith [two_mul_unit_lt_overflowUnits (p := p) hv])
  simp only [enclRound, hm₁, hm₂, Option.ite_none_right_eq_some, Option.some.injEq] at h
  obtain ⟨heq, rfl⟩ := h
  obtain rfl : m₁ = m₂ := by omega
  rw [min_eq_left hfin.le]
  exact h₁.of_between h₂ hlo hhi

theorem RoundsTo.nearestUnits {p : Prec} {e : ℝ} {m : Nat} (h : RoundsTo p e m) (hfin : m < infMag p) :
    nearestUnits p m e := ⟨hfin, fun m' _ => (h.nearest m').1⟩

/-- The refinement ends with the rounding of an enclosure, unless none of its precisions decides. -/
theorem refine_spec (p : Prec) (f : TrigFn) (a b : Nat) : ∀ fuel w,
    (∀ k, k < fuel → enclRound p (w * 2 ^ k) (enclTrig f (w * 2 ^ k) a b) = none) ∨
      ∃ w', enclRound p w' (enclTrig f w' a b) = some (refine p f a b fuel w)
  | 0, _ => .inl nofun
  | fuel + 1, w => by
    rw [refine]
    cases hround : enclRound p w (enclTrig f w a b) with
    | some m => exact .inr ⟨w, hround⟩
    | none =>
      refine (refine_spec p f a b fuel (2 * w)).imp_left fun hnone k hk => ?_
      cases k with
      | zero => simpa using hround
      | succ k =>
        rw [pow_succ', ← Nat.mul_assoc, Nat.mul_comm w]
        exact hnone k (by omega)

theorem roundsTo_refine (p : Prec) (f : TrigFn) {a b : Nat} (hb : 0 < b) (hab : 2 * a ≤ b) :
    Undecided p f a b ∨ RoundsTo p (f.real (angle a b) * 2 ^ unitLog p) (refine p f a b 8 128) :=
  (refine_spec p f a b 8 128).imp_right fun ⟨w, hw⟩ =>
    roundsTo_of_enclRound (holds_enclTrig f w hb hab) (f.real_le_one _) hw

/-- The magnitude bits of a cosine or sine: an exact zero, or what the refinement decides. -/
theorem roundsTo_trigMag (p : Prec) (f : TrigFn) {a b : Nat} (hb : 0 < b) (hab : 2 * a ≤ b) :
    Undecided p f a b ∨ RoundsTo p (f.real (angle a b) * 2 ^ unitLog p) (trigMag p f a b) := by
  have href := roundsTo_refine p f hb hab
  cases f with
  | cos =>
    rw [trigMag]
    split
    · next hhalf =>
      rw [TrigFn.real, angle_eq_pi_div_two hb hhalf, Real.cos_pi_div_two, zero_mul]
      exact .inr (roundsTo_zero p)
    · exact href
  | sin =>
    rw [trigMag]
    split
    · next hzero =>
      rw [hzero, angle, Nat.cast_zero, mul_zero, zero_div, TrigFn.real, Real.sin_zero, zero_mul]
      exact .inr (roundsTo_zero p)
    · exact href

/-- A packed sign and magnitude is the signed cosine or sine, rounded. -/
theorem isRounded_trigMag (p : Prec) (f : TrigFn) {a b : Nat} (hb : 0 < b) (hab : 2 * a ≤ b) (s : Bool) {e : ℝ}
    (he : e = signFactor s * f.real (angle a b)) :
    Undecided p f a b ∨ IsRounded p (packMag p s (trigMag p f a b)) (e * 2 ^ unitLog p) := by
  refine (roundsTo_trigMag p f hb hab).imp_right fun h => ?_
  have hfin := h.lt_infMag_iff.2 (two_mul_unit_lt_overflowUnits (f.real_le_one _))
  have hpos := f.real_nonneg (angle_nonneg a b) (angle_le hb hab)
  have hround := h.isRounded (by positivity) s
  rwa [min_eq_left hfin.le, ← mul_assoc, ← he] at hround

/-! The reduction of the angle. -/

/-- The angle `π·q/n` reduced to `[0, π]`, as a multiple of `π/n`. -/
def halfTurn (q n : Nat) : Nat := if n < q % (2 * n) then 2 * n - q % (2 * n) else q % (2 * n)

/-- The angle `π·q/n` reduced to `[0, π/2]`, as a multiple of `π/n`. -/
def quarterTurn (q n : Nat) : Nat := if n < 2 * halfTurn q n then n - halfTurn q n else halfTurn q n

theorem cosSin_eq (p : Prec) (q n : Nat) :
    cosSin p q n =
      { re := packMag p (decide (n < 2 * halfTurn q n)) (trigMag p .cos (quarterTurn q n) n)
        im := packMag p (decide (n < q % (2 * n))) (trigMag p .sin (quarterTurn q n) n) } := rfl

theorem halfTurn_le {q n : Nat} (hn : 0 < n) : halfTurn q n ≤ n := by
  have := Nat.mod_lt q (show 0 < 2 * n by omega)
  unfold halfTurn
  split <;> omega

theorem two_mul_quarterTurn_le {q n : Nat} (hn : 0 < n) : 2 * quarterTurn q n ≤ n := by
  have := halfTurn_le (q := q) hn
  unfold quarterTurn
  split <;> omega

/-- An angle between `0` and `π/2` is its own reduction. -/
theorem quarterTurn_of_le {q n : Nat} (hq : 2 * q ≤ n) (hn : 0 < n) : quarterTurn q n = q := by
  have hmod : q % (2 * n) = q := Nat.mod_eq_of_lt (by omega)
  have hhalf : halfTurn q n = q := by rw [halfTurn, hmod, if_neg (by omega)]
  rw [quarterTurn, hhalf, if_neg (by omega)]

/-- Whole turns do not count. -/
theorem angle_mod {n : Nat} (hn : 0 < n) (q : Nat) :
    angle q n = angle (q % (2 * n)) n + (q / (2 * n) : Nat) * (2 * Real.pi) := by
  have hn' : (n : ℝ) ≠ 0 := by positivity
  have hq : (q : ℝ) = (q % (2 * n) : Nat) + 2 * n * (q / (2 * n) : Nat) := by exact_mod_cast (Nat.mod_add_div q (2 * n)).symm
  unfold angle
  generalize q % (2 * n) = r at hq
  generalize q / (2 * n) = k at hq
  rw [hq]
  field_simp

theorem cos_angle_mod {n : Nat} (hn : 0 < n) (q : Nat) : Real.cos (angle (q % (2 * n)) n) = Real.cos (angle q n) := by
  rw [angle_mod hn q, Real.cos_add_nat_mul_two_pi]

theorem sin_angle_mod {n : Nat} (hn : 0 < n) (q : Nat) : Real.sin (angle (q % (2 * n)) n) = Real.sin (angle q n) := by
  rw [angle_mod hn q, Real.sin_add_nat_mul_two_pi]

/-- The angle left of a multiple of `π`. -/
theorem angle_mul_sub {n t : Nat} (k : Nat) (hn : 0 < n) (ht : t ≤ k * n) :
    angle (k * n - t) n = k * Real.pi - angle t n := by
  have hn' : (n : ℝ) ≠ 0 := by positivity
  rw [angle, angle, Nat.cast_sub ht]
  push_cast
  field_simp

theorem angle_sub {n t : Nat} (hn : 0 < n) (ht : t ≤ n) : angle (n - t) n = Real.pi - angle t n := by
  simpa using angle_mul_sub 1 hn (by simpa using ht)

theorem cos_halfTurn {n : Nat} (hn : 0 < n) (q : Nat) : Real.cos (angle (halfTurn q n) n) = Real.cos (angle q n) := by
  rw [← cos_angle_mod hn q, halfTurn]
  split
  · rw [angle_mul_sub 2 hn (Nat.mod_lt q (by omega)).le, Nat.cast_two, Real.cos_two_pi_sub]
  · rfl

theorem sin_halfTurn {n : Nat} (hn : 0 < n) (q : Nat) :
    Real.sin (angle q n) = signFactor (decide (n < q % (2 * n))) * Real.sin (angle (halfTurn q n) n) := by
  rw [← sin_angle_mod hn q, halfTurn]
  split
  · next h => rw [angle_mul_sub 2 hn (Nat.mod_lt q (by omega)).le, Nat.cast_two, Real.sin_two_pi_sub]; simp [h]
  · next h => simp [h]

theorem cos_quarterTurn {n : Nat} (hn : 0 < n) (q : Nat) :
    Real.cos (angle q n) = signFactor (decide (n < 2 * halfTurn q n)) * Real.cos (angle (quarterTurn q n) n) := by
  rw [← cos_halfTurn hn q, quarterTurn]
  split
  · next h => rw [angle_sub hn (halfTurn_le hn), Real.cos_pi_sub]; simp [h]
  · next h => simp [h]

theorem sin_quarterTurn {n : Nat} (hn : 0 < n) (q : Nat) :
    Real.sin (angle q n) = signFactor (decide (n < q % (2 * n))) * Real.sin (angle (quarterTurn q n) n) := by
  rw [sin_halfTurn hn q, quarterTurn]
  split
  · rw [angle_sub hn (halfTurn_le hn), Real.sin_pi_sub]
  · rfl

/-- The reduced angle has the same cosine and sine but for their signs. -/
theorem abs_cos_sin_angle {n : Nat} (hn : 0 < n) (q : Nat) :
    |Real.cos (angle q n)| = Real.cos (angle (quarterTurn q n) n) ∧
      |Real.sin (angle q n)| = Real.sin (angle (quarterTurn q n) n) := by
  have h0 := angle_nonneg (quarterTurn q n) n
  have hx := angle_le hn (two_mul_quarterTurn_le (q := q) hn)
  rw [cos_quarterTurn hn q, sin_quarterTurn hn q, abs_signFactor_mul, abs_signFactor_mul]
  exact ⟨abs_of_nonneg (TrigFn.cos.real_nonneg h0 hx), abs_of_nonneg (TrigFn.sin.real_nonneg h0 hx)⟩

/-- Both parts of `cosSin` are the cosine and sine of the whole angle, rounded, unless undecided at the reduced angle. -/
theorem isRounded_cosSin (p : Prec) {n : Nat} (hn : 0 < n) (q : Nat) :
    (Undecided p .cos (quarterTurn q n) n ∨
      IsRounded p (cosSin p q n).re (Real.cos (angle q n) * 2 ^ unitLog p)) ∧
    (Undecided p .sin (quarterTurn q n) n ∨
      IsRounded p (cosSin p q n).im (Real.sin (angle q n) * 2 ^ unitLog p)) := by
  have hle := two_mul_quarterTurn_le (q := q) hn
  rw [cosSin_eq]
  exact ⟨isRounded_trigMag p .cos hn hle _ (cos_quarterTurn hn q),
    isRounded_trigMag p .sin hn hle _ (sin_quarterTurn hn q)⟩

theorem twSeed_of_none {P : Params} {H : Nat} (h : P.seeds.lookup H = none) : twSeed P H = cosSin P.prec 1 H := by
  rw [twSeed, h]

theorem chirpVal_of_none {P : Params} {i N : Nat} (h : P.chirps.lookup (i, N) = none) :
    chirpVal P i N = cosSin P.prec (i * i % (2 * N)) N := by
  rw [chirpVal, h]

/-- Settles O29: enclosures hold, so what they decide is right at the reduced angle, and the reduction keeps the cosine and
the sine but for their signs. -/
theorem trigValuesRoundCorrectly : Obligations.TrigValuesRoundCorrectly := by
  refine ⟨fun p w a b m hb hab => ⟨fun h hm => ?_, fun h hm => ?_⟩, fun p q n hn => ?_, fun P H hH hnone => ?_,
    fun P N i h1 hi hnone => ?_⟩
  · exact (roundsTo_of_enclRound (holds_enclTrig .cos w hb hab) (Real.cos_le_one _) h).nearestUnits hm
  · exact (roundsTo_of_enclRound (holds_enclTrig .sin w hb hab) (Real.sin_le_one _) h).nearestUnits hm
  · obtain ⟨hcos, hsin⟩ := abs_cos_sin_angle hn q
    exact ⟨quarterTurn q n, two_mul_quarterTurn_le hn, hcos, hsin, isRounded_cosSin p hn q⟩
  · have hseed := isRounded_cosSin P.prec (n := H) (by omega) 1
    rw [quarterTurn_of_le (by omega) (by omega), ← twSeed_of_none hnone, angle, Nat.cast_one, mul_one] at hseed
    exact hseed
  · have hN : 0 < N := by omega
    have hangle : Real.pi * i ^ 2 / N = angle (i * i) N := by rw [angle, Nat.cast_mul, pow_two]
    obtain ⟨hcos, hsin⟩ := abs_cos_sin_angle hN (i * i % (2 * N))
    have hround := isRounded_cosSin P.prec hN (i * i % (2 * N))
    rw [cos_angle_mod hN] at hcos hround
    rw [sin_angle_mod hN] at hsin hround
    rw [hangle, chirpVal_of_none hnone]
    exact ⟨_, two_mul_quarterTurn_le hN, hcos, hsin, hround⟩

end Sys2Proof.Machine

/-! SUPPORT. One butterfly call on its own (R150, R152, R154), and the scheduler's run seen pass by pass (R155, R156): each
pass writes one buffer and keeps the other, so after the last pass the buffers hold the last two arrays. -/

namespace Sys2Proof.Machine

/-! One butterfly call. -/

section ButterflyCall

variable (p : Prec) (tw y x : List Cplx) {hs ns pd si : Nat} (d : Nat)

/-- A pair of call `si` is a pair of the pass. -/
theorem mem_passPairs_of_call {o : Nat × Nat} (hsi : si < pd) (ho : o ∈ (List.range ns).map fun k => (si, k)) :
    o ∈ passPairs ns pd := by
  obtain ⟨k, hk, rfl⟩ := List.mem_map.1 ho
  exact mem_passPairs.2 ⟨hsi, List.mem_range.1 hk⟩

/-- The two places of a pair of a pass are different places of the destination (R154). -/
theorem passPlaces_lt {o : Nat × Nat} (ho : o ∈ passPairs ns pd) : passLo (2 * pd) o < 2 * (ns * pd) ∧
    passHi (2 * pd) pd o < 2 * (ns * pd) ∧ passLo (2 * pd) o ≠ passHi (2 * pd) pd o := by
  have hhi := passHi_lt ho
  obtain ⟨hsi, -⟩ := mem_passPairs.1 ho
  simp only [passLo, passHi] at hhi ⊢
  omega

@[simp] theorem length_ctb (si hs ns ss pd : Nat) :
    (runDraw (ctb p tw y x si hs ns ss pd) d).1.length = y.length := by
  rw [ctb_eq_writePairs, length_writePairs]

theorem elem_ctb_of_unwritten (hs : Nat) {ss j : Nat} (hj : ∀ k, k < ns → j ≠ si + k * ss ∧ j ≠ si + k * ss + pd) :
    elem (runDraw (ctb p tw y x si hs ns ss pd) d).1 j = elem y j := by
  rw [ctb_eq_writePairs]
  refine elem_writePairs_of_unwritten _ _ _ (fun o ho => ?_) y d
  obtain ⟨k, hk, rfl⟩ := List.mem_map.1 ho
  obtain ⟨hlo, hhi⟩ := hj k (List.mem_range.1 hk)
  exact ⟨hlo.symm, hhi.symm⟩

/-- The places of each pair of a call hold its butterfly, because no other pair of the call writes them (R152). -/
theorem isButterfly_ctb {y : List Cplx} (hns : ns * pd = hs) (hsi : si < pd) (hy : y.length = 2 * hs) {k : Nat}
    (hk : k < ns) :
    IsButterfly p (elem tw (k * pd)) (elem x (si + k * pd)) (elem x (si + k * pd + hs))
      (elem (runDraw (ctb p tw y x si hs ns (2 * pd) pd) d).1 (si + k * (2 * pd)))
      (elem (runDraw (ctb p tw y x si hs ns (2 * pd) pd) d).1 (si + k * (2 * pd) + pd)) := by
  subst hns
  rw [ctb_eq_writePairs]
  exact gives_butterfly (gives_writePairs (passButterfly p tw x (ns * pd) pd) (passLo (2 * pd)) (passHi (2 * pd) pd)
    (fun o ho => passPlaces_lt (mem_passPairs_of_call hsi ho))
    (fun o ho o' ho' => passPlaces_ne (mem_passPairs_of_call hsi ho) (mem_passPairs_of_call hsi ho')) y d hy (si, k)
    (List.mem_map.2 ⟨k, List.mem_range.2 hk, rfl⟩))

end ButterflyCall

/-- Settles O38: a call is a loop of pair writes at places of its own. -/
theorem butterflyCall : Obligations.ButterflyCall := by
  intro p tw y x hs ns pd si d _ hns hsi hy
  exact ⟨length_ctb .., fun k hk => isButterfly_ctb p tw x d hns hsi hy hk,
    fun j hj => elem_ctb_of_unwritten p tw y x d hs hj, isPass_pass p tw x hns hy d⟩

/-! The scheduler's run, pass by pass. -/

/-- `ns` is `2^(q-n)` before pass `n`. -/
theorem Sched.atPass_ns_ne_zero {q n : Nat} (hn : n ≤ q) : (Sched.atPass (2 ^ q) n).ns ≠ 0 := by
  rw [atPass_ns, Nat.pow_div hn (by decide)]
  exact (Nat.two_pow_pos _).ne'

/-- The array the next pass overwrites: the one the last pass read. -/
def PingPong.previous (b : PingPong) : List Cplx := if b.sched.sf then b.sa else b.ba

theorem ditnnPass_sched (p : Prec) (tw : List Cplx) (hs : Nat) (b : PingPong) (d : Nat) :
    (runDraw (ditnnPass p tw hs b) d).1.sched = b.sched.advance := by
  cases hsf : b.sched.sf <;> simp [ditnnPass, hsf]

/-- A pass keeps the buffer it reads (R155). -/
theorem ditnnPass_previous (p : Prec) (tw : List Cplx) (hs : Nat) (b : PingPong) (d : Nat) :
    (runDraw (ditnnPass p tw hs b) d).1.previous = b.current := by
  cases hsf : b.sched.sf <;> simp [ditnnPass, PingPong.previous, PingPong.current, Sched.advance, hsf]

/-- With fuel for one more pass, the loop makes that pass last, unless it has ended before. -/
theorem ditnnLoop_succ (p : Prec) (tw : List Cplx) (hs n : Nat) :
    ∀ b, ditnnLoop p tw hs (n + 1) b = ditnnLoop p tw hs n b >>= ditnnLoop p tw hs 1 := by
  induction n with
  | zero => exact fun _ => (pure_bind _ _).symm
  | succ n ih =>
    intro b
    by_cases hns : b.sched.ns = 0
    · simp [ditnnLoop, hns]
    · rw [ditnnLoop, if_neg hns, ditnnLoop, if_neg hns, bind_assoc]
      exact bind_congr ih

section Scheduler

variable (p : Prec) (tw sa ba : List Cplx)

/-- The run of the scheduler on `SA` and `BA` after at most `n` passes of half-size `hs`. -/
def ditnnAfter (hs d n : Nat) : PingPong × Nat :=
  runDraw (ditnnLoop p tw hs n { sa := sa, ba := ba, sched := Sched.start hs }) d

theorem runDraw_ditnn (q d : Nat) : runDraw (ditnn p tw sa ba (2 ^ q)) d = ditnnAfter p tw sa ba (2 ^ q) d (q + 1) := by
  rw [ditnn, Nat.log2_two_pow, ditnnAfter]

theorem ditnnAfter_succ_of_ns {hs d n : Nat} (hns : (ditnnAfter p tw sa ba hs d n).1.sched.ns ≠ 0) :
    ditnnAfter p tw sa ba hs d (n + 1) =
      runDraw (ditnnPass p tw hs (ditnnAfter p tw sa ba hs d n).1) (ditnnAfter p tw sa ba hs d n).2 := by
  rw [ditnnAfter, ditnnLoop_succ, runDraw_bind, ← ditnnAfter, ditnnLoop, if_neg hns]
  rfl

variable {q : Nat} (d : Nat)

/-- The loop does not end before its `q + 1` passes (R156). -/
theorem ditnnAfter_sched {n : Nat} (hn : n ≤ q + 1) :
    (ditnnAfter p tw sa ba (2 ^ q) d n).1.sched = Sched.atPass (2 ^ q) n := by
  induction n with
  | zero => rfl
  | succ n ih =>
    have hsched := ih (by omega)
    have hns := hsched ▸ Sched.atPass_ns_ne_zero (show n ≤ q by omega)
    rw [ditnnAfter_succ_of_ns p tw sa ba hns, ditnnPass_sched, hsched, Sched.atPass_succ]

theorem ditnnAfter_succ {n : Nat} (hn : n ≤ q) : ditnnAfter p tw sa ba (2 ^ q) d (n + 1) =
    runDraw (ditnnPass p tw (2 ^ q) (ditnnAfter p tw sa ba (2 ^ q) d n).1) (ditnnAfter p tw sa ba (2 ^ q) d n).2 :=
  ditnnAfter_succ_of_ns p tw sa ba
    (ditnnAfter_sched p tw sa ba d (by omega : n ≤ q + 1) ▸ Sched.atPass_ns_ne_zero hn)

/-- The array after `n` passes. -/
def ditnnArray (hs n : Nat) : List Cplx := (ditnnAfter p tw sa ba hs d n).1.current

theorem ditnnAfter_previous {n : Nat} (hn : n ≤ q) :
    (ditnnAfter p tw sa ba (2 ^ q) d (n + 1)).1.previous = ditnnArray p tw sa ba d (2 ^ q) n := by
  rw [ditnnAfter_succ p tw sa ba d hn, ditnnPass_previous, ditnnArray]

/-- Each array is the pass of R155 from the array before it. -/
theorem isPass_ditnnArray {sa ba : List Cplx} (hsa : sa.length = 2 * 2 ^ q) (hba : ba.length = 2 * 2 ^ q) {j : Nat}
    (hj : j ≤ q) : IsPass p tw (ditnnArray p tw sa ba d (2 ^ q) j) (ditnnArray p tw sa ba d (2 ^ q) (j + 1)) (2 ^ q)
      (2 ^ (q - j)) (2 ^ j) := by
  have hsized : (ditnnAfter p tw sa ba (2 ^ q) d j).1.Sized (2 * 2 ^ q) :=
    (ditnnLoop_run (p := p) (tw := tw) j (j := 0) (b := { sa := sa, ba := ba, sched := Sched.start (2 ^ q) }) (by omega)
      ⟨hsa, hba⟩ rfl d).sized
  have hrun := (ditnnPass_run (p := p) (tw := tw) hj hsized (ditnnAfter_sched p tw sa ba d (by omega))
    (ditnnAfter p tw sa ba (2 ^ q) d j).2).run
  simp only [passesFrom, bind_pure] at hrun
  have hnext : ditnnArray p tw sa ba d (2 ^ q) (j + 1) = (runDraw (passFrom p tw (2 ^ q) j
      (ditnnArray p tw sa ba d (2 ^ q) j)) (ditnnAfter p tw sa ba (2 ^ q) d j).2).1 := by
    rw [ditnnArray, ditnnAfter_succ p tw sa ba d hj]
    exact congrArg Prod.fst hrun
  rw [hnext]
  exact isPass_passFrom hj _

/-- Where the last two arrays stand, by the parity of the passes (R156). -/
theorem ditnnAfter_buffers : let r := (ditnnAfter p tw sa ba (2 ^ q) d (q + 1)).1
    (q % 2 = 0 → r.ba = ditnnArray p tw sa ba d (2 ^ q) (q + 1) ∧ r.sa = ditnnArray p tw sa ba d (2 ^ q) q) ∧
      (q % 2 = 1 → r.sa = ditnnArray p tw sa ba d (2 ^ q) (q + 1) ∧ r.ba = ditnnArray p tw sa ba d (2 ^ q) q) := by
  have hprev := ditnnAfter_previous p tw sa ba d (le_refl q)
  have hsf : (ditnnAfter p tw sa ba (2 ^ q) d (q + 1)).1.sched.sf = decide ((q + 1) % 2 = 1) := by
    rw [ditnnAfter_sched p tw sa ba d (le_refl _), Sched.atPass_sf]
  rw [PingPong.previous, hsf] at hprev
  refine ⟨fun hq => ?_, fun hq => ?_⟩
  · have hodd : (q + 1) % 2 = 1 := by omega
    exact ⟨by simp [ditnnArray, PingPong.current, hsf, hodd], by simpa [hodd] using hprev⟩
  · have heven : (q + 1) % 2 ≠ 1 := by omega
    exact ⟨by simp [ditnnArray, PingPong.current, hsf, heven], by simpa [heven] using hprev⟩

end Scheduler

/-- The scheduler makes no pass for `hs = 0` (R156). -/
theorem ditnn_zero (p : Prec) (tw sa ba : List Cplx) :
    ditnn p tw sa ba 0 = pure { sa := sa, ba := ba, sched := Sched.start 0 } := rfl

/-- Settles O39: the arrays are those read after each number of passes. -/
theorem schedulerPasses : Obligations.SchedulerPasses := by
  intro p tw sa ba q d
  have hsched := ditnnAfter_sched p tw sa ba d (le_refl (q + 1))
  refine ⟨⟨_, rfl, ?_⟩, by rw [ditnn_zero, runDraw_pure], by rw [ditnn_zero, runDraw_pure]⟩
  rw [runDraw_ditnn, hsched, Sched.atPass_ns, Sched.atPass_pd, Sched.atPass_ss, Sched.atPass_sf]
  refine ⟨Nat.div_eq_of_lt (Nat.pow_lt_pow_succ (by decide)), rfl, (pow_succ' 2 (q + 1)).symm, rfl, fun hsa hba => ?_⟩
  rw [pow_succ'] at hsa hba
  exact ⟨ditnnArray p tw sa ba d (2 ^ q), rfl, fun j hj => isPass_ditnnArray p tw d hsa hba hj,
    ditnnAfter_buffers p tw sa ba d⟩

end Sys2Proof.Machine

/-! SUPPORT. The kernel commands (R170 to R176): no other command and no host action changes the kernel (R174); the gating of
the two configurations, and the kernel context each completion leaves. -/

namespace Sys2Proof.Machine

/-! What keeps the kernel (R174). -/

/-- Only the three kernel commands have an effect on the kernel. -/
theorem effectOf_kernel (s : State) (i : Instr) (u : State) :
    (effectOf s i u).kernel = u.kernel ∨ i = .cfgR2 ∨ i = .cfgBs ∨ i = .release := by
  cases i
  case cfgR2 => exact .inr (.inl rfl)
  case cfgBs => exact .inr (.inr (.inl rfl))
  case release => exact .inr (.inr (.inr rfl))
  case fft => exact .inl (transformEffect_kernel ..)
  case ifft => exact .inl (transformEffect_kernel ..)
  case fftCopyC => exact .inl (transformEffect_kernel ..)
  case fftCopyR => exact .inl (transformEffect_kernel ..)
  case ifftCopyC => exact .inl (transformEffect_kernel ..)
  case ifftCopyR => exact .inl (transformEffect_kernel ..)
  case fftshiftC => exact .inl (shiftEffect_kernel ..)
  case fftshiftR => exact .inl (shiftEffect_kernel ..)
  case fftfreq => exact .inl (freqEffect_kernel ..)
  case fftampl => exact .inl (amplEffect_kernel ..)

/-- A completion keeps the kernel, or is one of the three kernel commands with `OK`. -/
theorem exec_kernel {i : Instr} {s t : State} (h : exec i s = .next t) :
    t.kernel = s.kernel ∨ (t.status.err = .ok ∧ (i = .cfgR2 ∨ i = .cfgBs ∨ i = .release)) := by
  rcases exec_cases h with ⟨-, rfl⟩ | ⟨-, rfl⟩
  · exact (effectOf_kernel s i s).imp id fun hi => ⟨rfl, hi⟩
  · exact .inl rfl

/-- The CORE's step keeps the kernel, or completes a latched kernel command with `OK`. -/
theorem coreStep_kernel {s t : State} (h : coreStep s = .next t) :
    t.kernel = s.kernel ∨ (t.status.err = .ok ∧ ∃ l, s.latch = some l ∧
      (decode l.v = some .cfgR2 ∨ decode l.v = some .cfgBs ∨ decode l.v = some .release)) := by
  rcases coreStep_cases h with ⟨-, rfl⟩ | ⟨l, -, -, rfl⟩ | ⟨l, i, hl, hi, hexec⟩
  · exact .inl rfl
  · exact .inl rfl
  · refine (exec_kernel hexec).imp id fun ⟨herr, hkind⟩ => ⟨herr, l, hl, ?_⟩
    simpa [hi] using hkind

@[simp] theorem hostMemLoad_kernel (s : State) (a n : Nat) : (hostMemLoad s a n).kernel = s.kernel := by
  unfold hostMemLoad
  split <;> rfl

theorem writeReg_kernel (s : State) (v : Word) (r : Reg) : (writeReg s v r).kernel = s.kernel := by
  rcases writeReg_cases s v r with h | ⟨-, -, h⟩ | ⟨-, -, h⟩
  · rw [h]
  · rw [h, State.protocolFault_kernel]
  · rw [h]
    cases r <;> rfl

/-- No host action changes the kernel (R174). -/
theorem hostAct_kernel {s t : State} (h : hostAct s = .next t) : t.kernel = s.kernel := by
  rcases hostAct_cases h with rfl | ⟨addr, bytes, rest, -, h⟩ | ⟨addr, n, rest, -, h⟩ | ⟨a, rest, -, -, -, rfl | rfl⟩
  · rfl
  · rcases hostStore_cases h with ⟨off, -, rfl⟩ | ⟨-, rfl⟩
    · exact writeReg_kernel _ _ _
    · exact hostMemStore_kernel _ _ _
  · rcases hostLoad_cases h with ⟨off, -, rfl⟩ | ⟨-, rfl⟩
    · rfl
    · exact hostMemLoad_kernel _ _ _
  · rfl
  · rfl

/-- Settles O24: of the three agents' moves only the CORE's completions and reset touch the kernel. -/
theorem kernelChangesOnlyByKernelCommands : Obligations.KernelChangesOnlyByKernelCommands := by
  intro s t h hne
  rcases step_cases h with ⟨-, h⟩ | ⟨hcore, h⟩ | ⟨hplatform, -⟩
  · exact absurd (hostAct_kernel h) hne
  · rcases coreStep_kernel h with hkeep | ⟨herr, hcmd⟩
    · exact absurd hkeep hne
    · exact .inr ⟨hcore, herr, hcmd⟩
  · exact .inl hplatform

/-! The gating of the configurations. -/

theorem two_pow_lt_cast_iff {N c : Nat} (hN : 1 ≤ N) : (2 : Int) ^ c < 2 * ((N : Int) - 1) ↔ 2 ^ c < 2 * (N - 1) := by
  zify [hN]

/-- A configuration's two checks: the size, then the capacity (R242). -/
theorem firstFailing_gating (b c : Bool) :
    (firstFailing [(b, .domainError), (c, .capacityError)] = .domainError ↔ b = true) ∧
      (firstFailing [(b, .domainError), (c, .capacityError)] = .capacityError ↔ b = false ∧ c = true) ∧
      (firstFailing [(b, .domainError), (c, .capacityError)] = .ok ↔ b = false ∧ c = false) := by
  revert b c
  decide

theorem cmax_lt_two_pow_iff {P : Params} {q : Nat} : cmax P < 2 ^ q ↔ P.log2Cmax < q :=
  Nat.pow_lt_pow_iff_right (by decide)

/-- A Bluestein engine is above `CMAX` exactly when `2(N-1)` is: `CMAX` is a power of two (R35, R171). -/
theorem cmax_lt_bluesteinSize_iff {P : Params} {N : Nat} (h3 : 3 ≤ N) (hN : N < 2 ^ 63) :
    cmax P < bluesteinSize N ↔ cmax P < 2 * (N - 1) := by
  obtain ⟨q, hq, hle, hlt⟩ := bluesteinSize_eq_two_pow h3 hN
  rw [hq]
  refine ⟨fun h => ?_, fun h => h.trans_le hle⟩
  have hpow : 2 * cmax P ≤ 2 ^ q := by
    rw [cmax, ← pow_succ']
    exact Nat.pow_le_pow_right (by decide) (cmax_lt_two_pow_iff.1 h)
  omega

theorem bluesteinSize_eq_of_bounds {N q : Nat} (h3 : 3 ≤ N) (hN : N < 2 ^ 63) (hle : 2 * (N - 1) ≤ 2 ^ q)
    (hlt : 2 ^ q < 4 * (N - 1)) : bluesteinSize N = 2 ^ q := by
  obtain ⟨r, hr, hle', hlt'⟩ := bluesteinSize_eq_two_pow h3 hN
  have hqr : 2 ^ q < 2 ^ (r + 1) := by rw [pow_succ]; omega
  have hrq : 2 ^ r < 2 ^ (q + 1) := by rw [pow_succ]; omega
  rw [Nat.pow_lt_pow_iff_right (by decide)] at hqr hrq
  rw [hr, show r = q by omega]

theorem kernelSize_lt (l : Latch) : kernelSize l < 2 ^ 63 := BitVec.toInt_lt

/-- An operand size that is not negative is a natural number below `2^63`. -/
theorem kernelSize_eq_natCast {l : Latch} (h : 0 ≤ kernelSize l) : ∃ N : Nat, kernelSize l = N ∧ N < 2 ^ 63 := by
  obtain ⟨N, hN⟩ := Int.eq_ofNat_of_zero_le h
  have := kernelSize_lt l
  exact ⟨N, hN, by omega⟩

section Codes

variable {s : State} {l : Latch}

theorem cfgR2Code_eq_domainError_iff : cfgR2Code s l = .domainError ↔ ¬∃ q : Nat, kernelSize l = 2 ^ q := by
  rw [cfgR2Code, (firstFailing_gating _ _).1, Bool.not_eq_true', ← ispow2_iff, Bool.not_eq_true]

theorem cfgR2Code_eq_capacityError_iff :
    cfgR2Code s l = .capacityError ↔ ∃ q : Nat, kernelSize l = 2 ^ q ∧ s.params.log2Cmax < q := by
  rw [cfgR2Code, (firstFailing_gating _ _).2.1, Bool.not_eq_false', ispow2_iff, decide_eq_true_eq, ← exists_and_right]
  refine exists_congr fun q => and_congr_right fun hq => ?_
  rw [hq, ← cmax_lt_two_pow_iff]
  norm_cast

theorem cfgBsCode_eq_domainError_iff :
    cfgBsCode s l = .domainError ↔ kernelSize l < 3 ∨ ∃ q : Nat, kernelSize l = 2 ^ q := by
  rw [cfgBsCode, (firstFailing_gating _ _).1, Bool.or_eq_true, decide_eq_true_eq, ispow2_iff]

theorem cfgBsCode_eq_capacityError_iff :
    cfgBsCode s l = .capacityError ↔ 3 ≤ kernelSize l ∧ (¬∃ q : Nat, kernelSize l = 2 ^ q) ∧
      (2 : Int) ^ s.params.log2Cmax < 2 * (kernelSize l - 1) := by
  rw [cfgBsCode, (firstFailing_gating _ _).2.1, Bool.or_eq_false_iff, decide_eq_false_iff_not, not_lt, decide_eq_true_eq,
    ← Bool.not_eq_true, ispow2_iff, and_assoc]
  refine and_congr_right fun h3 => and_congr_right fun _ => ?_
  obtain ⟨N, hN, hlt⟩ := kernelSize_eq_natCast (l := l) (by omega)
  rw [hN] at h3 ⊢
  rw [Int.toNat_natCast, cmax_lt_bluesteinSize_iff (by omega) hlt, two_pow_lt_cast_iff (by omega), cmax]

/-- CFG_R2 passes its checks on a power of two that fits (R170). -/
theorem cfgR2Code_of_two_pow {q : Nat} (hN : kernelSize l = 2 ^ q) (hq : q ≤ s.params.log2Cmax) :
    cfgR2Code s l = .ok := by
  rw [cfgR2Code, (firstFailing_gating _ _).2.2, Bool.not_eq_false', ispow2_iff, decide_eq_false_iff_not, not_lt, hN]
  exact ⟨⟨q, rfl⟩, by exact_mod_cast two_pow_le_cmax_iff.2 hq⟩

/-- CFG_BS passes its checks on an `N ≥ 3`, no power of two, whose engine fits (R171). -/
theorem cfgBsCode_of_fits {N : Nat} (hN : kernelSize l = N) (h3 : 3 ≤ N) (hpow : ∀ j, N ≠ 2 ^ j)
    (hfit : bluesteinSize N ≤ cmax s.params) : cfgBsCode s l = .ok := by
  have hpow' : ¬∃ j : Nat, (N : Int) = 2 ^ j := fun ⟨j, hj⟩ => hpow j (by exact_mod_cast hj)
  rw [cfgBsCode, (firstFailing_gating _ _).2.2, Bool.or_eq_false_iff, decide_eq_false_iff_not, decide_eq_false_iff_not,
    ← Bool.not_eq_true, ispow2_iff, hN, Int.toNat_natCast]
  exact ⟨⟨by omega, hpow'⟩, by omega⟩

end Codes

theorem exec_status_err {i : Instr} {s t : State} (h : exec i s = .next t) :
    t.status.err = statusCode s s.inFlight i := (completes_of_exec h).err

/-- A command that completes with an error keeps the kernel (R176, R241). -/
theorem exec_kernel_of_error {i : Instr} {s t : State} (h : exec i s = .next t) (herr : t.status.err ≠ .ok) :
    t.kernel = s.kernel :=
  (exec_kernel h).resolve_right fun ⟨hok, _⟩ => herr hok

/-- Settles O22: the codes are those of the two check lists, and an error keeps the kernel. -/
theorem configurationGating : Obligations.ConfigurationGating := by
  intro s t N
  refine ⟨fun h => ?_, fun h => ?_⟩
  · refine ⟨?_, ?_, exec_kernel_of_error h⟩ <;> rw [exec_status_err h]
    · exact cfgR2Code_eq_domainError_iff
    · exact cfgR2Code_eq_capacityError_iff
  · refine ⟨?_, ?_, exec_kernel_of_error h⟩ <;> rw [exec_status_err h]
    · exact cfgBsCode_eq_domainError_iff
    · exact cfgBsCode_eq_capacityError_iff

/-! The kernel a completion leaves. -/

/-- A command that passes its checks completes with `OK`, in the state its effect leaves. -/
theorem exec_completes_of_ok {i : Instr} {s : State} (hok : statusCode s s.inFlight i = .ok) :
    exec i s = .next ((effectOf s i s).complete .ok) ∧ Completes s ((effectOf s i s).complete .ok) .ok :=
  ⟨exec_of_ok hok, (effectOf_same s i s).completes .ok⟩

/-- Settles O20: the checks pass, and an operand of 64 bits keeps `q` within what `pwr2` answers exactly. -/
theorem cfgR2MakesKernel : Obligations.CfgR2MakesKernel := by
  intro s q hN hq
  obtain ⟨hexec, hc⟩ := exec_completes_of_ok (i := .cfgR2) (cfgR2Code_of_two_pow hN hq)
  have hsize : kernelSize s.inFlight = ((2 ^ q : Nat) : Int) := by exact_mod_cast hN
  have h63 : 2 ^ q < 2 ^ 63 := by exact_mod_cast hsize ▸ kernelSize_lt s.inFlight
  have hq63 : q < 63 := (Nat.pow_lt_pow_iff_right (by decide)).1 h63
  refine ⟨_, hexec, hc, ?_, rfl, rfl, rfl⟩
  change (cfgR2Effect s.inFlight s).kernel = _
  rw [cfgR2Effect, hsize, Int.toNat_natCast, configure_kernel (by omega), mkKernel]

/-- Settles O21: the two bounds fix the engine size the command computes. -/
theorem cfgBsMakesKernel : Obligations.CfgBsMakesKernel := by
  intro s N q hP hN h3 hpow hle hlt hq
  replace hN : kernelSize s.inFlight = N := hN
  have h63 : N < 2 ^ 63 := by exact_mod_cast hN ▸ kernelSize_lt s.inFlight
  have hM : bluesteinSize N = 2 ^ q := bluesteinSize_eq_of_bounds h3 h63 hle hlt
  have hq62 : q ≤ 62 := hq.trans (Params.wf_log2Cmax_le hP)
  obtain ⟨hexec, hc⟩ := exec_completes_of_ok (i := .cfgBs)
    (cfgBsCode_of_fits hN h3 hpow (hM ▸ two_pow_le_cmax_iff.2 hq))
  refine ⟨_, hexec, hc, ?_, rfl, rfl, rfl⟩
  change (cfgBsEffect s.inFlight s).kernel = _
  rw [cfgBsEffect, hN, Int.toNat_natCast, hM, configure_kernel (by omega), mkKernel]

/-- Settles O23: RELEASE has no check, and its effect puts `Kernel.absent` in place. -/
theorem releaseRemovesKernel : Obligations.ReleaseRemovesKernel := by
  intro s
  obtain ⟨hexec, hc⟩ := exec_completes_of_ok (i := .release) (s := s) rfl
  exact ⟨_, hexec, hc, rfl, rfl, rfl, rfl, rfl, rfl⟩

end Sys2Proof.Machine

/-! SUPPORT. The Bluestein convolver step by step (R191, R192), and the transform commands (R190 to R198): the engine run
of a transform gives the transform its kernel asks for, and its destination holds the result. -/

namespace Sys2Proof.Machine

/-! Runs of computations in sequence. -/

/-- A run of two computations in sequence is a run of the first and then one of the second. -/
theorem exists_runs_of_bind {α β : Type} {x : Draw α} {f : α → Draw β} {d : Nat} {r : β × Nat}
    (h : runDraw (x >>= f) d = r) : ∃ a d', runDraw x d = (a, d') ∧ runDraw (f a) d' = r := ⟨_, _, rfl, h⟩

/-- Each element of an array computed index by index is what the operation gives at its index. -/
theorem gives_elem_mapDraw_range {f : Nat → Draw Cplx} {n d d' i : Nat} {y : List Cplx}
    (h : runDraw (mapDraw f (List.range n)) d = (y, d')) (hi : i < n) : Gives (f i) (elem y i) := by
  obtain rfl : (runDraw (mapDraw f (List.range n)) d).1 = y := congrArg Prod.fst h
  have hgives := gives_getElem_mapDraw f (x := List.range n) (by simpa using hi) d
  rw [List.getElem_range] at hgives
  rwa [elem_eq_getElem (by simpa using hi)]

theorem length_of_mapDraw_range {f : Nat → Draw Cplx} {n d d' : Nat} {y : List Cplx}
    (h : runDraw (mapDraw f (List.range n)) d = (y, d')) : y.length = n := by
  obtain rfl : (runDraw (mapDraw f (List.range n)) d).1 = y := congrArg Prod.fst h
  simp

theorem elem_append_left {x y : List Cplx} {i : Nat} (h : i < x.length) : elem (x ++ y) i = elem x i := by
  simp [elem, List.getD_eq_getElem?_getD, List.getElem?_append_left h]

/-- Padding is zeros. -/
theorem elem_append_replicate_cZero {x : List Cplx} {n i : Nat} (h : x.length ≤ i) :
    elem (x ++ List.replicate n cZero) i = cZero := by
  rw [elem, List.getD_eq_getElem?_getD, List.getElem?_append_right h, List.getElem?_replicate]
  split <;> rfl

/-! The convolver. -/

/-- Either division by the chirp is the one of R192. -/
theorem gives_bsdiv {P : Params} {x c z : Cplx} (h : Gives (bsdiv P x c) z) : IsBsdiv P x c z := by
  unfold bsdiv at h
  unfold IsBsdiv
  cases hmode : P.bsDivMode with
  | mulConj =>
    rw [hmode] at h
    exact ⟨conj P.prec c, ⟨rfl, rfl⟩, gives_cmul h⟩
  | divide =>
    rw [hmode] at h
    obtain ⟨d, rfl⟩ := h
    rfl

/-- A run of the forward operation answers the transform of R158 and leaves scratch of the same size. -/
theorem isFwd_of_fwdR2 {p : Prec} {tw x s : List Cplx} {q E d d' : Nat} {ifswap : Bool} {r : EngineOut}
    (hrun : runDraw (fwdR2 p tw x s E ifswap) d = (r, d')) (hE : E = 2 ^ q) (hswap : ifswap = decide (q % 2 = 1))
    (hx : x.length = E) (hs : s.length = E) : IsFwd p tw q x r.x ∧ r.s.length = E := by
  subst hE hswap
  obtain ⟨s', hs', h⟩ := fwdR2_run (p := p) (tw := tw) hx hs d
  cases hrun.symm.trans h
  exact ⟨isFwd_passesOf p tw q x d, hs'⟩

/-- A run of the inverse operation answers the transform of R159. -/
theorem isInv_of_invR2 {p : Prec} {tw x s : List Cplx} {q E d d' : Nat} {ifswap : Bool} {r : EngineOut}
    (hrun : runDraw (invR2 p tw x s E ifswap) d = (r, d')) (hE : E = 2 ^ q) (hswap : ifswap = decide (q % 2 = 1))
    (hx : x.length = E) (hs : s.length = E) : IsInv p tw q x r.x := by
  subst hE hswap
  obtain ⟨_, -, h⟩ := invR2_run (p := p) (tw := tw) hx hs d
  cases hrun.symm.trans h
  exact isInv_inversePassesOf p tw hx d

/-- Settles O41: the convolver's run is taken apart into the runs of its six steps. -/
theorem convolverSteps : Obligations.ConvolverSteps := by
  intro P K xb c0 d hn
  generalize hrun : runDraw (bsFwd P K xb c0) d = out
  obtain ⟨h, dy, hh, hrun⟩ := exists_runs_of_bind hrun
  obtain ⟨y, df, hy, hrun⟩ := exists_runs_of_bind hrun
  obtain ⟨f, dz, hf, hrun⟩ := exists_runs_of_bind hrun
  obtain ⟨z, dg, hz, hrun⟩ := exists_runs_of_bind hrun
  obtain ⟨g, dx, hg, hrun⟩ := exists_runs_of_bind hrun
  obtain ⟨x, d', hx, rfl⟩ := exists_runs_of_bind hrun
  have hylen := length_of_mapDraw_range hy
  have hpadlen : (y ++ List.replicate (K.e - K.n) cZero).length = K.e := by
    rw [List.length_append, List.length_replicate, hylen, Nat.add_sub_cancel' hn]
  have hzlen := length_of_mapDraw_range hz
  refine ⟨h, f, g, y ++ List.replicate (K.e - K.n) cZero, z, d, df, dg, by rw [hh], hpadlen, fun i hi => ?_,
    fun i hi _ => elem_append_replicate_cZero (hylen.trans_le hi), by rw [hf], hzlen,
    fun i hi => gives_cmul (gives_elem_mapDraw_range hz hi), by rw [hg], length_of_mapDraw_range hx,
    fun i hi => gives_bsdiv (gives_elem_mapDraw_range hx hi), rfl, rfl, rfl, fun hE hswap hcirc hc0 => ?_⟩
  · rw [elem_append_left (hylen.symm ▸ hi)]
    exact gives_bsdiv (gives_elem_mapDraw_range hy hi)
  · obtain ⟨hH, hhs⟩ := isFwd_of_fwdR2 hh hE hswap hcirc hc0
    obtain ⟨hF, hfs⟩ := isFwd_of_fwdR2 hf hE hswap hpadlen hhs
    exact ⟨hH, hF, isInv_of_invR2 hg hE hswap hzlen hfs⟩

/-- On a Bluestein kernel with an engine of size `2^LOG2E` the convolver's six steps are the transform of R191. -/
theorem isBsFwd_bsFwd {P : Params} {K : Kernel} (hK : K.EngineSize P K.log2e) (hkind : K.kind = .bluestein)
    (xb : List Cplx) {c0 : List Cplx} (hc0 : c0.length = K.e) (d : Nat) :
    IsBsFwd P K xb (runDraw (bsFwd P K xb c0) d).1.x := by
  obtain ⟨h, f, g, y, z, -, -, -, -, hylen, hy, hpad, -, hzlen, hz, -, hlen, hx, -, -, -, hshape⟩ :=
    convolverSteps P K xb c0 d (hK.e_eq ▸ hK.n_le hkind)
  obtain ⟨hH, hF, hG⟩ := hshape hK.e_eq hK.ifswap_eq ((hK.circ_length hkind).trans hK.e_eq.symm) hc0
  exact ⟨h.x, y, f.x, z, g.x, hH, hylen, hy, hpad, hF, hzlen, hz, hG, hlen, hx⟩

/-! The engine run of a transform. -/

theorem Kernel.wf.e_eq {P : Params} {K : Kernel} (h : K.wf P) (hk : K.kind ≠ .none) : K.e = 2 ^ K.log2e := by
  unfold Kernel.wf at h
  split at h
  · exact absurd ‹_› hk
  · obtain ⟨q, d, -, rfl⟩ := h
    rfl
  · obtain ⟨N, q, d, -, -, -, -, -, rfl⟩ := h
    rfl

/-- The engine of a configured kernel has size `2^LOG2E` (R35, R175). -/
theorem Kernel.wf.engineSize {P : Params} {K : Kernel} (h : K.wf P) (hk : K.kind ≠ .none) :
    K.EngineSize P K.log2e := by
  obtain ⟨q, hK⟩ := h.exists_engineSize hk
  obtain rfl : K.log2e = q := Nat.pow_right_injective (le_refl 2) ((h.e_eq hk).symm.trans hK.e_eq)
  exact hK

/-- The engine run of a transform gives the transform R190 chooses by `KIND`. -/
theorem isEngine_engine {s : State} {inverse : Bool} {x : List Cplx} (hwf : s.kernel.wf s.params)
    (hruns : s.kernel.Runs inverse) (hx : x.length = s.kernel.n) :
    IsEngine s.params s.kernel inverse x (engine inverse s x).1 := by
  obtain ⟨hk, hinv⟩ := hruns
  have hK := hwf.engineSize hk
  unfold IsEngine
  cases hkind : s.kernel.kind with
  | none => exact absurd hkind hk
  | radix2 =>
    cases inverse with
    | false =>
      obtain ⟨c', -, hrun⟩ := engine_radix2Fwd_answers hK hkind hx s.caches
      rw [show engine false s x = _ from hrun]
      exact isFwd_passesOf _ _ _ _ _
    | true =>
      obtain ⟨c', -, hrun⟩ := engine_radix2Inv_answers hK hkind hx s.caches
      rw [show engine true s x = _ from hrun]
      exact isInv_inversePassesOf _ _ (hx.trans (hK.n_eq hkind)) _
  | bluestein =>
    cases inverse with
    | false =>
      have hrun := isBsFwd_bsFwd hK hkind x (length_cacheView s.kernel.e s.caches.c0) s.draws
      simpa only [engine, engineFwd, hkind, bluesteinFwd, Bool.false_eq_true, if_false] using hrun
    | true => exact absurd hkind (hinv rfl)

/-! Buffers. -/

/-- The working array of a transform is the source as of acceptance, a real one promoted (R63, R197). -/
theorem elem_loadPromoted (s : State) {d : Desc} {j : Nat} (hj : j < d.n) :
    elem (loadPromoted s d) j = sourceElem s.params.prec s.accepted d j := by
  rw [elem_eq_getElem ((length_loadPromoted s d).symm ▸ hj)]
  cases ht : d.t with
  | complex =>
    simp only [loadPromoted, sourceElem, ht, loadC, List.getElem_map, List.getElem_range]
    rfl
  | real =>
    simp only [loadPromoted, sourceElem, ht, loadR, List.getElem_map, List.getElem_range]
    rfl

theorem storeC_succ (p : Prec) (m : Memory) (b n : Nat) (t : ElemType) (xb : List Cplx) :
    storeC p m { b := b, n := n + 1, t := t } xb =
      writeC p (storeC p m { b := b, n := n, t := t } xb) b n (elem xb n) := by
  simp only [storeC, List.range_succ, List.foldl_append, List.foldl_cons, List.foldl_nil, elem]

/-- Each element of a stored complex buffer reads back with its bits (R54, R190). -/
theorem readC_storeC {p : Prec} {m : Memory} {b n j : Nat} {t : ElemType} {xb : List Cplx} (hm : m.wf = true)
    (h : b + n * (2 * width p) ≤ 2 ^ 64) (hj : j < n) :
    readC p (storeC p m { b := b, n := n, t := t } xb) b j = maskC p (elem xb j) := by
  induction n with
  | zero => exact absurd hj (Nat.not_lt_zero j)
  | succ n ih =>
    have hn : b + n * (2 * width p) ≤ 2 ^ 64 := by rw [Nat.succ_mul] at h; omega
    have hm' : (storeC p m { b := b, n := n, t := t } xb).wf = true := Memory.wf_storeC hm hn
    rw [Nat.mul_comm] at h
    rw [storeC_succ]
    by_cases hjn : j = n
    · subst hjn
      exact readC_writeC_same hm' h
    · rw [readC_writeC_of_ne hm' h hjn]
      exact ih hn (by omega)

/-- A transform with no race stores the engine's result in host memory. -/
theorem transformEffect_mem {s : State} (inverse : Bool) (src dst : Desc) (hraced : s.dstRaced = false) :
    (transformEffect inverse src dst s).mem =
      storeC s.params.prec s.mem dst (engine inverse s (loadPromoted s src)).1 := by
  have hsame := engine_same inverse s (loadPromoted s src)
  rw [transformEffect, State.writeBackC, writeBack_mem_of_not_dstRaced (hsame.dstRaced.trans hraced), engine_mem,
    hsame.params]

/-- A stored complex buffer that passes its checks: its elements, and every other byte of memory. -/
theorem storeC_spec {P : Params} {m : Memory} {d : Desc} (hm : m.wf = true) (ht : d.t = .complex) (hd : d.passes P)
    (xb : List Cplx) : (∀ j, j < d.n → readC P.prec (storeC P.prec m d xb) d.b j = maskC P.prec (elem xb j)) ∧
      ∀ a, d.covers P.prec a = false → readByte (storeC P.prec m d xb) a = readByte m a := by
  refine ⟨fun j hj => ?_, fun a ha => ?_⟩
  · have hend := (hd (by omega)).2.1
    rw [Desc.size, ht] at hend
    exact readC_storeC hm hend hj
  · exact (WritesOnly.storeC P.prec xb ht).frame (fun _ => hd.lt_of_covers) hm (Bool.eq_false_iff.1 ha)

/-! Completion. -/

theorem inPlaceCode_of_checked {s : State} {l : Latch} {inverse : Bool}
    (h : TransformChecked s inverse (inPlaceDesc l) (inPlaceDesc l)) : inPlaceCode s l inverse = .ok := by
  obtain ⟨⟨hk, hinv⟩, hn, hpass⟩ := h
  rw [inPlaceCode, firstFailing_eq_ok (by simp [descChecks])]
  simp only [List.forall_mem_append, descChecks_pass_iff, List.forall_mem_cons]
  exact ⟨⟨⟨by simpa using hk, by simpa using hinv, by simp⟩, hpass⟩, by simpa using hn, by simp⟩

theorem copyCode_of_checked {s : State} {l : Latch} {t : ElemType} {inverse : Bool}
    (h : TransformChecked s inverse (firstDesc l t) (secondDesc l)) (hsrc : (firstDesc l t).passes s.params)
    (hdisjoint : (firstDesc l t).disjoint s.params (secondDesc l)) (hdst : (secondDesc l).n = s.kernel.n) :
    copyCode s l t inverse = .ok := by
  obtain ⟨⟨hk, hinv⟩, hn, hpass⟩ := h
  have hoverlap : overlaps s.params (firstDesc l t) (secondDesc l) = false :=
    Bool.eq_false_iff.2 fun h => ((overlapMeansSharedByte _ _ _).1 h).elim hdisjoint
  rw [copyCode, firstFailing_eq_ok (by simp [descChecks])]
  simp only [List.forall_mem_append, descChecks_pass_iff, List.forall_mem_cons]
  exact ⟨⟨⟨⟨by simpa using hk, by simpa using hinv, by simp⟩, hsrc⟩, hpass⟩, hoverlap, by simp [hn, hdst], by simp⟩

/-- A command whose effect is a transform, and whose checks are those of one, completes with the transform. -/
theorem transformCompletes_of_effect {i : Instr} {inverse : State → Bool} {src dst : Latch → Desc} {inPlace : Bool}
    (heffect : ∀ s, effectOf s i = transformEffect (inverse s) (src s.inFlight) (dst s.inFlight))
    (ht : ∀ l, (dst l).t = .complex)
    (hcode : ∀ s, TransformChecked s (inverse s) (src s.inFlight) (dst s.inFlight) → (src s.inFlight).passes s.params →
      (inPlace = false → (src s.inFlight).disjoint s.params (dst s.inFlight)) → (dst s.inFlight).n = s.kernel.n →
      statusCode s s.inFlight i = .ok) :
    TransformCompletes i inverse src dst inPlace := by
  intro s hm hraced hwf hk hinv hsrc hdst hdisjoint hnsrc hndst
  have hruns : s.kernel.Runs (inverse s) := ⟨hk, fun h hbs => KernelKind.noConfusion ((hinv h).symm.trans hbs)⟩
  have hlen : (loadPromoted s (src s.inFlight)).length = s.kernel.n := (length_loadPromoted _ _).trans hnsrc
  obtain ⟨hexec, hcompletes⟩ := exec_completes_of_ok (hcode s ⟨hruns, hnsrc, hdst⟩ hsrc hdisjoint hndst)
  rw [heffect] at hexec hcompletes
  have hmem := transformEffect_mem (inverse s) (src s.inFlight) (dst s.inFlight) hraced
  obtain ⟨hread, hframe⟩ := storeC_spec hm (ht s.inFlight) hdst
    (engine (inverse s) s (loadPromoted s (src s.inFlight))).1
  rw [← hmem] at hread hframe
  exact ⟨_, loadPromoted s (src s.inFlight), _, hexec, hcompletes, transformEffect_kernel .., hlen,
    fun j hj => elem_loadPromoted s (hnsrc.symm ▸ hj), isEngine_engine hwf hruns hlen,
    fun j hj => hread j (hndst.symm ▸ hj), hframe⟩

theorem transformCompletes_inPlace {i : Instr} {inverse : Bool}
    (heffect : ∀ s, effectOf s i = transformEffect inverse (inPlaceDesc s.inFlight) (inPlaceDesc s.inFlight))
    (hcode : ∀ s, statusCode s s.inFlight i = inPlaceCode s s.inFlight inverse) :
    TransformCompletes i (fun _ => inverse) inPlaceDesc inPlaceDesc true :=
  transformCompletes_of_effect heffect (fun _ => rfl) fun s h _ _ _ => (hcode s).trans (inPlaceCode_of_checked h)

theorem transformCompletes_copy {i : Instr} {inverse : State → Bool} {t : ElemType}
    (heffect : ∀ s, effectOf s i = transformEffect (inverse s) (firstDesc s.inFlight t) (secondDesc s.inFlight))
    (hcode : ∀ s, statusCode s s.inFlight i = copyCode s s.inFlight t (inverse s)) :
    TransformCompletes i inverse (firstDesc · t) secondDesc false :=
  transformCompletes_of_effect heffect (fun _ => rfl) fun s h hsrc hdisjoint hdst =>
    (hcode s).trans (copyCode_of_checked h hsrc (hdisjoint rfl) hdst)

/-- Settles O42: the one buffer passes every check, and is source and destination of the transform. -/
theorem inPlaceTransformsComplete : Obligations.InPlaceTransformsComplete :=
  ⟨transformCompletes_inPlace (fun _ => rfl) (fun _ => rfl), transformCompletes_inPlace (fun _ => rfl) (fun _ => rfl)⟩

/-- Settles O43: disjoint buffers pass the overlap check, and all four forms have one effect. -/
theorem copyTransformsComplete : Obligations.CopyTransformsComplete :=
  ⟨transformCompletes_copy (fun _ => rfl) (fun _ => rfl), transformCompletes_copy (fun _ => rfl) (fun _ => rfl),
    transformCompletes_copy (fun _ => rfl) (fun _ => rfl), transformCompletes_copy (fun _ => rfl) (fun _ => rfl)⟩

/-! The inverse on a Bluestein kernel (R196). -/

theorem inPlaceCode_of_bluestein {s : State} {l : Latch} (h : s.kernel.kind = .bluestein) :
    inPlaceCode s l true = .unsupported := by
  simp [inPlaceCode, h]

theorem copyCode_of_bluestein {s : State} {l : Latch} {t : ElemType} (h : s.kernel.kind = .bluestein) :
    copyCode s l t true = .unsupported := by
  simp [copyCode, h]

/-- A command whose checks fail completes with its code and keeps memory and kernel (R241). -/
theorem exec_completes_of_error {i : Instr} {s : State} {c : ErrCode} (hcode : statusCode s s.inFlight i = c)
    (hc : c ≠ .ok) : ∃ t, exec i s = .next t ∧ Completes s t c ∧ t.mem = s.mem ∧ t.kernel = s.kernel := by
  subst hcode
  exact ⟨_, exec_of_error hc, (SameOutside.refl s).completes _, rfl, rfl⟩

/-- Settles O44: on a Bluestein kernel the second check of every inverse fails, and the redirected form is no inverse. -/
theorem bluesteinInverseUnsupported : Obligations.BluesteinInverseUnsupported := by
  intro s
  refine ⟨fun hkind i hi => ?_, fun hkind hredirect => ?_, fun hredirect => ?_⟩
  · refine exec_completes_of_error ?_ (by decide)
    rcases List.mem_pair.1 hi with rfl | rfl
    · exact inPlaceCode_of_bluestein hkind
    · exact copyCode_of_bluestein hkind
  · refine exec_completes_of_error ?_ (by decide)
    rw [statusCode, realIfftInverse, hredirect]
    exact copyCode_of_bluestein hkind
  · change runCopy .real (realIfftInverse s.params) s = runCopy .real false s
    rw [realIfftInverse, hredirect, Bool.not_true]

end Sys2Proof.Machine

/-! SUPPORT. The spectrum commands (R220 to R223): the rotator as a rotation of its array and as the source's swaps, products
and quotients as bits of `T`, and what each of the three effects leaves in host memory. -/

namespace Sys2Proof.Machine

/-! The rotator (R220, R223). -/

section Rotator

variable {α : Type} {x : List α}

theorem length_shiftArray : (shiftArray x).length = x.length :=
  length_foldl_of_keeps (fun _ _ => by split <;> simp) _ _

/-- Different indices are rotated to different places. -/
theorem eq_of_add_mod_eq {L h i j : Nat} (hi : i < L) (hj : j < L) (heq : (i + h) % L = (j + h) % L) : i = j :=
  (Nat.ModEq.add_right_cancel' h heq).eq_of_lt_of_lt hi hj

/-- The rotator moves the element at `i` to `(i + ⌊L/2⌋) mod L` (R220). -/
theorem getElem?_shiftArray {i : Nat} (hi : i < x.length) :
    (shiftArray x)[(i + x.length / 2) % x.length]? = x[i]? := by
  rw [shiftArray, List.getElem?_eq_getElem hi]
  refine getElem?_foldl_of_mem (List.mem_range.2 hi) (fun _ _ => by split <;> simp) (fun y hy => ?_)
    (fun j hj hne y => ?_) _ rfl
  · simp only [List.getElem?_eq_getElem hi]
    exact List.getElem?_set_self (hy ▸ Nat.mod_lt _ (by omega))
  · have hj := List.mem_range.1 hj
    simp only [List.getElem?_eq_getElem hj]
    exact List.getElem?_set_ne fun heq => hne (eq_of_add_mod_eq hj hi heq)

/-- Moving every element `⌊L/2⌋` places up is rotating the array the other `L - ⌊L/2⌋` places down. -/
theorem shiftArray_eq_rotate : shiftArray x = x.rotate (x.length - x.length / 2) := by
  refine List.ext_getElem? fun j => ?_
  by_cases hj : j < x.length
  · have hi : (j + (x.length - x.length / 2)) % x.length < x.length := Nat.mod_lt _ (by omega)
    have hback : ((j + (x.length - x.length / 2)) % x.length + x.length / 2) % x.length = j := by
      rw [Nat.mod_add_mod, show j + (x.length - x.length / 2) + x.length / 2 = j + x.length by omega,
        Nat.add_mod_right, Nat.mod_eq_of_lt hj]
    rw [List.getElem?_rotate hj, ← getElem?_shiftArray hi, hback]
  · rw [List.getElem?_eq_none (by rw [length_shiftArray]; omega), List.getElem?_eq_none (by rw [List.length_rotate]; omega)]

theorem shiftArray_shiftArray :
    shiftArray (shiftArray x) = x.rotate (x.length - x.length / 2 + (x.length - x.length / 2)) := by
  rw [shiftArray_eq_rotate (x := shiftArray x), length_shiftArray, shiftArray_eq_rotate, List.rotate_rotate]

/-- `swap` leaves every element but two where it is (R121). -/
theorem getElem?_swap {i j : Nat} (hi : i < x.length) (hj : j < x.length) (k : Nat) :
    (swap x i j)[k]? = if j = k then x[i]? else if i = k then x[j]? else x[k]? := by
  simp only [swap, List.getElem?_eq_getElem hi, List.getElem?_eq_getElem hj]
  simp only [List.getElem?_set, List.length_set, hi, hj, if_true]

theorem length_swap (i j : Nat) : (swap x i j).length = x.length := by
  unfold swap
  split <;> simp

/-- After the first `n` swaps of half-length `h`, the first `n` elements of the two halves have changed places. -/
theorem getElem?_swaps {h n : Nat} (hn : n ≤ h) (hx : 2 * h = x.length) (j : Nat) :
    ((List.range n).foldl (fun y i => swap y i (i + h)) x)[j]? =
      if j < n then x[h + j]? else if h ≤ j ∧ j < h + n then x[j - h]? else x[j]? := by
  induction n generalizing j with
  | zero => simp
  | succ n ih =>
    have hlen : ((List.range n).foldl (fun y i => swap y i (i + h)) x).length = x.length :=
      length_foldl_of_keeps (fun _ _ => length_swap _ _) _ _
    rw [List.range_succ, List.foldl_append, List.foldl_cons, List.foldl_nil,
      getElem?_swap (by omega) (by omega), ih (by omega), ih (by omega), ih (by omega)]
    by_cases hhigh : n + h = j
    · rw [if_pos hhigh, if_neg (by omega), if_neg (by omega), if_neg (by omega), if_pos (by omega), ← hhigh,
        Nat.add_sub_cancel]
    · by_cases hlow : n = j
      · rw [if_neg hhigh, if_pos hlow, if_neg (by omega), if_neg (by omega), if_pos (by omega), ← hlow, Nat.add_comm]
      · rw [if_neg hhigh, if_neg hlow]
        exact ite_congr (propext (by omega)) (fun _ => rfl) fun _ => ite_congr (propext (by omega)) (fun _ => rfl) fun _ => rfl

/-- On an even length the rotation exchanges the two halves, as the swaps do. -/
theorem shiftArray_eq_swaps {h : Nat} (hx : 2 * h = x.length) :
    shiftArray x = (List.range h).foldl (fun y i => swap y i (i + h)) x := by
  rw [shiftArray_eq_rotate, show x.length - x.length / 2 = h by omega, List.rotate_eq_drop_append_take (by omega)]
  refine List.ext_getElem? fun j => ?_
  rw [getElem?_swaps le_rfl hx, List.getElem?_append, List.length_drop]
  by_cases hj : j < h
  · rw [if_pos hj, if_pos (by omega), List.getElem?_drop]
  · rw [if_neg hj, if_neg (by omega), List.getElem?_take, show j - (x.length - h) = j - h by omega]
    by_cases hend : j < h + h
    · rw [if_pos (by omega), if_pos (by omega)]
    · rw [if_neg (by omega), if_neg (by omega), List.getElem?_eq_none (by omega)]

end Rotator

/-- Settles O47: two rotations by `L - ⌊L/2⌋` places are one, by all `L` places when `L` is even. -/
theorem shiftPermutation : Obligations.ShiftPermutation := by
  intro x L
  refine ⟨fun heven => shiftArray_eq_swaps (by omega), fun heven => ?_, fun i hi => ?_⟩
  · rw [shiftArray_shiftArray, show x.length - x.length / 2 + (x.length - x.length / 2) = x.length by omega,
      List.rotate_length]
  · have hround : i + 2 * (L / 2) + (L - L / 2 + (L - L / 2)) = i + L * 2 := by omega
    rw [shiftArray_shiftArray, List.getElem?_rotate (Nat.mod_lt _ (by omega)), Nat.mod_add_mod, hround,
      Nat.add_mul_mod_self_left, Nat.mod_eq_of_lt hi]

/-! Bits of `T`. -/

theorem maskT_of_lt {p : Prec} {v : FBits} (h : v.toNat < 2 ^ (8 * width p)) : maskT p v = v := by
  rw [← ofNat_mod_eq_maskT, Nat.mod_eq_of_lt h, BitVec.ofNat_toNat, BitVec.setWidth_eq]

theorem memRead_lt (m : Memory) (n : Nat) : ∀ a, memRead m a n < 2 ^ (8 * n) := by
  induction n with
  | zero => exact fun _ => Nat.one_pos
  | succ n ih =>
    intro a
    have hbyte := (readByte m a).isLt
    have hrest := ih (a + 1)
    rw [memRead, Nat.mul_succ, pow_add]
    omega

/-- What memory holds of a value is bits of `T` (R55). -/
theorem maskT_readT (p : Prec) (m : Memory) (a : Nat) : maskT p (readT p m a) = readT p m a :=
  maskT_of_lt ((BitVec.toNat_ofNat ..).trans_le (Nat.mod_le _ _) |>.trans_lt (memRead_lt m _ a))

theorem maskT_readR (p : Prec) (m : Memory) (b i : Nat) : maskT p (readR p m b i) = readR p m b i := maskT_readT ..

theorem maskC_readC (p : Prec) (m : Memory) (b i : Nat) : maskC p (readC p m b i) = readC p m b i :=
  congrArg₂ Cplx.mk (maskT_readT ..) (maskT_readT ..)

theorem maskT_packMag {p : Prec} {mag : Nat} (h : mag ≤ infMag p) (s : Bool) :
    maskT p (packMag p s mag) = packMag p s mag := by
  have hmag := h.trans_lt (infMag_lt_two_pow p)
  have hsign : 2 ^ signPos p + 2 ^ signPos p = 2 ^ (8 * width p) := by cases p <;> rfl
  refine maskT_of_lt ?_
  rw [toNat_packMag hmag, ← hsign]
  split <;> omega

theorem maskT_quietNaN (p : Prec) (raw : BitVec 64) : maskT p (quietNaN p raw) = quietNaN p raw := by
  cases p with
  | binary32 =>
    refine maskT_of_lt (BitVec.toNat_or _ _ ▸ Nat.or_lt_two_pow ?_ (by decide))
    rw [maskT, BitVec.truncate, BitVec.zeroExtend, BitVec.toNat_setWidth, BitVec.toNat_setWidth]
    exact (Nat.mod_le _ _).trans_lt (Nat.mod_lt _ (by decide))
  | binary64 => rfl

/-- A computation that draws a NaN, or answers a sign with magnitude bits up to infinity's. -/
def AnswersInT (p : Prec) (x : Draw FBits) : Prop :=
  x = drawNaN p ∨ ∃ s mag, mag ≤ infMag p ∧ x = pure (packMag p s mag)

theorem AnswersInT.maskT_eq {p : Prec} {x : Draw FBits} {v : FBits} (hx : AnswersInT p x) (hv : Gives x v) :
    maskT p v = v := by
  obtain ⟨d, rfl⟩ := hv
  rcases hx with rfl | ⟨s, mag, hmag, rfl⟩
  · exact maskT_quietNaN p _
  · exact maskT_packMag hmag s

theorem answersInT_fmul (p : Prec) (a b : FBits) : AnswersInT p (fmul p a b) := by
  unfold fmul
  split
  · exact .inl rfl
  · exact .inl rfl
  · exact .inr ⟨_, _, le_rfl, rfl⟩
  · split
    · exact .inl rfl
    · exact .inr ⟨_, _, le_rfl, rfl⟩
  · split
    · exact .inl rfl
    · exact .inr ⟨_, _, le_rfl, rfl⟩
  · exact .inr ⟨_, _, Nat.min_le_right _ _, rfl⟩

theorem answersInT_fdiv (p : Prec) (a b : FBits) : AnswersInT p (fdiv p a b) := by
  unfold fdiv
  split
  · exact .inl rfl
  · exact .inl rfl
  · exact .inl rfl
  · exact .inr ⟨_, _, le_rfl, rfl⟩
  · exact .inr ⟨_, _, Nat.zero_le _, rfl⟩
  · split
    · split
      · exact .inl rfl
      · exact .inr ⟨_, _, le_rfl, rfl⟩
    · exact .inr ⟨_, _, Nat.min_le_right _ _, rfl⟩

/-! Arrays computed element by element. -/

/-- What a computation in two steps gives, its second step gives on a value its first step gives. -/
theorem exists_gives_of_bind {α β : Type} {x : Draw α} {f : α → Draw β} {v : β} (h : Gives (x >>= f) v) :
    ∃ w, Gives x w ∧ Gives (f w) v := by
  obtain ⟨d, rfl⟩ := h
  exact ⟨_, .of_run x d, .of_run (f _) _⟩

theorem gives_getD_mapDraw {α β : Type} (f : α → Draw β) {x : List α} {i : Nat} (h : i < x.length) (b : β) (d : Nat) :
    Gives (f x[i]) ((runDraw (mapDraw f x) d).1.getD i b) := by
  rw [List.getD_eq_getElem _ _ (by simpa using h)]
  exact gives_getElem_mapDraw f h d

/-! Whole real buffers. -/

theorem storeR_succ (p : Prec) (m : Memory) (b n : Nat) (t : ElemType) (xb : List FBits) :
    storeR p m { b := b, n := n + 1, t := t } xb =
      writeR p (storeR p m { b := b, n := n, t := t } xb) b n (xb.getD n fZero) := by
  simp only [storeR, List.range_succ, List.foldl_append, List.foldl_cons, List.foldl_nil]

/-- Each element of a stored real buffer reads back with its bits (R56, R63). -/
theorem readR_storeR {p : Prec} {m : Memory} {b n j : Nat} {t : ElemType} {xb : List FBits} (hm : m.wf = true)
    (h : b + n * width p ≤ 2 ^ 64) (hj : j < n) :
    readR p (storeR p m { b := b, n := n, t := t } xb) b j = maskT p (xb.getD j fZero) := by
  induction n with
  | zero => exact absurd hj (Nat.not_lt_zero j)
  | succ n ih =>
    have hn : b + n * width p ≤ 2 ^ 64 := by rw [Nat.succ_mul] at h; omega
    have hm' : (storeR p m { b := b, n := n, t := t } xb).wf = true := Memory.wf_storeR hm hn
    rw [Nat.mul_comm] at h
    rw [storeR_succ]
    rcases Nat.lt_succ_iff_lt_or_eq.1 hj with hlt | rfl
    · rw [readR_writeR_of_ne hm' h hlt.ne]
      exact ih hn hlt
    · exact readR_writeR_same hm' h

/-- A stored real buffer that passes its checks: its elements, and every other byte of memory. -/
theorem storeR_spec {P : Params} {m : Memory} {d : Desc} (hm : m.wf = true) (ht : d.t = .real) (hd : d.passes P)
    (xb : List FBits) : (∀ j, j < d.n → readR P.prec (storeR P.prec m d xb) d.b j = maskT P.prec (xb.getD j fZero)) ∧
      ∀ a, d.covers P.prec a = false → readByte (storeR P.prec m d xb) a = readByte m a := by
  refine ⟨fun j hj => ?_, fun a ha => ?_⟩
  · have hend := (hd (by omega)).2.1
    rw [Desc.size, ht] at hend
    exact readR_storeR hm hend hj
  · exact (WritesOnly.storeR P.prec xb ht).frame (fun _ => hd.lt_of_covers) hm (Bool.eq_false_iff.1 ha)

/-! The arrays the effects store. -/

/-- The rotated array of a computed array holds at `(i + ⌊L/2⌋) mod L` what was computed at `i` (R220). -/
theorem getD_shiftArray_map {α : Type} {f : Nat → α} {n i : Nat} (hi : i < n) (b : α) :
    (shiftArray ((List.range n).map f)).getD ((i + n / 2) % n) b = f i := by
  have h := getElem?_shiftArray (x := (List.range n).map f) (i := i) (by simpa using hi)
  rw [List.length_map, List.length_range] at h
  rw [List.getD_eq_getElem?_getD, h]
  simp [hi]

/-- Each element of the grid is one product (R221). -/
theorem gives_getD_freqGrid {p : Prec} {L i : Nat} {dt : FBits} (hi : i < L) (d : Nat) :
    let span := runDraw (fmul p dt (toT p L)) d
    Gives (fmul p (runDraw (fdiv p (fOne p) span.1) span.2).1 (toT p (gridIndex L i)))
      ((runDraw (freqGrid p L dt) d).1.getD i fZero) := by
  intro span
  let df := runDraw (fdiv p (fOne p) span.1) span.2
  have h := gives_getD_mapDraw (fun i => fmul p df.1 (toT p (gridIndex L i))) (x := List.range L) (by simpa using hi)
    fZero df.2
  rwa [List.getElem_range] at h

/-- Each amplitude is the hypotenuse of one spectrum element over `toT(⌊L/2⌋)` (R222). -/
theorem exists_gives_getD_amplitudes {p : Prec} {L i : Nat} {spec : List Cplx} (hi : i < spec.length) (d : Nat) :
    ∃ w, Gives (apy2 p spec[i].re spec[i].im) w ∧
      Gives (fdiv p w (toT p ((L / 2 : Nat) : Int))) ((runDraw (amplitudes p L spec) d).1.getD i fZero) := by
  have h := gives_getD_mapDraw (fun z => apy2c p z >>= (fdiv p · (toT p ((L / 2 : Nat) : Int)))) hi fZero d
  exact exists_gives_of_bind h

/-! The three effects. -/

section Effects

variable {s : State}

theorem shiftEffect_caches (d : Desc) (s : State) : (shiftEffect d s).caches = s.caches :=
  (congrArg State.caches (shiftEffect_withCaches d s s.caches) :)

theorem freqEffect_caches (d : Desc) (dt : FBits) (s : State) : (freqEffect d dt s).caches = s.caches :=
  (congrArg State.caches (freqEffect_withCaches d dt s s.caches) :)

theorem amplEffect_caches (a sp : Desc) (s : State) : (amplEffect a sp s).caches = s.caches :=
  (congrArg State.caches (amplEffect_withCaches a sp s s.caches) :)

theorem storeC_of_empty {d : Desc} (h : d.n = 0) (p : Prec) (m : Memory) (xb : List Cplx) : storeC p m d xb = m := by
  simp [storeC, h]

theorem storeR_of_empty {d : Desc} (h : d.n = 0) (p : Prec) (m : Memory) (xb : List FBits) : storeR p m d xb = m := by
  simp [storeR, h]

variable (hraced : s.dstRaced = false)

include hraced

/-- With no race FFTSHIFT stores the rotated array. -/
theorem shiftEffect_mem_complex {d : Desc} (ht : d.t = .complex) :
    (shiftEffect d s).mem = storeC s.params.prec s.mem d (shiftArray (loadC s d)) := by
  unfold shiftEffect
  split
  · next h => exact (storeC_of_empty h ..).symm
  · simp only [ht]
    exact writeBack_mem_of_not_dstRaced hraced

theorem shiftEffect_mem_real {d : Desc} (ht : d.t = .real) :
    (shiftEffect d s).mem = storeR s.params.prec s.mem d (shiftArray (loadR s d)) := by
  unfold shiftEffect
  split
  · next h => exact (storeR_of_empty h ..).symm
  · simp only [ht]
    exact writeBack_mem_of_not_dstRaced hraced

/-- With no race FFTFREQ stores the grid. -/
theorem freqEffect_mem (d : Desc) (dt : FBits) :
    (freqEffect d dt s).mem =
      storeR s.params.prec s.mem d (runDraw (freqGrid s.params.prec d.n dt) s.draws).1 := by
  unfold freqEffect
  split
  · next h => exact (storeR_of_empty h ..).symm
  · exact writeBack_mem_of_not_dstRaced hraced

/-- With no race FFTAMPL stores the amplitudes. -/
theorem amplEffect_mem (a sp : Desc) :
    (amplEffect a sp s).mem = storeR s.params.prec s.mem a
      (runDraw (amplitudes s.params.prec a.n (loadC s { sp with n := a.n })) s.draws).1 := by
  unfold amplEffect
  split
  · next h => exact (storeR_of_empty h ..).symm
  · exact writeBack_mem_of_not_dstRaced hraced

variable (hm : s.mem.wf = true)

include hm

/-- FFTSHIFT of a complex buffer that passes its checks (R220). -/
theorem shiftEffect_complex_spec {d : Desc} (ht : d.t = .complex) (hd : d.passes s.params) :
    memFrame s (shiftEffect d s) d ∧ ∀ i, i < d.n →
      readC s.params.prec (shiftEffect d s).mem d.b ((i + d.n / 2) % d.n) =
        readC s.params.prec s.accepted d.b i := by
  obtain ⟨hread, hframe⟩ := storeC_spec hm ht hd (shiftArray (loadC s d))
  rw [← shiftEffect_mem_complex hraced ht] at hread hframe
  refine ⟨hframe, fun i hi => ?_⟩
  rw [hread _ (Nat.mod_lt _ (by omega)), elem, loadC, getD_shiftArray_map hi, maskC_readC]

/-- FFTSHIFT of a real buffer that passes its checks (R220). -/
theorem shiftEffect_real_spec {d : Desc} (ht : d.t = .real) (hd : d.passes s.params) :
    memFrame s (shiftEffect d s) d ∧ ∀ i, i < d.n →
      readR s.params.prec (shiftEffect d s).mem d.b ((i + d.n / 2) % d.n) =
        readR s.params.prec s.accepted d.b i := by
  obtain ⟨hread, hframe⟩ := storeR_spec hm ht hd (shiftArray (loadR s d))
  rw [← shiftEffect_mem_real hraced ht] at hread hframe
  refine ⟨hframe, fun i hi => ?_⟩
  rw [hread _ (Nat.mod_lt _ (by omega)), loadR, getD_shiftArray_map hi, maskT_readR]

/-- FFTFREQ to a destination that passes its checks: products are bits of `T`, so the store keeps them (R221). -/
theorem freqEffect_spec {d : Desc} (ht : d.t = .real) (hd : d.passes s.params) (dt : FBits) :
    let p := s.params.prec
    let span := runDraw (fmul p dt (toT p d.n)) s.draws
    memFrame s (freqEffect d dt s) d ∧ ∀ i, i < d.n →
      Gives (fmul p (runDraw (fdiv p (fOne p) span.1) span.2).1 (toT p (gridIndex d.n i)))
        (readR p (freqEffect d dt s).mem d.b i) := by
  intro p span
  obtain ⟨hread, hframe⟩ := storeR_spec hm ht hd (runDraw (freqGrid p d.n dt) s.draws).1
  rw [← freqEffect_mem hraced] at hread hframe
  refine ⟨hframe, fun i hi => ?_⟩
  have hgives := gives_getD_freqGrid (p := p) (dt := dt) hi s.draws
  rwa [← (answersInT_fmul ..).maskT_eq hgives, ← hread i hi] at hgives

/-- FFTAMPL to a destination that passes its checks: quotients are bits of `T`, so the store keeps them (R222). -/
theorem amplEffect_spec {a : Desc} (ht : a.t = .real) (ha : a.passes s.params) (sp : Desc) :
    memFrame s (amplEffect a sp s) a ∧ ∀ i, i < a.n →
      let z := readC s.params.prec s.accepted sp.b i
      ∃ w, Gives (apy2 s.params.prec z.re z.im) w ∧
        Gives (fdiv s.params.prec w (toT s.params.prec ((a.n / 2 : Nat) : Int)))
          (readR s.params.prec (amplEffect a sp s).mem a.b i) := by
  obtain ⟨hread, hframe⟩ := storeR_spec hm ht ha
    (runDraw (amplitudes s.params.prec a.n (loadC s { sp with n := a.n })) s.draws).1
  rw [← amplEffect_mem hraced] at hread hframe
  refine ⟨hframe, fun i hi => ?_⟩
  obtain ⟨w, hw, hquot⟩ := exists_gives_getD_amplitudes (p := s.params.prec) (L := a.n)
    (spec := loadC s { sp with n := a.n }) (i := i) (by simpa [loadC] using hi) s.draws
  rw [← (answersInT_fdiv ..).maskT_eq hquot, ← hread i hi] at hquot
  simp only [loadC, List.getElem_map, List.getElem_range] at hw
  exact ⟨w, hw, hquot⟩

end Effects

/-! Completion. -/

theorem oneBufferCode_of_passes {s : State} {l : Latch} {t : ElemType} (h : (firstDesc l t).passes s.params) :
    oneBufferCode s l t = .ok := by
  rw [oneBufferCode, firstFailing_eq_ok (by simp [descChecks])]
  exact descChecks_pass_iff.2 h

theorem amplCode_of_checked {s : State} {l : Latch} (ha : (firstDesc l .real).passes s.params)
    (hsp : (secondDesc l).passes s.params) (hdisjoint : (firstDesc l .real).disjoint s.params (secondDesc l))
    (hn : (firstDesc l .real).n ≤ (secondDesc l).n) : amplCode s l = .ok := by
  have hoverlap : overlaps s.params (firstDesc l .real) (secondDesc l) = false :=
    Bool.eq_false_iff.2 fun h => ((overlapMeansSharedByte _ _ _).1 h).elim hdisjoint
  rw [amplCode, firstFailing_eq_ok (by simp [descChecks])]
  simp only [List.forall_mem_append, descChecks_pass_iff, List.forall_mem_cons]
  exact ⟨⟨ha, hsp⟩, hoverlap, by simpa using hn, by simp⟩

/-- Settles O46: the checks are those of the one descriptor, and the effect rotates either type. -/
theorem fftshiftRotates : Obligations.FftshiftRotates := by
  intro s hm hraced
  constructor
  · rintro d rfl hd
    obtain ⟨hexec, hcompletes⟩ := exec_completes_of_ok (i := .fftshiftC) (oneBufferCode_of_passes hd)
    exact ⟨_, hexec, hcompletes, shiftEffect_kernel .., shiftEffect_caches .., shiftEffect_complex_spec hraced hm rfl hd⟩
  · rintro d rfl hd
    obtain ⟨hexec, hcompletes⟩ := exec_completes_of_ok (i := .fftshiftR) (oneBufferCode_of_passes hd)
    exact ⟨_, hexec, hcompletes, shiftEffect_kernel .., shiftEffect_caches .., shiftEffect_real_spec hraced hm rfl hd⟩

/-- Settles O48: the span and `df` are drawn first, then one product an element. -/
theorem fftfreqWritesGrid : Obligations.FftfreqWritesGrid := by
  intro s hm hraced p d dt hd
  obtain ⟨hexec, hcompletes⟩ := exec_completes_of_ok (i := .fftfreq) (oneBufferCode_of_passes hd)
  obtain ⟨hframe, hgrid⟩ := freqEffect_spec hraced hm rfl hd dt
  exact ⟨_, hexec, hcompletes, freqEffect_kernel .., freqEffect_caches .., hframe, s.draws,
    (runDraw (fmul p dt (toT p d.n)) s.draws).2, fun i hi => (hgrid i hi).imp fun _ => Eq.symm⟩

/-- Settles O49: disjoint buffers with the spectrum as long pass every check. -/
theorem fftamplWritesAmplitudes : Obligations.FftamplWritesAmplitudes := by
  intro s hm hraced p a sp ha hsp hdisjoint hn
  obtain ⟨hexec, hcompletes⟩ := exec_completes_of_ok (i := .fftampl) (amplCode_of_checked ha hsp hdisjoint hn)
  exact ⟨_, hexec, hcompletes, amplEffect_kernel .., amplEffect_caches .., amplEffect_spec hraced hm rfl ha sp⟩

end Sys2Proof.Machine

/-! SUPPORT. Completion with an error (R241), and the order of the checks (R242): the check lists of the transform and
spectrum commands written out as their first failing check. -/

namespace Sys2Proof.Machine

/-- Settles O6: a completion with an error is `complete` of the state itself, with no effect. -/
theorem errorChangesNothingElse : Obligations.ErrorChangesNothingElse := by
  intro i s t h herr
  rcases exec_cases h with ⟨-, rfl⟩ | ⟨-, rfl⟩
  · exact absurd rfl herr
  · exact ⟨(SameOutside.refl s).completes _, rfl, rfl⟩

/-! The order of the checks (R242). -/

/-- The code of a descriptor's own checks: alignment, then range (R59, R60). -/
def descCode (P : Params) (d : Desc) : ErrCode := firstFailing (descChecks P d)

/-- A descriptor's checks ahead of others decide the code unless the descriptor passes both. -/
theorem firstFailing_descChecks_append (P : Params) (d : Desc) (rest : List (Bool × ErrCode)) :
    firstFailing (descChecks P d ++ rest) = if descCode P d ≠ .ok then descCode P d else firstFailing rest := by
  cases hm : misaligned P d with
  | true => simp [descCode, descChecks, hm]
  | false => cases hu : unaddressable P d <;> simp [descCode, descChecks, hm, hu]

section CheckOrder

variable (s : State) (l : Latch)

theorem inPlaceCode_eq_ite (inverse : Bool) :
    inPlaceCode s l inverse =
      if s.kernel.kind = .none then .noKernel
      else if inverse = true ∧ s.kernel.kind = .bluestein then .unsupported
      else if descCode s.params (inPlaceDesc l) ≠ .ok then descCode s.params (inPlaceDesc l)
      else if (inPlaceDesc l).n ≠ s.kernel.n then .lengthMismatch else .ok := by
  simp only [inPlaceCode, List.cons_append, List.nil_append, firstFailing_descChecks_append, firstFailing_cons,
    firstFailing_nil, Bool.and_eq_true, decide_eq_true_eq]

theorem copyCode_eq_ite (t : ElemType) (inverse : Bool) :
    copyCode s l t inverse =
      if s.kernel.kind = .none then .noKernel
      else if inverse = true ∧ s.kernel.kind = .bluestein then .unsupported
      else if descCode s.params (firstDesc l t) ≠ .ok then descCode s.params (firstDesc l t)
      else if descCode s.params (secondDesc l) ≠ .ok then descCode s.params (secondDesc l)
      else if overlaps s.params (firstDesc l t) (secondDesc l) then .overlapError
      else if (firstDesc l t).n ≠ s.kernel.n ∨ (secondDesc l).n ≠ s.kernel.n then .lengthMismatch else .ok := by
  simp only [copyCode, List.append_assoc, List.cons_append, List.nil_append, firstFailing_descChecks_append,
    firstFailing_cons, firstFailing_nil, Bool.and_eq_true, Bool.or_eq_true, decide_eq_true_eq]

theorem amplCode_eq_ite :
    amplCode s l =
      if descCode s.params (firstDesc l .real) ≠ .ok then descCode s.params (firstDesc l .real)
      else if descCode s.params (secondDesc l) ≠ .ok then descCode s.params (secondDesc l)
      else if overlaps s.params (firstDesc l .real) (secondDesc l) then .overlapError
      else if (secondDesc l).n < (firstDesc l .real).n then .lengthMismatch else .ok := by
  simp only [amplCode, List.append_assoc, firstFailing_descChecks_append, firstFailing_cons, firstFailing_nil,
    decide_eq_true_eq]

end CheckOrder

/-- Settles O19: a command completes with the code of its check list, which is that of its first failing check. -/
theorem commandCheckOrder : Obligations.CommandCheckOrder := by
  rintro s t l rfl N bad inPlace copy ampl
  have hinPlace (inverse : Bool) : inPlaceCode s s.inFlight inverse = inPlace inverse := inPlaceCode_eq_ite ..
  have hcopy (ty : ElemType) (inverse : Bool) : copyCode s s.inFlight ty inverse = copy ty inverse := copyCode_eq_ite ..
  have honeBuffer (ty : ElemType) : oneBufferCode s s.inFlight ty = bad (firstDesc s.inFlight ty) := rfl
  have hampl : amplCode s s.inFlight = ampl := amplCode_eq_ite ..
  exact ⟨fun h => (exec_status_err h).trans (hinPlace false), fun h => (exec_status_err h).trans (hinPlace true),
    fun h => (exec_status_err h).trans (hcopy .complex false), fun h => (exec_status_err h).trans (hcopy .real false),
    fun h => (exec_status_err h).trans (hcopy .complex true),
    fun h => (exec_status_err h).trans (hcopy .real (!s.params.realIfftCallsForward)),
    fun h => (exec_status_err h).trans (honeBuffer .complex), fun h => (exec_status_err h).trans (honeBuffer .real),
    fun h => (exec_status_err h).trans (honeBuffer .real), fun h => (exec_status_err h).trans hampl⟩

end Sys2Proof.Machine

/-! SUPPORT. Reset (R270, R271) and the duties of the host (R27, R66, R273, R274). -/

namespace Sys2Proof.Machine

/-! Reset. -/

/-- The extents reset scrambles miss a byte that lies in no written extent (R270). -/
theorem covers_writtenBuffers_eq_false {s : State} {a : Nat} (ha : s.inWrittenExtent a = false) :
    ∀ b ∈ s.writtenBuffers, b.d.covers s.params.prec a = false := by
  intro b hb
  obtain ⟨hb, hw⟩ := List.mem_filter.1 hb
  simpa [hw] using List.any_eq_false.1 ha b hb

/-- Reset leaves a byte outside the written extents of the abandoned command, or in a read-only one (R270). -/
theorem readByte_platformReset {s : State} {a : Nat} (hm : s.mem.wf = true)
    (ha : s.inWrittenExtent a = false ∨ s.inReadOnlyExtent a = true) :
    readByte (platformReset s).mem a = readByte s.mem a :=
  readByte_scrambleAll_of_kept hm (ha.symm.imp id covers_writtenBuffers_eq_false)

theorem step_of_platform {s : State} (h : s.nextAgent = .platform) : step s = .next (platformReset s.tick) := by
  simp [step, h]

/-- Settles O16: the fields are those of `State.resetOf`, and reset scrambles written extents alone. -/
theorem platformResetState : Obligations.PlatformResetState := by
  intro s hm hplatform
  exact ⟨_, step_of_platform hplatform, rfl, rfl, rfl, rfl, rfl, rfl, rfl, rfl, rfl, rfl,
    fun a ha => readByte_platformReset (s := s.tick) hm ha⟩

theorem statusWord_resetOf (p : Params) : statusWord (State.resetOf p) = 0 := by
  simp [statusWord, State.resetOf, ErrCode.code]

theorem kinfoWord_resetOf (p : Params) : kinfoWord (State.resetOf p) = 0 := by
  simp [kinfoWord, State.resetOf, Kernel.absent, KernelKind.code]

/-- Settles O15: `HWCFG` shows two parameters, and every other word is one of fixed fields. -/
theorem resetRegisterValues : Obligations.ResetRegisterValues := by
  intro p hp
  obtain ⟨hprec, hlow, hcmax, hhigh⟩ := hwcfgWord_fields (State.resetOf p) hp
  exact ⟨_, rfl, rfl, rfl, rfl, rfl, rfl, statusWord_resetOf p, kinfoWord_resetOf p, rfl, rfl, hprec, hlow, hcmax, hhigh,
    rfl, rfl, rfl, rfl, rfl, rfl, rfl, rfl, rfl⟩

theorem resetOf_inv {p : Params} (hp : p.wf = true) : (State.resetOf p).Inv where
  params := hp
  mem := Memory.wf_reset p
  accepted := Memory.wf_reset p
  latch := ⟨rfl, nofun⟩
  kernel := rfl
  caches := Caches.fit_unwritten p

/-- Settles O60: the model's own parameters are in range too. -/
theorem resetMeetsInvariant : Obligations.ResetMeetsInvariant := ⟨fun _ => resetOf_inv, resetOf_inv (by decide)⟩

/-! The host's duties. -/

/-- What the host's duties keep: `PF = 0`, no race on record, and the extents in flight as they were at acceptance
(R273, R274). -/
structure State.Clean (s : State) : Prop where
  pf : s.status.pf = false
  dstRaced : s.dstRaced = false
  current : s.current

theorem current_of_idle {s : State} (h : s.latch = none) : s.current := by
  simp [State.current, buffersInFlight_of_idle h]

/-- The extents in flight stay as at acceptance while the latch stays and memory keeps their bytes. -/
theorem State.current.of_same_extents {s t : State} (hs : s.current) (hP : t.params = s.params) (hl : t.latch = s.latch)
    (hm : ∀ b ∈ s.buffersInFlight, ∀ a, b.d.covers s.params.prec a = true → readByte t.mem a = readByte s.mem a) :
    t.current := by
  cases h : s.latch with
  | none => exact current_of_idle (hl.trans h)
  | some l =>
    have hbuffers : t.buffersInFlight = s.buffersInFlight := by simp only [State.buffersInFlight, hl]
    have haccepted : t.accepted = s.accepted := by rw [accepted_of_latch h, accepted_of_latch (hl.trans h)]
    intro b hb a ha
    rw [hbuffers] at hb
    rw [hP] at ha
    rw [hm b hb a ha, haccepted, hs b hb a ha]

/-- A completed command is no longer in flight, and its completion keeps `PF` (R26, R241). -/
theorem Completes.clean {s t : State} {c : ErrCode} (h : Completes s t c) (hs : s.Clean) : t.Clean :=
  ⟨h.pf.trans hs.pf, h.dstRaced, current_of_idle h.latch⟩

theorem coreStep_clean {s t : State} (hs : s.Clean) (h : coreStep s = .next t) : t.Clean := by
  rcases coreStep_completes h with ⟨-, rfl⟩ | ⟨-, c, hc⟩
  · exact hs
  · exact hc.clean hs

theorem platformReset_clean (s : State) : (platformReset s).Clean := ⟨rfl, rfl, current_of_idle rfl⟩

/-- Acceptance latches memory as it is, and an operand register is written with no extent in flight (R23, R63). -/
theorem Reg.idleWrite_clean {s : State} (hs : s.Clean) (hl : s.latch = none) (v : Word) (r : Reg) :
    (r.idleWrite s v).Clean := by
  obtain ⟨hpf, hraced, -⟩ := hs
  cases r
  case cmd => exact ⟨hpf, hraced, fun _ _ _ _ => rfl⟩
  all_goals exact ⟨hpf, hraced, current_of_idle hl⟩

/-- A register write raises a protocol fault only at a guarded register with `BUSY = 1` (R27). -/
theorem writeReg_clean {s : State} (hs : s.Clean) (hbusy : s.status.busy = s.latch.isSome) {r : Reg}
    (hr : s.status.busy = true → r.guarded = false) (v : Word) : (writeReg s v r).Clean := by
  rcases writeReg_cases s v r with h | ⟨hg, hb, -⟩ | ⟨-, hb, h⟩
  · rwa [h]
  · exact absurd (hg.symm.trans (hr hb)) Bool.false_ne_true.symm
  · rw [h]
    exact Reg.idleWrite_clean hs (by simpa [hb] using hbusy.symm) v r

/-- A byte of an extent the store does not meet is not stored. -/
theorem outside_of_not_raced {s : State} {a n x : Nat} {b : Buffer} (hclear : s.racedBuffers a n = [])
    (hb : b ∈ s.buffersInFlight) (hx : b.d.covers s.params.prec x = true) : x < a ∨ a + n ≤ x := by
  obtain ⟨hlo, hhi⟩ := Desc.covers_iff.1 hx
  by_contra hin
  have hraced : b ∈ s.racedBuffers a n :=
    mem_racedBuffers.2 ⟨hb, rangesMeet_iff.2 ⟨by omega, by omega, by omega, by omega⟩⟩
  rw [hclear] at hraced
  cases hraced

/-- A store that meets no extent in flight is no race and leaves them (R66). -/
theorem hostMemStore_clean {s : State} (hs : s.Clean) (hm : s.mem.wf = true) {a : Nat} {bytes : List Byte}
    (ha : a + bytes.length ≤ 2 ^ 64) (hclear : s.racedBuffers a bytes.length = []) : (hostMemStore s a bytes).Clean := by
  rw [hostMemStore_of_clear hclear]
  exact ⟨hs.pf, hs.dstRaced, hs.current.of_same_extents rfl rfl fun b hb x hx =>
    readByte_writeBytes_outside hm ha (outside_of_not_raced hclear hb hx)⟩

theorem hostMemLoad_clean {s : State} (hs : s.Clean) (a n : Nat) : (hostMemLoad s a n).Clean := by
  obtain ⟨hpf, hraced, hcurrent⟩ := hs
  unfold hostMemLoad
  split <;> exact ⟨hpf, hraced, hcurrent⟩

/-- A dutiful store writes no guarded register with `BUSY = 1` (R273). -/
theorem HostAct.dutiful_store_register {s : State} {addr : Word} {bytes : List Byte} {off : Nat}
    (h : (HostAct.store addr bytes).dutiful s = true) (hroute : route s.params addr.toNat bytes.length = .register off)
    (hb : s.status.busy = true) : (regAt off).guarded = false := by
  simpa [HostAct.dutiful, hroute, hb] using h

/-- A dutiful store meets no extent of a command in flight, and an idle CORE has none (R274). -/
theorem HostAct.dutiful_store_memory {s : State} {addr : Word} {bytes : List Byte}
    (h : (HostAct.store addr bytes).dutiful s = true) (hroute : route s.params addr.toNat bytes.length = .memory)
    (hbusy : s.status.busy = s.latch.isSome) : s.racedBuffers addr.toNat bytes.length = [] := by
  cases hb : s.status.busy with
  | false =>
    refine List.eq_nil_iff_forall_not_mem.2 fun b hraced => ?_
    exact Bool.false_ne_true (hb.symm.trans (hbusy.trans (latch_isSome_of_raced hraced)))
  | true => simpa [HostAct.dutiful, hroute, hb] using h

/-- A dutiful host that is not stopped has a dutiful next action. -/
theorem State.dutiful_head {s : State} {a : HostAct} {rest : List HostAct} (h : s.dutiful = true)
    (hhost : s.nextAgent = .host) (hgo : s.host.stopped = false) (hprog : s.host.program = a :: rest) :
    a.dutiful s = true := by
  simpa [State.dutiful, hhost, hgo, hprog] using h

theorem hostAct_of_stopped {s : State} (h : s.host.stopped = true) : hostAct s = .next s := by
  simp [hostAct, h]

theorem hostAct_clean {s t : State} (hs : s.Clean) (hm : s.mem.wf = true) (hbusy : s.status.busy = s.latch.isSome)
    (hduty : ∀ a rest, s.host.program = a :: rest → a.dutiful s = true) (h : hostAct s = .next t) : t.Clean := by
  have hprogram (p : List HostAct) : (s.withProgram p).Clean := ⟨hs.pf, hs.dstRaced, hs.current⟩
  rcases hostAct_cases h with rfl | ⟨addr, bytes, rest, hp, h⟩ | ⟨addr, n, rest, -, h⟩ | ⟨a, rest, -, -, -, rfl | rfl⟩
  · exact hs
  · have hstore := hduty _ _ hp
    rcases hostStore_cases h with ⟨off, hroute, rfl⟩ | ⟨hroute, rfl⟩
    · exact writeReg_clean (hprogram rest) hbusy (HostAct.dutiful_store_register hstore hroute) _
    · exact hostMemStore_clean (hprogram rest) hm (route_memory_bound hroute)
        (HostAct.dutiful_store_memory hstore hroute hbusy)
  · rcases hostLoad_cases h with ⟨off, -, rfl⟩ | ⟨-, rfl⟩
    · exact ⟨hs.pf, hs.dstRaced, hs.current⟩
    · exact hostMemLoad_clean (hprogram rest) _ _
  · exact hprogram rest
  · exact ⟨hs.pf, hs.dstRaced, hs.current⟩

/-- Settles O58: completion and reset empty the latch, and a dutiful host writes neither a guarded register nor an extent
in flight. -/
theorem dutifulStepsAreClean : Obligations.DutifulStepsAreClean := by
  intro s t hm hlatch hduty hpf hraced hcurrent h
  have hs : s.tick.Clean := ⟨hpf, hraced, hcurrent⟩
  suffices ht : t.Clean from ⟨ht.pf, ht.dstRaced, ht.current⟩
  rcases step_cases h with ⟨hhost, h⟩ | ⟨-, h⟩ | ⟨-, rfl⟩
  · cases hgo : s.host.stopped
    · exact hostAct_clean hs hm hlatch.1 (fun _ _ => State.dutiful_head (s := s) hduty hhost hgo) h
    · rw [hostAct_of_stopped (s := s.tick) hgo] at h
      exact Host.Outcome.next.inj h ▸ hs
  · exact coreStep_clean hs h
  · exact platformReset_clean _

end Sys2Proof.Machine
